-- ==== Sys2Proof/Word.lean ====
section
/-!
DEFINITION. The widths the block moves (00_scope.md R6, R8): 32-bit words and addresses, 16-bit halfwords and
instruction words, 8-bit bytes; and the register numbers (10_state.md R12, R14).
-/

namespace Sys2Proof

/-- A 32-bit register value or address; its arithmetic wraps modulo 2^32 (R8). -/
abbrev Word := BitVec 32

/-- A 16-bit halfword; an instruction word is one (R58). -/
abbrev Half := BitVec 16

/-- An 8-bit byte, the addressable unit (R37). -/
abbrev Byte := BitVec 8

/-- A register number of the full 16-register space (R12). -/
abbrev Reg := Fin 16

/-- A register number a 3-bit field can name, R0 to R7 (R14). -/
abbrev LowReg := Fin 8

end Sys2Proof
end

