-- ==== Sys2Proof/Syntax.lean ====
section
/-!
DEFINITION. The instructions: one constructor per row of spec/opcode_table.json, in the table's order, with the
fields the row gives it. A low register field is a `LowReg`, a 4-bit register number `H : field` of Format 5 a `Reg`
(30_encoding.md R66), an immediate keeps the bits of its field (R75).
-/

namespace Sys2Proof

/-- The 75 rows of spec/opcode_table.json. -/
inductive Instr where
  -- Format 1, R62
  | lslImm (imm5 : BitVec 5) (rs rd : LowReg)
  | lsrImm (imm5 : BitVec 5) (rs rd : LowReg)
  | asrImm (imm5 : BitVec 5) (rs rd : LowReg)
  -- Format 2, R63
  | addReg (rn rs rd : LowReg)
  | subReg (rn rs rd : LowReg)
  | addImm3 (imm3 : BitVec 3) (rs rd : LowReg)
  | subImm3 (imm3 : BitVec 3) (rs rd : LowReg)
  -- Format 3, R64
  | movImm8 (rd : LowReg) (imm8 : BitVec 8)
  | cmpImm8 (rd : LowReg) (imm8 : BitVec 8)
  | addImm8 (rd : LowReg) (imm8 : BitVec 8)
  | subImm8 (rd : LowReg) (imm8 : BitVec 8)
  -- Format 4, R65
  | and (rs rd : LowReg)
  | eor (rs rd : LowReg)
  | lslReg (rs rd : LowReg)
  | lsrReg (rs rd : LowReg)
  | asrReg (rs rd : LowReg)
  | adc (rs rd : LowReg)
  | sbc (rs rd : LowReg)
  | ror (rs rd : LowReg)
  | tst (rs rd : LowReg)
  | neg (rs rd : LowReg)
  | cmpReg (rs rd : LowReg)
  | cmn (rs rd : LowReg)
  | orr (rs rd : LowReg)
  | mul (rs rd : LowReg)
  | bic (rs rd : LowReg)
  | mvn (rs rd : LowReg)
  -- Format 5, R66; BX and BLX keep the bits w[2:0] that the block ignores
  | addHi (rs rd : Reg)
  | cmpHi (rs rd : Reg)
  | movHi (rs rd : Reg)
  | bx (rs : Reg) (ignored : BitVec 3)
  | blxReg (rs : Reg) (ignored : BitVec 3)
  -- Format 6, R67
  | ldrPc (rd : LowReg) (imm8 : BitVec 8)
  -- Formats 7 and 8, R68 and R69
  | strReg (ro rb rd : LowReg)
  | strhReg (ro rb rd : LowReg)
  | strbReg (ro rb rd : LowReg)
  | ldsbReg (ro rb rd : LowReg)
  | ldrReg (ro rb rd : LowReg)
  | ldrhReg (ro rb rd : LowReg)
  | ldrbReg (ro rb rd : LowReg)
  | ldshReg (ro rb rd : LowReg)
  -- Formats 9 and 10, R70 and R71
  | strImm (imm5 : BitVec 5) (rb rd : LowReg)
  | ldrImm (imm5 : BitVec 5) (rb rd : LowReg)
  | strbImm (imm5 : BitVec 5) (rb rd : LowReg)
  | ldrbImm (imm5 : BitVec 5) (rb rd : LowReg)
  | strhImm (imm5 : BitVec 5) (rb rd : LowReg)
  | ldrhImm (imm5 : BitVec 5) (rb rd : LowReg)
  -- Format 14, R72
  | push (r : Bool) (rlist : BitVec 8)
  | pop (r : Bool) (rlist : BitVec 8)
  -- Format 16, R73
  | beq (imm8 : BitVec 8)
  | bne (imm8 : BitVec 8)
  | bcs (imm8 : BitVec 8)
  | bcc (imm8 : BitVec 8)
  | bmi (imm8 : BitVec 8)
  | bpl (imm8 : BitVec 8)
  | bvs (imm8 : BitVec 8)
  | bvc (imm8 : BitVec 8)
  | bhi (imm8 : BitVec 8)
  | bls (imm8 : BitVec 8)
  | bge (imm8 : BitVec 8)
  | blt (imm8 : BitVec 8)
  | bgt (imm8 : BitVec 8)
  | ble (imm8 : BitVec 8)
  -- Format 19, R74
  | blHi (imm11 : BitVec 11)
  | blLo (imm11 : BitVec 11)
  | blxLo (imm11 : BitVec 11)
  -- the seven rows INVALID, R76, named by the row's match; each carries the whole word, which the signal reports
  | invalid9000 (word : Half)
  | invalidA000 (word : Half)
  | invalidB000 (word : Half)
  | invalidB200 (word : Half)
  | invalidB600 (word : Half)
  | invalidC000 (word : Half)
  | invalidE000 (word : Half)
  -- the two Format 16 rows that raise the signal, R77
  | invalidCond14 (word : Half)
  | invalidSwi (word : Half)
  deriving DecidableEq, Repr

end Sys2Proof
end

