-- ==== Sys2Proof/WellFormed.lean ====
section
/-!
DEFINITION. Which terms of `Instr` stand for an instruction word. The field types of the 66 executing rows are exactly
as wide as the fields, and every value of every field is legal (30_encoding.md, section 3), so the only checks are
those of the nine invalid rows, which carry a whole word: the word must match the row's mask and match value
(R76, R77).
-/

namespace Sys2Proof

/-- `w & mask = match`, the selection rule of spec/opcode_table.json. -/
def matchesRow (w mask pattern : Half) : Bool := w &&& mask == pattern

/-- The check of each constructor. -/
def Instr.wellFormed : Instr → Bool
  | .lslImm _ _ _ | .lsrImm _ _ _ | .asrImm _ _ _ => true
  | .addReg _ _ _ | .subReg _ _ _ | .addImm3 _ _ _ | .subImm3 _ _ _ => true
  | .movImm8 _ _ | .cmpImm8 _ _ | .addImm8 _ _ | .subImm8 _ _ => true
  | .and _ _ | .eor _ _ | .lslReg _ _ | .lsrReg _ _ | .asrReg _ _ | .adc _ _ | .sbc _ _ | .ror _ _ => true
  | .tst _ _ | .neg _ _ | .cmpReg _ _ | .cmn _ _ | .orr _ _ | .mul _ _ | .bic _ _ | .mvn _ _ => true
  | .addHi _ _ | .cmpHi _ _ | .movHi _ _ | .bx _ _ | .blxReg _ _ => true
  | .ldrPc _ _ => true
  | .strReg _ _ _ | .strhReg _ _ _ | .strbReg _ _ _ | .ldsbReg _ _ _ => true
  | .ldrReg _ _ _ | .ldrhReg _ _ _ | .ldrbReg _ _ _ | .ldshReg _ _ _ => true
  | .strImm _ _ _ | .ldrImm _ _ _ | .strbImm _ _ _ | .ldrbImm _ _ _ | .strhImm _ _ _ | .ldrhImm _ _ _ => true
  | .push _ _ | .pop _ _ => true
  | .beq _ | .bne _ | .bcs _ | .bcc _ | .bmi _ | .bpl _ | .bvs _ | .bvc _ => true
  | .bhi _ | .bls _ | .bge _ | .blt _ | .bgt _ | .ble _ => true
  | .blHi _ | .blLo _ | .blxLo _ => true
  | .invalid9000 w => matchesRow w 0xF000 0x9000
  | .invalidA000 w => matchesRow w 0xF000 0xA000
  | .invalidB000 w => matchesRow w 0xF600 0xB000
  | .invalidB200 w => matchesRow w 0xF600 0xB200
  | .invalidB600 w => matchesRow w 0xF600 0xB600
  | .invalidC000 w => matchesRow w 0xF000 0xC000
  | .invalidE000 w => matchesRow w 0xF800 0xE000
  | .invalidCond14 w => matchesRow w 0xFF00 0xDE00
  | .invalidSwi w => matchesRow w 0xFF00 0xDF00

/-- The nine rows that raise the invalid-opcode signal (spec/opcode_table.json, `"invalid": true`). -/
def Instr.isInvalidRow : Instr → Bool
  | .lslImm _ _ _ | .lsrImm _ _ _ | .asrImm _ _ _ => false
  | .addReg _ _ _ | .subReg _ _ _ | .addImm3 _ _ _ | .subImm3 _ _ _ => false
  | .movImm8 _ _ | .cmpImm8 _ _ | .addImm8 _ _ | .subImm8 _ _ => false
  | .and _ _ | .eor _ _ | .lslReg _ _ | .lsrReg _ _ | .asrReg _ _ | .adc _ _ | .sbc _ _ | .ror _ _ => false
  | .tst _ _ | .neg _ _ | .cmpReg _ _ | .cmn _ _ | .orr _ _ | .mul _ _ | .bic _ _ | .mvn _ _ => false
  | .addHi _ _ | .cmpHi _ _ | .movHi _ _ | .bx _ _ | .blxReg _ _ => false
  | .ldrPc _ _ => false
  | .strReg _ _ _ | .strhReg _ _ _ | .strbReg _ _ _ | .ldsbReg _ _ _ => false
  | .ldrReg _ _ _ | .ldrhReg _ _ _ | .ldrbReg _ _ _ | .ldshReg _ _ _ => false
  | .strImm _ _ _ | .ldrImm _ _ _ | .strbImm _ _ _ | .ldrbImm _ _ _ | .strhImm _ _ _ | .ldrhImm _ _ _ => false
  | .push _ _ | .pop _ _ => false
  | .beq _ | .bne _ | .bcs _ | .bcc _ | .bmi _ | .bpl _ | .bvs _ | .bvc _ => false
  | .bhi _ | .bls _ | .bge _ | .blt _ | .bgt _ | .ble _ => false
  | .blHi _ | .blLo _ | .blxLo _ => false
  | .invalid9000 _ | .invalidA000 _ | .invalidB000 _ | .invalidB200 _ | .invalidB600 _ => true
  | .invalidC000 _ | .invalidE000 _ | .invalidCond14 _ | .invalidSwi _ => true

end Sys2Proof
end

