-- ==== Sys2Proof/Decode.lean ====
section
/-!
DEFINITION. The format classifier (30_encoding.md R60), the same classification as a map from the high byte (R61), the
field layouts (R62 to R74), the decoder from bytes, and the encoder.
-/

namespace Sys2Proof

/-- The bits `lo + n - 1` down to `lo` of an instruction word (R7). -/
def field (w : Half) (lo n : Nat) : BitVec n := w.extractLsb' lo n

/-- The value `v` placed at bit `lo` of an instruction word. -/
def put (lo : Nat) {n : Nat} (v : BitVec n) : Half := v.setWidth 16 <<< lo

/-- A 3-bit register field names R0 to R7 (R14). -/
def regOf3 (b : BitVec 3) : LowReg := b.toFin

/-- The 3-bit field of a low register. -/
def bitsOf3 (r : LowReg) : BitVec 3 := BitVec.ofFin r

/-- A Format 5 register number, the `H` bit above the 3-bit field (R66). -/
def regOf4 (h : BitVec 1) (b : BitVec 3) : Reg := (h ++ b).toFin

/-- The `H` bit of a register number. -/
def hBit (r : Reg) : BitVec 1 := (BitVec.ofFin (w := 4) r).extractLsb' 3 1

/-- The 3-bit field of a register number. -/
def lowBits (r : Reg) : BitVec 3 := (BitVec.ofFin (w := 4) r).extractLsb' 0 3

/-- The 14 predicates of R60, with 7/8 split on `w[9]` as the table splits it. -/
inductive Format where
  | f1 | f2 | f3 | f4 | f5 | f6 | f7 | f8 | f9 | f10 | f14 | f16 | f19a | f19b
  deriving DecidableEq, Repr

/-- The predicate of each format on the word, as R60's third column writes it. -/
def Format.admits (f : Format) (w : Half) : Bool :=
  match f with
  | .f1 => field w 13 3 == 0b000 && field w 11 2 != 0b11
  | .f2 => field w 11 5 == 0b00011
  | .f3 => field w 13 3 == 0b001
  | .f4 => field w 10 6 == 0b010000
  | .f5 => field w 10 6 == 0b010001
  | .f6 => field w 11 5 == 0b01001
  | .f7 => field w 12 4 == 0b0101 && field w 9 1 == 0
  | .f8 => field w 12 4 == 0b0101 && field w 9 1 == 1
  | .f9 => field w 13 3 == 0b011
  | .f10 => field w 12 4 == 0b1000
  | .f14 => field w 12 4 == 0b1011 && field w 9 2 == 0b10
  | .f16 => field w 12 4 == 0b1101
  | .f19a => field w 11 5 == 0b11110
  | .f19b => field w 13 3 == 0b111 && field w 11 1 == 1

/-- The classifier: the format whose predicate the word meets, none if it meets none (R60). -/
def classify (w : Half) : Option Format :=
  if Format.f1.admits w then some .f1
  else if Format.f2.admits w then some .f2
  else if Format.f3.admits w then some .f3
  else if Format.f4.admits w then some .f4
  else if Format.f5.admits w then some .f5
  else if Format.f6.admits w then some .f6
  else if Format.f7.admits w then some .f7
  else if Format.f8.admits w then some .f8
  else if Format.f9.admits w then some .f9
  else if Format.f10.admits w then some .f10
  else if Format.f14.admits w then some .f14
  else if Format.f16.admits w then some .f16
  else if Format.f19a.admits w then some .f19a
  else if Format.f19b.admits w then some .f19b
  else none

/-- The format column of R61, the map from the high byte: the ranges of the table in its order. -/
def formatOfHighByte (hb : BitVec 8) : Option Format :=
  let h := hb.toNat
  if h ≤ 0x17 then some .f1
  else if h ≤ 0x1F then some .f2
  else if h ≤ 0x3F then some .f3
  else if h ≤ 0x43 then some .f4
  else if h ≤ 0x47 then some .f5
  else if h ≤ 0x4F then some .f6
  else if h ≤ 0x51 then some .f7
  else if h ≤ 0x53 then some .f8
  else if h ≤ 0x55 then some .f7
  else if h ≤ 0x57 then some .f8
  else if h ≤ 0x59 then some .f7
  else if h ≤ 0x5B then some .f8
  else if h ≤ 0x5D then some .f7
  else if h ≤ 0x5F then some .f8
  else if h ≤ 0x7F then some .f9
  else if h ≤ 0x8F then some .f10
  else if h ≤ 0xB3 then none
  else if h ≤ 0xB5 then some .f14
  else if h ≤ 0xBB then none
  else if h ≤ 0xBD then some .f14
  else if h ≤ 0xCF then none
  else if h ≤ 0xDF then some .f16
  else if h ≤ 0xE7 then none
  else if h ≤ 0xEF then some .f19b
  else if h ≤ 0xF7 then some .f19a
  else some .f19b

/-- Format 1 (R62): `op` is `w[12:11]`; its value 3 is Format 2. -/
def decodeF1 (w : Half) : Instr :=
  let imm5 := field w 6 5
  let rs := regOf3 (field w 3 3)
  let rd := regOf3 (field w 0 3)
  if field w 11 2 = 0 then .lslImm imm5 rs rd
  else if field w 11 2 = 1 then .lsrImm imm5 rs rd
  else .asrImm imm5 rs rd

/-- Format 2 (R63): `I` is `w[10]`, `Op` is `w[9]`. -/
def decodeF2 (w : Half) : Instr :=
  let rs := regOf3 (field w 3 3)
  let rd := regOf3 (field w 0 3)
  if field w 10 1 = 0 then
    if field w 9 1 = 0 then .addReg (regOf3 (field w 6 3)) rs rd else .subReg (regOf3 (field w 6 3)) rs rd
  else
    if field w 9 1 = 0 then .addImm3 (field w 6 3) rs rd else .subImm3 (field w 6 3) rs rd

/-- Format 3 (R64). -/
def decodeF3 (w : Half) : Instr :=
  let rd := regOf3 (field w 8 3)
  let imm8 := field w 0 8
  if field w 11 2 = 0 then .movImm8 rd imm8
  else if field w 11 2 = 1 then .cmpImm8 rd imm8
  else if field w 11 2 = 2 then .addImm8 rd imm8
  else .subImm8 rd imm8

/-- Format 4 (R65): the 16 sub-operations by `w[9:6]`. -/
def decodeF4 (w : Half) : Instr :=
  let rs := regOf3 (field w 3 3)
  let rd := regOf3 (field w 0 3)
  match (field w 6 4).toNat with
  | 0 => .and rs rd
  | 1 => .eor rs rd
  | 2 => .lslReg rs rd
  | 3 => .lsrReg rs rd
  | 4 => .asrReg rs rd
  | 5 => .adc rs rd
  | 6 => .sbc rs rd
  | 7 => .ror rs rd
  | 8 => .tst rs rd
  | 9 => .neg rs rd
  | 10 => .cmpReg rs rd
  | 11 => .cmn rs rd
  | 12 => .orr rs rd
  | 13 => .mul rs rd
  | 14 => .bic rs rd
  | _ => .mvn rs rd

/-- Format 5 (R66): `op` is `w[9:8]`; for `op` = 3 the bit `H1` is the link bit. -/
def decodeF5 (w : Half) : Instr :=
  let rs := regOf4 (field w 6 1) (field w 3 3)
  let rd := regOf4 (field w 7 1) (field w 0 3)
  if field w 8 2 = 0 then .addHi rs rd
  else if field w 8 2 = 1 then .cmpHi rs rd
  else if field w 8 2 = 2 then .movHi rs rd
  else if field w 7 1 = 0 then .bx rs (field w 0 3)
  else .blxReg rs (field w 0 3)

/-- Format 6 (R67). -/
def decodeF6 (w : Half) : Instr := .ldrPc (regOf3 (field w 8 3)) (field w 0 8)

/-- Format 7 (R68): `L` is `w[11]`, `B` is `w[10]`. -/
def decodeF7 (w : Half) : Instr :=
  let ro := regOf3 (field w 6 3)
  let rb := regOf3 (field w 3 3)
  let rd := regOf3 (field w 0 3)
  if field w 10 2 = 0 then .strReg ro rb rd
  else if field w 10 2 = 1 then .strbReg ro rb rd
  else if field w 10 2 = 2 then .ldrReg ro rb rd
  else .ldrbReg ro rb rd

/-- Format 8 (R69): `H` is `w[11]`, `S` is `w[10]`. -/
def decodeF8 (w : Half) : Instr :=
  let ro := regOf3 (field w 6 3)
  let rb := regOf3 (field w 3 3)
  let rd := regOf3 (field w 0 3)
  if field w 10 2 = 0 then .strhReg ro rb rd
  else if field w 10 2 = 1 then .ldsbReg ro rb rd
  else if field w 10 2 = 2 then .ldrhReg ro rb rd
  else .ldshReg ro rb rd

/-- Format 9 (R70): `B` is `w[12]`, `L` is `w[11]`. -/
def decodeF9 (w : Half) : Instr :=
  let imm5 := field w 6 5
  let rb := regOf3 (field w 3 3)
  let rd := regOf3 (field w 0 3)
  if field w 11 2 = 0 then .strImm imm5 rb rd
  else if field w 11 2 = 1 then .ldrImm imm5 rb rd
  else if field w 11 2 = 2 then .strbImm imm5 rb rd
  else .ldrbImm imm5 rb rd

/-- Format 10 (R71): `L` is `w[11]`. -/
def decodeF10 (w : Half) : Instr :=
  let imm5 := field w 6 5
  let rb := regOf3 (field w 3 3)
  let rd := regOf3 (field w 0 3)
  if field w 11 1 = 0 then .strhImm imm5 rb rd else .ldrhImm imm5 rb rd

/-- Format 14 (R72): `L` is `w[11]`, `R` is `w[8]`. -/
def decodeF14 (w : Half) : Instr :=
  let r := field w 8 1 == 1
  if field w 11 1 = 0 then .push r (field w 0 8) else .pop r (field w 0 8)

/-- Format 16 (R73): the conditions 0 to 13 by R94's numbering; 14 and 15 raise the signal (R77). -/
def decodeF16 (w : Half) : Instr :=
  let imm8 := field w 0 8
  match (field w 8 4).toNat with
  | 0 => .beq imm8
  | 1 => .bne imm8
  | 2 => .bcs imm8
  | 3 => .bcc imm8
  | 4 => .bmi imm8
  | 5 => .bpl imm8
  | 6 => .bvs imm8
  | 7 => .bvc imm8
  | 8 => .bhi imm8
  | 9 => .bls imm8
  | 10 => .bge imm8
  | 11 => .blt imm8
  | 12 => .bgt imm8
  | 13 => .ble imm8
  | 14 => .invalidCond14 w
  | _ => .invalidSwi w

/-- Format 19a (R74). -/
def decodeF19a (w : Half) : Instr := .blHi (field w 0 11)

/-- Format 19b (R74): `w[12]` = 0 is the exchange variant. -/
def decodeF19b (w : Half) : Instr := if field w 12 1 = 1 then .blLo (field w 0 11) else .blxLo (field w 0 11)

/-- The seven patterns that match no predicate (R76). -/
def decodeNoFormat (w : Half) : Instr :=
  if field w 12 4 = 0b1001 then .invalid9000 w
  else if field w 12 4 = 0b1010 then .invalidA000 w
  else if field w 12 4 = 0b1011 then
    if field w 9 2 = 0b00 then .invalidB000 w
    else if field w 9 2 = 0b01 then .invalidB200 w
    else .invalidB600 w
  else if field w 12 4 = 0b1100 then .invalidC000 w
  else .invalidE000 w

/-- The instruction of a word: a total function of the 16 bits (R59, R60). -/
def decodeWord (w : Half) : Instr :=
  match classify w with
  | some .f1 => decodeF1 w
  | some .f2 => decodeF2 w
  | some .f3 => decodeF3 w
  | some .f4 => decodeF4 w
  | some .f5 => decodeF5 w
  | some .f6 => decodeF6 w
  | some .f7 => decodeF7 w
  | some .f8 => decodeF8 w
  | some .f9 => decodeF9 w
  | some .f10 => decodeF10 w
  | some .f14 => decodeF14 w
  | some .f16 => decodeF16 w
  | some .f19a => decodeF19a w
  | some .f19b => decodeF19b w
  | none => decodeNoFormat w

/-- Why a list of bytes holds no instruction: fewer than the two bytes of an instruction word (R58). Safe: the fetch
loop always hands over two bytes. -/
inductive DecodeError where
  | truncated
  deriving DecidableEq, Repr

/-- The halfword of two bytes, the first at the lower address: little-endian (20_memory.md R43, R55). -/
def halfOfBytes (b0 b1 : Byte) : Half := put 8 b1 ||| put 0 b0

/-- The two bytes of a halfword as memory holds them, the lower address first (R43). -/
def bytesOfHalf (w : Half) : List Byte := [w.extractLsb' 0 8, w.extractLsb' 8 8]

/-- The decoder on bytes: one instruction and the bytes after it. -/
def decode : List Byte → Except DecodeError (Instr × List Byte)
  | b0 :: b1 :: rest => .ok (decodeWord (halfOfBytes b0 b1), rest)
  | [] | [_] => .error .truncated

/-- The decoder's answer on a row of the table whose bits are `w` (bits above `nbits` are 0). -/
def decodeTableWord (nbits w : Nat) : Option Instr :=
  match decode (bytesOfHalf (BitVec.ofNat 16 (w % 2 ^ nbits))) with
  | .ok (i, _) => some i
  | .error _ => none

/-- The word of an instruction: the row's match value with the fields placed by R62 to R74. -/
def encode : Instr → Half
  | .lslImm imm5 rs rd => 0x0000 ||| put 6 imm5 ||| put 3 (bitsOf3 rs) ||| put 0 (bitsOf3 rd)
  | .lsrImm imm5 rs rd => 0x0800 ||| put 6 imm5 ||| put 3 (bitsOf3 rs) ||| put 0 (bitsOf3 rd)
  | .asrImm imm5 rs rd => 0x1000 ||| put 6 imm5 ||| put 3 (bitsOf3 rs) ||| put 0 (bitsOf3 rd)
  | .addReg rn rs rd => 0x1800 ||| put 6 (bitsOf3 rn) ||| put 3 (bitsOf3 rs) ||| put 0 (bitsOf3 rd)
  | .subReg rn rs rd => 0x1A00 ||| put 6 (bitsOf3 rn) ||| put 3 (bitsOf3 rs) ||| put 0 (bitsOf3 rd)
  | .addImm3 imm3 rs rd => 0x1C00 ||| put 6 imm3 ||| put 3 (bitsOf3 rs) ||| put 0 (bitsOf3 rd)
  | .subImm3 imm3 rs rd => 0x1E00 ||| put 6 imm3 ||| put 3 (bitsOf3 rs) ||| put 0 (bitsOf3 rd)
  | .movImm8 rd imm8 => 0x2000 ||| put 8 (bitsOf3 rd) ||| put 0 imm8
  | .cmpImm8 rd imm8 => 0x2800 ||| put 8 (bitsOf3 rd) ||| put 0 imm8
  | .addImm8 rd imm8 => 0x3000 ||| put 8 (bitsOf3 rd) ||| put 0 imm8
  | .subImm8 rd imm8 => 0x3800 ||| put 8 (bitsOf3 rd) ||| put 0 imm8
  | .and rs rd => 0x4000 ||| put 3 (bitsOf3 rs) ||| put 0 (bitsOf3 rd)
  | .eor rs rd => 0x4040 ||| put 3 (bitsOf3 rs) ||| put 0 (bitsOf3 rd)
  | .lslReg rs rd => 0x4080 ||| put 3 (bitsOf3 rs) ||| put 0 (bitsOf3 rd)
  | .lsrReg rs rd => 0x40C0 ||| put 3 (bitsOf3 rs) ||| put 0 (bitsOf3 rd)
  | .asrReg rs rd => 0x4100 ||| put 3 (bitsOf3 rs) ||| put 0 (bitsOf3 rd)
  | .adc rs rd => 0x4140 ||| put 3 (bitsOf3 rs) ||| put 0 (bitsOf3 rd)
  | .sbc rs rd => 0x4180 ||| put 3 (bitsOf3 rs) ||| put 0 (bitsOf3 rd)
  | .ror rs rd => 0x41C0 ||| put 3 (bitsOf3 rs) ||| put 0 (bitsOf3 rd)
  | .tst rs rd => 0x4200 ||| put 3 (bitsOf3 rs) ||| put 0 (bitsOf3 rd)
  | .neg rs rd => 0x4240 ||| put 3 (bitsOf3 rs) ||| put 0 (bitsOf3 rd)
  | .cmpReg rs rd => 0x4280 ||| put 3 (bitsOf3 rs) ||| put 0 (bitsOf3 rd)
  | .cmn rs rd => 0x42C0 ||| put 3 (bitsOf3 rs) ||| put 0 (bitsOf3 rd)
  | .orr rs rd => 0x4300 ||| put 3 (bitsOf3 rs) ||| put 0 (bitsOf3 rd)
  | .mul rs rd => 0x4340 ||| put 3 (bitsOf3 rs) ||| put 0 (bitsOf3 rd)
  | .bic rs rd => 0x4380 ||| put 3 (bitsOf3 rs) ||| put 0 (bitsOf3 rd)
  | .mvn rs rd => 0x43C0 ||| put 3 (bitsOf3 rs) ||| put 0 (bitsOf3 rd)
  | .addHi rs rd => 0x4400 ||| put 7 (hBit rd) ||| put 6 (hBit rs) ||| put 3 (lowBits rs) ||| put 0 (lowBits rd)
  | .cmpHi rs rd => 0x4500 ||| put 7 (hBit rd) ||| put 6 (hBit rs) ||| put 3 (lowBits rs) ||| put 0 (lowBits rd)
  | .movHi rs rd => 0x4600 ||| put 7 (hBit rd) ||| put 6 (hBit rs) ||| put 3 (lowBits rs) ||| put 0 (lowBits rd)
  | .bx rs ignored => 0x4700 ||| put 6 (hBit rs) ||| put 3 (lowBits rs) ||| put 0 ignored
  | .blxReg rs ignored => 0x4780 ||| put 6 (hBit rs) ||| put 3 (lowBits rs) ||| put 0 ignored
  | .ldrPc rd imm8 => 0x4800 ||| put 8 (bitsOf3 rd) ||| put 0 imm8
  | .strReg ro rb rd => 0x5000 ||| put 6 (bitsOf3 ro) ||| put 3 (bitsOf3 rb) ||| put 0 (bitsOf3 rd)
  | .strhReg ro rb rd => 0x5200 ||| put 6 (bitsOf3 ro) ||| put 3 (bitsOf3 rb) ||| put 0 (bitsOf3 rd)
  | .strbReg ro rb rd => 0x5400 ||| put 6 (bitsOf3 ro) ||| put 3 (bitsOf3 rb) ||| put 0 (bitsOf3 rd)
  | .ldsbReg ro rb rd => 0x5600 ||| put 6 (bitsOf3 ro) ||| put 3 (bitsOf3 rb) ||| put 0 (bitsOf3 rd)
  | .ldrReg ro rb rd => 0x5800 ||| put 6 (bitsOf3 ro) ||| put 3 (bitsOf3 rb) ||| put 0 (bitsOf3 rd)
  | .ldrhReg ro rb rd => 0x5A00 ||| put 6 (bitsOf3 ro) ||| put 3 (bitsOf3 rb) ||| put 0 (bitsOf3 rd)
  | .ldrbReg ro rb rd => 0x5C00 ||| put 6 (bitsOf3 ro) ||| put 3 (bitsOf3 rb) ||| put 0 (bitsOf3 rd)
  | .ldshReg ro rb rd => 0x5E00 ||| put 6 (bitsOf3 ro) ||| put 3 (bitsOf3 rb) ||| put 0 (bitsOf3 rd)
  | .strImm imm5 rb rd => 0x6000 ||| put 6 imm5 ||| put 3 (bitsOf3 rb) ||| put 0 (bitsOf3 rd)
  | .ldrImm imm5 rb rd => 0x6800 ||| put 6 imm5 ||| put 3 (bitsOf3 rb) ||| put 0 (bitsOf3 rd)
  | .strbImm imm5 rb rd => 0x7000 ||| put 6 imm5 ||| put 3 (bitsOf3 rb) ||| put 0 (bitsOf3 rd)
  | .ldrbImm imm5 rb rd => 0x7800 ||| put 6 imm5 ||| put 3 (bitsOf3 rb) ||| put 0 (bitsOf3 rd)
  | .strhImm imm5 rb rd => 0x8000 ||| put 6 imm5 ||| put 3 (bitsOf3 rb) ||| put 0 (bitsOf3 rd)
  | .ldrhImm imm5 rb rd => 0x8800 ||| put 6 imm5 ||| put 3 (bitsOf3 rb) ||| put 0 (bitsOf3 rd)
  | .push r rlist => 0xB400 ||| put 8 (BitVec.ofBool r) ||| put 0 rlist
  | .pop r rlist => 0xBC00 ||| put 8 (BitVec.ofBool r) ||| put 0 rlist
  | .beq imm8 => 0xD000 ||| put 0 imm8
  | .bne imm8 => 0xD100 ||| put 0 imm8
  | .bcs imm8 => 0xD200 ||| put 0 imm8
  | .bcc imm8 => 0xD300 ||| put 0 imm8
  | .bmi imm8 => 0xD400 ||| put 0 imm8
  | .bpl imm8 => 0xD500 ||| put 0 imm8
  | .bvs imm8 => 0xD600 ||| put 0 imm8
  | .bvc imm8 => 0xD700 ||| put 0 imm8
  | .bhi imm8 => 0xD800 ||| put 0 imm8
  | .bls imm8 => 0xD900 ||| put 0 imm8
  | .bge imm8 => 0xDA00 ||| put 0 imm8
  | .blt imm8 => 0xDB00 ||| put 0 imm8
  | .bgt imm8 => 0xDC00 ||| put 0 imm8
  | .ble imm8 => 0xDD00 ||| put 0 imm8
  | .blHi imm11 => 0xF000 ||| put 0 imm11
  | .blLo imm11 => 0xF800 ||| put 0 imm11
  | .blxLo imm11 => 0xE800 ||| put 0 imm11
  | .invalid9000 word => word
  | .invalidA000 word => word
  | .invalidB000 word => word
  | .invalidB200 word => word
  | .invalidB600 word => word
  | .invalidC000 word => word
  | .invalidE000 word => word
  | .invalidCond14 word => word
  | .invalidSwi word => word

end Sys2Proof
end

