-- ==== Sys2Proof/Config.lean ====
section
/-!
DEFINITION. What the spec leaves to the surrounding system: the parameters `RESET_STATE` and `ENTRY`
(10_state.md R36, 92_eei_decisions.md D23), the parameter `Bus` (20_memory.md R40, R42, D18), the contents of memory at the
start, and the free value a read of an unmapped address returns (R42, D30).
-/

namespace Sys2Proof

/-- The state of the devices behind the bus, "device state of their own" (D18): any numbering of the states of any devices.
Nothing but `Bus` reads it. -/
abbrev BusState := Nat

/-- `Bus`: the six operations of R40 as total functions of the device state (R42, D18, 93_implementation_defined.md U18). A
read answers a value and the next device state, a write the next device state. -/
structure Bus where
  readByte : BusState → Word → Byte × BusState
  readHalf : BusState → Word → Half × BusState
  readWord : BusState → Word → Word × BusState
  writeByte : BusState → Word → Byte → BusState
  writeHalf : BusState → Word → Half → BusState
  writeWord : BusState → Word → Word → BusState
  deriving Inhabited

/-- The owning system's bus, the model's argument `Bus` (R42, D18). It has no value, so that what is proved holds of every
bus. It serves the accesses that touch an external region of the map. Log entry 22. -/
opaque Config.bus : Bus

/-- The byte at an address the bus does not map. It has no value: R42 says a read there "draws any value of the
width (an oracle), never a fixed one". The first argument is the number of the draw, the second the address.
Log entry 7. -/
opaque Config.openBusByte : Nat → Nat → Byte

/-- What a mapped byte that nothing has written reads as. DESIGN CHOICE, unsafe, log entry 6: the spec gives no
contents. -/
def Config.unwrittenByte : Byte := 0

/-- `ENTRY`, the first fetch address. DESIGN CHOICE, unsafe, log entry 4: R36 leaves it to the model's argument. -/
def Config.entry : Word := 0

/-- The value of every register x[0] to x[14] at reset. DESIGN CHOICE, unsafe, log entry 1: R36 gives none. -/
def Config.resetRegister : Word := 0

/-- The value of N, Z, C and V at reset. DESIGN CHOICE, unsafe, log entry 2: R36 gives none. -/
def Config.resetFlag : Bool := false

/-- The device state of `Bus` at reset. DESIGN CHOICE, log entry 22: D18 leaves it to `Bus`, and the reference map of the
reset state has no external region. -/
def Config.resetBusState : BusState := 0

end Sys2Proof
end

