-- ==== Sys2Proof/Machine/State.lean ====
section
/-!
DEFINITION. The state (10_state.md, 20_memory.md), the reasons a step can stop (60_exceptions.md R179; 10_state.md R32,
R35) and the state right after reset.
-/

namespace Sys2Proof.Machine

/-- The four status flags (R23): separate booleans, no packed word (R27). -/
structure Flags where
  n : Bool
  z : Bool
  c : Bool
  v : Bool
  deriving DecidableEq, Repr

/-- One `mapRegion(baseAddress, backingStore, length, readOnly)` of the owning system (20_memory.md R38). `store` is the
first cell of the backing store, so that two regions over one store are mirrors of each other. An `external` region has no
backing store of plain bytes: the parameter `Bus` serves it (R39, R42, D18, log entry 22). -/
structure Region where
  base : Word
  length : Nat
  store : Nat
  readOnly : Bool
  external : Bool
  deriving DecidableEq, Repr

/-- The contents of the backing stores: (cell, byte) pairs in the canonical form `Memory.wf` of Machine/Ops.lean. -/
abbrev Memory := List Host.Cell

/-- A request the block makes of the bus, one of the six operations of R40, with the value read or written. -/
inductive BusOp where
  | readByte (addr : Word) (value : Byte)
  | readHalf (addr : Word) (value : Half)
  | readWord (addr : Word) (value : Word)
  | writeByte (addr : Word) (value : Byte)
  | writeHalf (addr : Word) (value : Half)
  | writeWord (addr : Word) (value : Word)
  deriving DecidableEq, Repr

/-- The machine. -/
structure State where
  /-- x[0] to x[14] (R12, R15); slot 15 is the pair `pcRead`, `pcPending`. -/
  regs : Vector Word 15
  /-- The current-PC-read value, `ia + 4` during a step (R16). -/
  pcRead : Word
  /-- The pending PC, which the fetch loop applies before the next fetch (R17, R19). -/
  pcPending : Word
  /-- N, Z, C, V (R23). -/
  flags : Flags
  /-- The mode bit: true selects 16-bit decoding (R26). -/
  t : Bool
  /-- `MEM_MAP`, the regions the bus maps (R38). -/
  memMap : List Region
  /-- The bytes of the backing stores. -/
  mem : Memory
  /-- The bus requests of the step, in the order issued: the step's output (R31, R51). -/
  busOps : List BusOp
  /-- The state of the devices behind `Bus` (D18, U18). -/
  busState : BusState
  /-- The model's own: which draw of the free value `Config.openBusByte` a read of an unmapped address returns. -/
  draw : Nat
  deriving DecidableEq, Repr

/-- The reason the invalid-opcode signal carries (R179). -/
inductive InvalidReason where
  /-- The word matches no format (R76). -/
  | noFormat
  /-- Format 16 with the condition field 14 (R171). -/
  | reservedCondition
  /-- Format 16 with the condition field 15, the software interrupt (R172). -/
  | unimplementedSwi
  deriving DecidableEq, Repr

/-- Why the machine stops with a fault. -/
inductive Fault where
  /-- The invalid-opcode signal (R179), raised by the nine invalid rows of the table, with the word as given to the step.
  It ends the run (R185). Safe: the source lets the caller stop, trap or skip, and the model claims nothing after it. -/
  | invalidOpcode (word : Half) (reason : InvalidReason)
  deriving DecidableEq, Repr

/-- Why a step is given no meaning. -/
inductive Refusal where
  /-- An arm of `exec` that has no meaning yet; no arm answers it in this model. Safe. -/
  | notModelled (mnemonic : String)
  /-- The fetch loop finds T = 0: the 32-bit set is excluded (R35, R59, decision D1). Raised by `fetchStep`. Safe. -/
  | leftCompactMode
  /-- The block is called outside its preconditions (R32). Raised by `blockStep`, never reached from `step`. Safe. -/
  | stepPrecondition
  deriving DecidableEq, Repr

/-- The outcome of a step of this machine. -/
abbrev StepResult := Host.Outcome State Fault Refusal

/-- The map of the reference bus: every address is plain read-write memory (R57). -/
def referenceMap : List Region := [⟨0, 2 ^ 32, 0, false, false⟩]

/-- The state at the first step for given arguments `RESET_STATE`, `ENTRY`, `MEM_MAP` and device state of `Bus` (R36, R193): T is 1 because the
block is stepped only then (R32), no bus request has been made. `pcRead` has no value between steps (R36) and takes the
value the fetch loop gives it for an even `ENTRY` (log entry 4). -/
def State.boot (regs : Vector Word 15) (flags : Flags) (entry : Word) (memMap : List Region) (mem : Memory)
    (busState : BusState) : State :=
  { regs := regs, pcRead := entry + 4, pcPending := entry, flags := flags, t := true, memMap := memMap, mem := mem,
    busOps := [], busState := busState, draw := 0 }

/-- The machine right after reset. The spec gives no reset value (R191): every value here is the model's choice, log
entries 1 to 7, 14 and 22. -/
def State.reset : State :=
  State.boot (Vector.replicate 15 Config.resetRegister)
    ⟨Config.resetFlag, Config.resetFlag, Config.resetFlag, Config.resetFlag⟩ Config.entry referenceMap [] Config.resetBusState

end Sys2Proof.Machine
end

