-- ==== Sys2Proof/Machine/Ops.lean ====
section
/-!
DEFINITION. The named operations over registers, memory and the bus, and raising the invalid-opcode signal. Every
instruction reaches State through these.
-/

namespace Sys2Proof.Machine

/-! ### Registers -/

/-- `x[i]`: a stored register, or `pc_read` for register 15 (R10, R16). -/
def State.readReg (s : State) (r : Reg) : Word :=
  if h : r.val < 15 then s.regs[r.val] else s.pcRead

/-- `x[i] <- v`: a stored register, or `pc_pending` for register 15 (R10, R18). -/
def State.writeReg (s : State) (r : Reg) (v : Word) : State :=
  if h : r.val < 15 then { s with regs := s.regs.set r.val v } else { s with pcPending := v }

/-- SP (R13). -/
def SP : Reg := 13

/-- LR (R13). -/
def LR : Reg := 14

/-- PC (R13). -/
def PC : Reg := 15

/-- `pc <- target`: the pending-PC write (R17). -/
def State.setPending (s : State) (target : Word) : State := { s with pcPending := target }

/-- `setT(b)` (R85). -/
def State.setT (s : State) (b : Bool) : State := { s with t := b }

/-- The four flags written together. -/
def State.setFlags (s : State) (f : Flags) : State := { s with flags := f }

/-! ### Memory contents -/

/-- The byte in a cell; a cell that is not listed holds `Config.unwrittenByte` (log entry 6). -/
def Memory.get : Memory → Nat → Byte
  | [], _ => Config.unwrittenByte
  | (k, b) :: m, i => if k = i then b else Memory.get m i

/-- Put a byte into a cell, keeping the cells in rising order and listing none that holds `Config.unwrittenByte`. -/
def Memory.set : Memory → Nat → Byte → Memory
  | [], i, v => if v = Config.unwrittenByte then [] else [(i, v)]
  | (k, b) :: m, i, v =>
    if i < k then (if v = Config.unwrittenByte then (k, b) :: m else (i, v) :: (k, b) :: m)
    else if i = k then (if v = Config.unwrittenByte then m else (i, v) :: m)
    else (k, b) :: Memory.set m i v

/-- Every cell listed lies above `lo`. -/
def Memory.above (lo : Nat) : Memory → Bool
  | [] => true
  | (k, _) :: _ => decide (lo < k)

/-- The canonical form: cells strictly rising, none listed that holds what an unlisted cell holds. -/
def Memory.wf : Memory → Bool
  | [] => true
  | (k, b) :: m => b != Config.unwrittenByte && Memory.above k m && Memory.wf m

/-! ### The map of the bus (R38) -/

/-- Whether the region maps the address. -/
def Region.holds (r : Region) (a : Word) : Bool := decide ((a - r.base).toNat < r.length)

/-- The cell of the region's backing store at the address. -/
def Region.cell (r : Region) (a : Word) : Nat := r.store + (a - r.base).toNat

/-- The region that maps an address; the first listed wins (log entry 9). -/
def State.regionAt (s : State) (a : Word) : Option Region := s.memMap.find? (·.holds a)

/-- The cell behind an address, if a region of plain memory maps it. -/
def State.cellAt (s : State) (a : Word) : Option Nat :=
  (s.regionAt a).bind fun r => if r.external then none else some (r.cell a)

/-- Whether an external region maps the address. -/
def State.externalAt (s : State) (a : Word) : Bool := (s.regionAt a).any (·.external)

/-- The `n` addresses from `a`, modulo 2^32. -/
def span (a : Word) (n : Nat) : List Word := (List.range n).map fun k => a + BitVec.ofNat 32 k

/-- Whether an access of `n` bytes at `a` touches an external region: then `Bus` serves the whole access, with the address
as it is, for the block neither splits nor merges accesses (R41, R44). -/
def State.external (s : State) (a : Word) (n : Nat) : Bool := (span a n).any s.externalAt

/-! ### The bytes the bus answers -/

/-- The byte outside the external regions: the cell's, or a free value where the bus maps nothing (R42, D30). -/
def State.memByteAt (s : State) (a : Word) : Byte :=
  match s.cellAt a with
  | some k => s.mem.get k
  | none => Config.openBusByte s.draw a.toNat

/-- The byte a read of one address returns: `Bus`'s answer in an external region (R42), else the byte there. -/
def State.byteAt (s : State) (a : Word) : Byte :=
  if s.external a 1 then (Config.bus.readByte s.busState a).1 else s.memByteAt a

/-- The halfword a read returns: `Bus`'s answer (R42), or the bytes there, little-endian (R43), at any alignment (R57, log
entry 10), addresses modulo 2^32. -/
def State.halfAt (s : State) (a : Word) : Half :=
  if s.external a 2 then (Config.bus.readHalf s.busState a).1 else s.memByteAt (a + 1) ++ s.memByteAt a

/-- The word a read returns: `Bus`'s answer (R42), or the bytes there, little-endian (R43), at any alignment (R57, log entry
10), addresses modulo 2^32. -/
def State.wordAt (s : State) (a : Word) : Word :=
  if s.external a 4 then (Config.bus.readWord s.busState a).1
  else ((s.memByteAt (a + 3) ++ s.memByteAt (a + 2)) ++ s.memByteAt (a + 1)) ++ s.memByteAt a

/-- Store one byte to plain memory. A write to a read-only region or to an unmapped address leaves nothing the block can see
(93_implementation_defined.md U8, log entry 8), and a write `Bus` serves changes no plain memory. -/
def State.putByte (s : State) (a : Word) (v : Byte) : State :=
  match s.regionAt a with
  | some r => if r.readOnly || r.external then s else { s with mem := s.mem.set (r.cell a) v }
  | none => s

/-- Store a halfword to plain memory, little-endian. -/
def State.putHalf (s : State) (a : Word) (v : Half) : State :=
  if s.external a 2 then s else (s.putByte a (v.extractLsb' 0 8)).putByte (a + 1) (v.extractLsb' 8 8)

/-- Store a word to plain memory, little-endian. -/
def State.putWord (s : State) (a : Word) (v : Word) : State :=
  if s.external a 4 then s else (((s.putByte a (v.extractLsb' 0 8)).putByte (a + 1) (v.extractLsb' 8 8)).putByte (a + 2)
    (v.extractLsb' 16 8)).putByte (a + 3) (v.extractLsb' 24 8)

/-! ### The six bus operations (R40, R41): the access and its record among the step's requests -/

/-- The device state after an operation: the next one `Bus` gives where `Bus` serves the access, else as it was (R42, R50,
D18). -/
def State.busAfter (s : State) : BusOp → BusState
  | .readByte a _ => if s.external a 1 then (Config.bus.readByte s.busState a).2 else s.busState
  | .readHalf a _ => if s.external a 2 then (Config.bus.readHalf s.busState a).2 else s.busState
  | .readWord a _ => if s.external a 4 then (Config.bus.readWord s.busState a).2 else s.busState
  | .writeByte a v => if s.external a 1 then Config.bus.writeByte s.busState a v else s.busState
  | .writeHalf a v => if s.external a 2 then Config.bus.writeHalf s.busState a v else s.busState
  | .writeWord a v => if s.external a 4 then Config.bus.writeWord s.busState a v else s.busState

/-- Issue a request after those already issued in this step (R51): it is recorded, and the devices take their step. -/
def State.request (s : State) (op : BusOp) : State :=
  { s with busOps := s.busOps ++ [op], busState := s.busAfter op }

/-- `MemRead(a, 1)`. -/
def State.memReadByte (s : State) (a : Word) : Byte × State := (s.byteAt a, s.request (.readByte a (s.byteAt a)))

/-- `MemRead(a, 2)`. -/
def State.memReadHalf (s : State) (a : Word) : Half × State := (s.halfAt a, s.request (.readHalf a (s.halfAt a)))

/-- `MemRead(a, 4)`. -/
def State.memReadWord (s : State) (a : Word) : Word × State := (s.wordAt a, s.request (.readWord a (s.wordAt a)))

/-- `MemWrite(a, 1, v)`. -/
def State.memWriteByte (s : State) (a : Word) (v : Byte) : State := (s.putByte a v).request (.writeByte a v)

/-- `MemWrite(a, 2, v)`. -/
def State.memWriteHalf (s : State) (a : Word) (v : Half) : State := (s.putHalf a v).request (.writeHalf a v)

/-- `MemWrite(a, 4, v)`. -/
def State.memWriteWord (s : State) (a : Word) (v : Word) : State := (s.putWord a v).request (.writeWord a v)

/-! ### The invalid-opcode signal -/

/-- `raise InvalidOpcode(w, reason)` (R179). The block's only exception: nothing is saved, no mode changes, no handler is
entered (R183) and no state changes (R180); the signal ends the run (R185). There is no return from it (R184). -/
def raiseInvalid (word : Half) (reason : InvalidReason) (_s : State) : StepResult := .fault (.invalidOpcode word reason)

end Sys2Proof.Machine
end

