-- ==== Sys2Proof/Machine/Flags.lean ====
section
/-!
DEFINITION. 40_flag_unit.md: the flag operations, the flag sets of addition and subtraction, the shifter, and the
evaluation of the 14 conditions.
-/

namespace Sys2Proof.Machine

/-! ### Flag operations (R81 to R86) -/

/-- `setNZ(result)` (R81). -/
def Flags.setNZ (f : Flags) (r : Word) : Flags := { f with n := r.msb, z := r == 0 }

/-- `setC(b)` (R82). -/
def Flags.setC (f : Flags) (b : Bool) : Flags := { f with c := b }

/-- `setVAdd(a, b, result)` (R83): the sign bit of `(~(a ^ b)) & (a ^ result)`. -/
def Flags.setVAdd (f : Flags) (a b r : Word) : Flags := { f with v := (~~~(a ^^^ b) &&& (a ^^^ r)).msb }

/-- `setVSub(a, b, result)` (R84): the sign bit of `(a ^ b) & (a ^ result)`. -/
def Flags.setVSub (f : Flags) (a b r : Word) : Flags := { f with v := ((a ^^^ b) &&& (a ^^^ r)).msb }

/-- The carry-as-integer accessor (R86). -/
def Flags.carry (f : Flags) : Word := if f.c then 1 else 0

/-! ### Addition and subtraction (R87, R88) -/

/-- `AddFlags(a, b)` (R87). -/
def addFlags (f : Flags) (a b : Word) : Word × Flags :=
  let res := a + b
  (res, ((f.setC (res.ult a)).setVAdd a b res).setNZ res)

/-- `SubFlags(a, b)` (R88). C is the source's literal `result <u operand`, which is no borrow detector (conflict C4). -/
def subFlags (f : Flags) (a b : Word) : Word × Flags :=
  let res := a - b
  (res, ((f.setC (res.ult b)).setVSub a b res).setNZ res)

/-! ### The shifter (R89 to R93): result and carry-out -/

/-- An amount of 0 stands for 32 in LSR and ASR, in Formats 1 and 4 (R91, R92). -/
def rightAmount (n : Nat) : Nat := if n = 0 then 32 else n

/-- `LSL_C(v, n, c)` (R90). -/
def lslC (v : Word) (n : Nat) (c : Bool) : Word × Bool :=
  if n = 0 then (v, c)
  else if n ≤ 31 then (v <<< n, v.getLsbD (32 - n))
  else if n = 32 then (0, v.getLsbD 0)
  else (0, false)

/-- `LSR_C(v, n, c)` (R91), called with `n >= 1` only (log entry 18). -/
def lsrC (v : Word) (n : Nat) : Word × Bool :=
  if n ≤ 31 then (v >>> n, v.getLsbD (n - 1))
  else if n = 32 then (0, v.getLsbD 31)
  else (0, false)

/-- `ASR_C(v, n, c)` (R92), called with `n >= 1` only (log entry 18). -/
def asrC (v : Word) (n : Nat) : Word × Bool :=
  if n ≤ 31 then (v.sshiftRight n, v.getLsbD (n - 1))
  else (if v.getLsbD 31 then 0xFFFFFFFF else 0, v.getLsbD 31)

/-- `ROR_C(v, n, c)` (R93). -/
def rorC (v : Word) (n : Nat) (c : Bool) : Word × Bool :=
  if n = 0 then (v, c)
  else
    let k := n % 32
    let res := if k = 0 then v else (v >>> k) ||| (v <<< (32 - k))
    (res, res.getLsbD 31)

/-! ### Conditions (R94) -/

/-- The 14 usable conditions, in R94's numbering. -/
inductive Cond where
  | eq | ne | cs | cc | mi | pl | vs | vc | hi | ls | ge | lt | gt | le
  deriving DecidableEq, Repr

/-- `CondPassed(cond)` (R94). -/
def condPassed (cond : Cond) (f : Flags) : Bool :=
  match cond with
  | .eq => f.z
  | .ne => !f.z
  | .cs => f.c
  | .cc => !f.c
  | .mi => f.n
  | .pl => !f.n
  | .vs => f.v
  | .vc => !f.v
  | .hi => f.c && !f.z
  | .ls => !f.c || f.z
  | .ge => f.n == f.v
  | .lt => f.n != f.v
  | .gt => !f.z && f.n == f.v
  | .le => f.z || f.n != f.v

end Sys2Proof.Machine
end

