-- ==== Sys2Proof/Machine/Operands.lean ====
section
/-!
DEFINITION. The operand forms: low registers, immediates (30_encoding.md R75), shift counts (42_alu_register.md R109),
effective addresses (44_load_store.md R133, R134), the register lists of push and pop (45_push_pop.md R150, R151) and
branch targets (46_branches.md R155, R173, R174).
-/

namespace Sys2Proof.Machine

/-- A low register as a register of the file (R14). -/
def low (r : LowReg) : Reg := r.castLE (by decide)

/-- `zext(v)` (R10). -/
def zext {n : Nat} (v : BitVec n) : Word := v.setWidth 32

/-- `sext(v)` (R10). -/
def sext {n : Nat} (v : BitVec n) : Word := v.signExtend 32

/-- The shift count of Format 4: the low 8 bits of the source register (R109). -/
def shiftCount (s : State) (rs : LowReg) : Nat := (s.readReg (low rs)).toNat % 256

/-- The address of the PC-relative load: `pc_read` with bit 1 cleared, plus four times the immediate (R134). -/
def pcRelAddr (s : State) (imm8 : BitVec 8) : Word := (s.pcRead &&& 0xFFFFFFFD) + zext imm8 * 4

/-- The address of Formats 7 and 8: base register plus offset register, unscaled (R135). -/
def regAddr (s : State) (ro rb : LowReg) : Word := s.readReg (low rb) + s.readReg (low ro)

/-- The address of Formats 9 and 10: base register plus the scaled immediate (R143, R145, R147). -/
def immAddr (s : State) (imm5 : BitVec 5) (scale : Word) (rb : LowReg) : Word :=
  s.readReg (low rb) + zext imm5 * scale

/-- The low registers of a list mask, bit 0 first (R150). -/
def listedRegs (rlist : BitVec 8) : List Reg :=
  ([0, 1, 2, 3, 4, 5, 6, 7] : List Reg).filter fun r => rlist.getLsbD r.val

/-- The registers a push stores, in the order of rising addresses: the list, then LR (R150). -/
def pushRegs (r : Bool) (rlist : BitVec 8) : List Reg := listedRegs rlist ++ if r then [LR] else []

/-- The registers a pop loads, in the order of rising addresses: the list, then PC (R150). -/
def popRegs (r : Bool) (rlist : BitVec 8) : List Reg := listedRegs rlist ++ if r then [PC] else []

/-- The number of set bits among all eight bits of the list (R151). -/
def popcount (rlist : BitVec 8) : Nat :=
  ([0, 1, 2, 3, 4, 5, 6, 7] : List Nat).foldr (fun i n => (rlist.getLsbD i).toNat + n) 0

/-- `count = popcount(rlist) + R` (R151). -/
def transferCount (r : Bool) (rlist : BitVec 8) : Nat := popcount rlist + r.toNat

/-- The stack pointer after a push, where its first word goes (R152). -/
def pushBase (s : State) (r : Bool) (rlist : BitVec 8) : Word :=
  s.readReg SP - 4 * BitVec.ofNat 32 (transferCount r rlist)

/-- The target of a taken conditional branch (R155). -/
def branchTarget (s : State) (imm8 : BitVec 8) : Word := s.pcRead + sext imm8 * 2

/-- The partial target of long-branch step 1 (R173). -/
def longBranchBase (s : State) (imm11 : BitVec 11) : Word := s.pcRead + (sext imm11 <<< 12)

/-- The target of long-branch step 2 (R174). -/
def longBranchTarget (s : State) (imm11 : BitVec 11) : Word := s.readReg LR + (zext imm11 <<< 1)

/-- The return address of long-branch step 2 (R174). -/
def longBranchReturn (s : State) : Word := (s.pcRead - 2) ||| 1

end Sys2Proof.Machine
end

