-- ==== Sys2Proof/Machine/Immediate.lean ====
section
/-!
DEFINITION. Formats 1, 2 and 3 (41_shift_addsub_imm.md).
-/

namespace Sys2Proof.Machine

/-- A shift's result: C is the carry-out, N and Z come from the result, V stays (R97). -/
def shiftResult (s : State) (rd : LowReg) (p : Word × Bool) : StepResult :=
  .next ((s.setFlags ((s.flags.setC p.2).setNZ p.1)).writeReg (low rd) p.1)

/-- A result with its flag set written to a low register. -/
def arithResult (s : State) (rd : LowReg) (p : Word × Flags) : StepResult :=
  .next ((s.setFlags p.2).writeReg (low rd) p.1)

/-- A flag set whose result is discarded. -/
def compareResult (s : State) (p : Word × Flags) : StepResult := .next (s.setFlags p.2)

/-- `LSL Rd, Rs, #imm5` (R97). -/
def execLslImm (imm5 : BitVec 5) (rs rd : LowReg) (s : State) : StepResult :=
  shiftResult s rd (lslC (s.readReg (low rs)) imm5.toNat s.flags.c)

/-- `LSR Rd, Rs, #imm5` (R98). -/
def execLsrImm (imm5 : BitVec 5) (rs rd : LowReg) (s : State) : StepResult :=
  shiftResult s rd (lsrC (s.readReg (low rs)) (rightAmount imm5.toNat))

/-- `ASR Rd, Rs, #imm5` (R99). -/
def execAsrImm (imm5 : BitVec 5) (rs rd : LowReg) (s : State) : StepResult :=
  shiftResult s rd (asrC (s.readReg (low rs)) (rightAmount imm5.toNat))

/-- `ADD Rd, Rs, Rn` (R100). -/
def execAddReg (rn rs rd : LowReg) (s : State) : StepResult :=
  arithResult s rd (addFlags s.flags (s.readReg (low rs)) (s.readReg (low rn)))

/-- `SUB Rd, Rs, Rn` (R101). -/
def execSubReg (rn rs rd : LowReg) (s : State) : StepResult :=
  arithResult s rd (subFlags s.flags (s.readReg (low rs)) (s.readReg (low rn)))

/-- `ADD Rd, Rs, #imm3` (R102). -/
def execAddImm3 (imm3 : BitVec 3) (rs rd : LowReg) (s : State) : StepResult :=
  arithResult s rd (addFlags s.flags (s.readReg (low rs)) (zext imm3))

/-- `SUB Rd, Rs, #imm3` (R103). -/
def execSubImm3 (imm3 : BitVec 3) (rs rd : LowReg) (s : State) : StepResult :=
  arithResult s rd (subFlags s.flags (s.readReg (low rs)) (zext imm3))

/-- `MOV Rd, #imm8` (R104): C and V stay. -/
def execMovImm8 (rd : LowReg) (imm8 : BitVec 8) (s : State) : StepResult :=
  arithResult s rd (zext imm8, s.flags.setNZ (zext imm8))

/-- `CMP Rd, #imm8` (R105). -/
def execCmpImm8 (rd : LowReg) (imm8 : BitVec 8) (s : State) : StepResult :=
  compareResult s (subFlags s.flags (s.readReg (low rd)) (zext imm8))

/-- `ADD Rd, #imm8` (R106). -/
def execAddImm8 (rd : LowReg) (imm8 : BitVec 8) (s : State) : StepResult :=
  arithResult s rd (addFlags s.flags (s.readReg (low rd)) (zext imm8))

/-- `SUB Rd, #imm8` (R107). -/
def execSubImm8 (rd : LowReg) (imm8 : BitVec 8) (s : State) : StepResult :=
  arithResult s rd (subFlags s.flags (s.readReg (low rd)) (zext imm8))

end Sys2Proof.Machine
end

