-- ==== Sys2Proof/Machine/Alu.lean ====
section
/-!
DEFINITION. Format 4, the 16 register ALU operations (42_alu_register.md).
-/

namespace Sys2Proof.Machine

/-- A logical or multiply result: N and Z from it, C and V stay (R108). -/
def logicResult (s : State) (rd : LowReg) (res : Word) : StepResult := arithResult s rd (res, s.flags.setNZ res)

/-- `AND Rd, Rs` (R110). -/
def execAnd (rs rd : LowReg) (s : State) : StepResult :=
  logicResult s rd (s.readReg (low rd) &&& s.readReg (low rs))

/-- `EOR Rd, Rs` (R111). -/
def execEor (rs rd : LowReg) (s : State) : StepResult :=
  logicResult s rd (s.readReg (low rd) ^^^ s.readReg (low rs))

/-- `LSL Rd, Rs` (R112). -/
def execLslReg (rs rd : LowReg) (s : State) : StepResult :=
  shiftResult s rd (lslC (s.readReg (low rd)) (shiftCount s rs) s.flags.c)

/-- `LSR Rd, Rs` (R113). -/
def execLsrReg (rs rd : LowReg) (s : State) : StepResult :=
  shiftResult s rd (lsrC (s.readReg (low rd)) (rightAmount (shiftCount s rs)))

/-- `ASR Rd, Rs` (R114). -/
def execAsrReg (rs rd : LowReg) (s : State) : StepResult :=
  shiftResult s rd (asrC (s.readReg (low rd)) (rightAmount (shiftCount s rs)))

/-- `ADC Rd, Rs` (R115): C and V from the carry-less sum, N and Z from the result with the carry at entry added. -/
def execAdc (rs rd : LowReg) (s : State) : StepResult :=
  let p := addFlags s.flags (s.readReg (low rd)) (s.readReg (low rs))
  let res := p.1 + s.flags.carry
  arithResult s rd (res, p.2.setNZ res)

/-- `SBC Rd, Rs` (R116): C and V from the carry-less difference, N and Z from the result with the carry at entry
subtracted. -/
def execSbc (rs rd : LowReg) (s : State) : StepResult :=
  let p := subFlags s.flags (s.readReg (low rd)) (s.readReg (low rs))
  let res := p.1 - s.flags.carry
  arithResult s rd (res, p.2.setNZ res)

/-- `ROR Rd, Rs` (R117). -/
def execRor (rs rd : LowReg) (s : State) : StepResult :=
  shiftResult s rd (rorC (s.readReg (low rd)) (shiftCount s rs) s.flags.c)

/-- `TST Rd, Rs` (R118). -/
def execTst (rs rd : LowReg) (s : State) : StepResult :=
  let res := s.readReg (low rd) &&& s.readReg (low rs)
  compareResult s (res, s.flags.setNZ res)

/-- `NEG Rd, Rs` (R119): C is forced to 1. -/
def execNeg (rs rd : LowReg) (s : State) : StepResult :=
  let b := s.readReg (low rs)
  let res := 0 - b
  arithResult s rd (res, ((s.flags.setC true).setVSub 0 b res).setNZ res)

/-- `CMP Rd, Rs` (R120). -/
def execCmpReg (rs rd : LowReg) (s : State) : StepResult :=
  compareResult s (subFlags s.flags (s.readReg (low rd)) (s.readReg (low rs)))

/-- `CMN Rd, Rs` (R121). -/
def execCmn (rs rd : LowReg) (s : State) : StepResult :=
  compareResult s (addFlags s.flags (s.readReg (low rd)) (s.readReg (low rs)))

/-- `ORR Rd, Rs` (R122). -/
def execOrr (rs rd : LowReg) (s : State) : StepResult :=
  logicResult s rd (s.readReg (low rd) ||| s.readReg (low rs))

/-- `MUL Rd, Rs` (R123): the low 32 bits of the product. -/
def execMul (rs rd : LowReg) (s : State) : StepResult :=
  logicResult s rd (s.readReg (low rd) * s.readReg (low rs))

/-- `BIC Rd, Rs` (R124). -/
def execBic (rs rd : LowReg) (s : State) : StepResult :=
  logicResult s rd (s.readReg (low rd) &&& ~~~ s.readReg (low rs))

/-- `MVN Rd, Rs` (R125). -/
def execMvn (rs rd : LowReg) (s : State) : StepResult :=
  logicResult s rd (~~~ s.readReg (low rs))

end Sys2Proof.Machine
end

