-- ==== Sys2Proof/Machine/CondBranch.lean ====
section
/-!
DEFINITION. Format 16, the 14 conditional branches (46_branches.md R155 to R170).
-/

namespace Sys2Proof.Machine

/-- The one behaviour of Format 16 (R155): on a true condition the target is the pending PC; otherwise no effect. -/
def branchIf (cond : Cond) (imm8 : BitVec 8) (s : State) : StepResult :=
  if condPassed cond s.flags then .next (s.setPending (branchTarget s imm8)) else .next s

/-- `BEQ label` (R156). -/
def execBeq (imm8 : BitVec 8) (s : State) : StepResult := branchIf .eq imm8 s

/-- `BNE label` (R157). -/
def execBne (imm8 : BitVec 8) (s : State) : StepResult := branchIf .ne imm8 s

/-- `BCS label` (R158). -/
def execBcs (imm8 : BitVec 8) (s : State) : StepResult := branchIf .cs imm8 s

/-- `BCC label` (R159). -/
def execBcc (imm8 : BitVec 8) (s : State) : StepResult := branchIf .cc imm8 s

/-- `BMI label` (R160). -/
def execBmi (imm8 : BitVec 8) (s : State) : StepResult := branchIf .mi imm8 s

/-- `BPL label` (R161). -/
def execBpl (imm8 : BitVec 8) (s : State) : StepResult := branchIf .pl imm8 s

/-- `BVS label` (R162). -/
def execBvs (imm8 : BitVec 8) (s : State) : StepResult := branchIf .vs imm8 s

/-- `BVC label` (R163). -/
def execBvc (imm8 : BitVec 8) (s : State) : StepResult := branchIf .vc imm8 s

/-- `BHI label` (R164). -/
def execBhi (imm8 : BitVec 8) (s : State) : StepResult := branchIf .hi imm8 s

/-- `BLS label` (R165). -/
def execBls (imm8 : BitVec 8) (s : State) : StepResult := branchIf .ls imm8 s

/-- `BGE label` (R166). -/
def execBge (imm8 : BitVec 8) (s : State) : StepResult := branchIf .ge imm8 s

/-- `BLT label` (R167). -/
def execBlt (imm8 : BitVec 8) (s : State) : StepResult := branchIf .lt imm8 s

/-- `BGT label` (R168). -/
def execBgt (imm8 : BitVec 8) (s : State) : StepResult := branchIf .gt imm8 s

/-- `BLE label` (R169). -/
def execBle (imm8 : BitVec 8) (s : State) : StepResult := branchIf .le imm8 s

end Sys2Proof.Machine
end

