-- ==== Sys2Proof/Machine/HiReg.lean ====
section
/-!
DEFINITION. Format 5, the hi-register operations and branch-exchange (43_hi_register_bx.md).
-/

namespace Sys2Proof.Machine

/-- Branch-exchange to a value (R131): an odd value is the pending PC as it stands; an even value clears T and is
rounded down to a multiple of 4. -/
def branchExchange (s : State) (target : Word) : StepResult :=
  if target.getLsbD 0 then .next (s.setPending target)
  else .next ((s.setT false).setPending (target &&& 0xFFFFFFFC))

/-- `ADD Rd, Rs` (hi, R128): no flags. -/
def execAddHi (rs rd : Reg) (s : State) : StepResult := .next (s.writeReg rd (s.readReg rd + s.readReg rs))

/-- `CMP Rd, Rs` (hi, R129). -/
def execCmpHi (rs rd : Reg) (s : State) : StepResult :=
  compareResult s (subFlags s.flags (s.readReg rd) (s.readReg rs))

/-- `MOV Rd, Rs` (hi, R130): no flags. -/
def execMovHi (rs rd : Reg) (s : State) : StepResult := .next (s.writeReg rd (s.readReg rs))

/-- `BX Rs` (R131). -/
def execBx (rs : Reg) (s : State) : StepResult := branchExchange s (s.readReg rs)

/-- `BLX Rs` (R132): the target is read before LR is written; LR is `pc_read - 2`, bit 0 not set. -/
def execBlxReg (rs : Reg) (s : State) : StepResult :=
  branchExchange (s.writeReg LR (s.pcRead - 2)) (s.readReg rs)

end Sys2Proof.Machine
end

