-- ==== Sys2Proof/Machine/Invalid.lean ====
section
/-!
DEFINITION. The words that raise the invalid-opcode signal (30_encoding.md R76, R77; 60_exceptions.md R179).
-/

namespace Sys2Proof.Machine

/-- High byte `1001 xxxx`: no format (R76). -/
def execInvalid9000 (word : Half) (s : State) : StepResult := raiseInvalid word .noFormat s

/-- High byte `1010 xxxx`: no format (R76). -/
def execInvalidA000 (word : Half) (s : State) : StepResult := raiseInvalid word .noFormat s

/-- High byte `1011 x00x`: no format (R76). -/
def execInvalidB000 (word : Half) (s : State) : StepResult := raiseInvalid word .noFormat s

/-- High byte `1011 x01x`: no format (R76). -/
def execInvalidB200 (word : Half) (s : State) : StepResult := raiseInvalid word .noFormat s

/-- High byte `1011 x11x`: no format (R76). -/
def execInvalidB600 (word : Half) (s : State) : StepResult := raiseInvalid word .noFormat s

/-- High byte `1100 xxxx`: no format (R76). -/
def execInvalidC000 (word : Half) (s : State) : StepResult := raiseInvalid word .noFormat s

/-- High byte `1110 0xxx`: no format (R76). -/
def execInvalidE000 (word : Half) (s : State) : StepResult := raiseInvalid word .noFormat s

/-- Format 16 with condition field 14 (R171). -/
def execInvalidCond14 (word : Half) (s : State) : StepResult := raiseInvalid word .reservedCondition s

/-- Format 16 with condition field 15, the software interrupt, which the block does not implement (R172). -/
def execInvalidSwi (word : Half) (s : State) : StepResult := raiseInvalid word .unimplementedSwi s

end Sys2Proof.Machine
end

