-- ==== Sys2Proof/Machine/LoadStore.lean ====
section
/-!
DEFINITION. Formats 6 to 10, the loads and stores (44_load_store.md). The address is formed before anything is written,
and each instruction makes one bus request (R133).
-/

namespace Sys2Proof.Machine

/-- A word load (R46). -/
def loadWord (s : State) (rd : LowReg) (ea : Word) : StepResult :=
  let (v, s1) := s.memReadWord ea
  .next (s1.writeReg (low rd) v)

/-- A halfword load, widened by `widen` (R47). -/
def loadHalf (widen : Half → Word) (s : State) (rd : LowReg) (ea : Word) : StepResult :=
  let (v, s1) := s.memReadHalf ea
  .next (s1.writeReg (low rd) (widen v))

/-- A byte load, widened by `widen` (R47). -/
def loadByte (widen : Byte → Word) (s : State) (rd : LowReg) (ea : Word) : StepResult :=
  let (v, s1) := s.memReadByte ea
  .next (s1.writeReg (low rd) (widen v))

/-- A word store (R46). -/
def storeWord (s : State) (rd : LowReg) (ea : Word) : StepResult := .next (s.memWriteWord ea (s.readReg (low rd)))

/-- A halfword store: bits 15:0 of the register (R48). -/
def storeHalf (s : State) (rd : LowReg) (ea : Word) : StepResult :=
  .next (s.memWriteHalf ea ((s.readReg (low rd)).extractLsb' 0 16))

/-- A byte store: bits 7:0 of the register (R48). -/
def storeByte (s : State) (rd : LowReg) (ea : Word) : StepResult :=
  .next (s.memWriteByte ea ((s.readReg (low rd)).extractLsb' 0 8))

/-- `LDR Rd, [PC, #off]` (R134). -/
def execLdrPc (rd : LowReg) (imm8 : BitVec 8) (s : State) : StepResult := loadWord s rd (pcRelAddr s imm8)

/-- `STR Rd, [Rb, Ro]` (R135). -/
def execStrReg (ro rb rd : LowReg) (s : State) : StepResult := storeWord s rd (regAddr s ro rb)

/-- `STRB Rd, [Rb, Ro]` (R136). -/
def execStrbReg (ro rb rd : LowReg) (s : State) : StepResult := storeByte s rd (regAddr s ro rb)

/-- `LDR Rd, [Rb, Ro]` (R137). -/
def execLdrReg (ro rb rd : LowReg) (s : State) : StepResult := loadWord s rd (regAddr s ro rb)

/-- `LDRB Rd, [Rb, Ro]` (R138). -/
def execLdrbReg (ro rb rd : LowReg) (s : State) : StepResult := loadByte zext s rd (regAddr s ro rb)

/-- `STRH Rd, [Rb, Ro]` (R139). -/
def execStrhReg (ro rb rd : LowReg) (s : State) : StepResult := storeHalf s rd (regAddr s ro rb)

/-- `LDSB Rd, [Rb, Ro]` (R140). -/
def execLdsbReg (ro rb rd : LowReg) (s : State) : StepResult := loadByte sext s rd (regAddr s ro rb)

/-- `LDRH Rd, [Rb, Ro]` (R141). -/
def execLdrhReg (ro rb rd : LowReg) (s : State) : StepResult := loadHalf zext s rd (regAddr s ro rb)

/-- `LDSH Rd, [Rb, Ro]` (R142). -/
def execLdshReg (ro rb rd : LowReg) (s : State) : StepResult := loadHalf sext s rd (regAddr s ro rb)

/-- `STR Rd, [Rb, #off]` (R143). -/
def execStrImm (imm5 : BitVec 5) (rb rd : LowReg) (s : State) : StepResult := storeWord s rd (immAddr s imm5 4 rb)

/-- `LDR Rd, [Rb, #off]` (R144). -/
def execLdrImm (imm5 : BitVec 5) (rb rd : LowReg) (s : State) : StepResult := loadWord s rd (immAddr s imm5 4 rb)

/-- `STRB Rd, [Rb, #off]` (R145). -/
def execStrbImm (imm5 : BitVec 5) (rb rd : LowReg) (s : State) : StepResult := storeByte s rd (immAddr s imm5 1 rb)

/-- `LDRB Rd, [Rb, #off]` (R146). -/
def execLdrbImm (imm5 : BitVec 5) (rb rd : LowReg) (s : State) : StepResult :=
  loadByte zext s rd (immAddr s imm5 1 rb)

/-- `STRH Rd, [Rb, #off]` (R147). -/
def execStrhImm (imm5 : BitVec 5) (rb rd : LowReg) (s : State) : StepResult := storeHalf s rd (immAddr s imm5 2 rb)

/-- `LDRH Rd, [Rb, #off]` (R148). -/
def execLdrhImm (imm5 : BitVec 5) (rb rd : LowReg) (s : State) : StepResult :=
  loadHalf zext s rd (immAddr s imm5 2 rb)

end Sys2Proof.Machine
end

