-- ==== Sys2Proof/Machine/LongBranch.lean ====
section
/-!
DEFINITION. Format 19, the long branch with link (46_branches.md R173 to R177). Each half is an instruction of its own
and acts on the LR it finds (R176).
-/

namespace Sys2Proof.Machine

/-- The common part of step 2: the target read from the old LR, the return address written to LR, the target pending
(R174, R175). -/
def longBranchStep2 (imm11 : BitVec 11) (s : State) : State :=
  (s.writeReg LR (longBranchReturn s)).setPending (longBranchTarget s imm11)

/-- `BL` / `BLX` step 1 (R173). -/
def execBlHi (imm11 : BitVec 11) (s : State) : StepResult := .next (s.writeReg LR (longBranchBase s imm11))

/-- `BL` step 2 (R174). -/
def execBlLo (imm11 : BitVec 11) (s : State) : StepResult := .next (longBranchStep2 imm11 s)

/-- `BLX` step 2 (R175): T is cleared and the target is not aligned. -/
def execBlxLo (imm11 : BitVec 11) (s : State) : StepResult := .next ((longBranchStep2 imm11 s).setT false)

end Sys2Proof.Machine
end

