-- ==== Sys2Proof/Machine/PushPop.lean ====
section
/-!
DEFINITION. Format 14, push and pop (45_push_pop.md).
-/

namespace Sys2Proof.Machine

/-- Store registers at rising addresses from `a` (R152). -/
def storeRegs : List Reg → Word → State → State
  | [], _, s => s
  | r :: rs, a, s => storeRegs rs (a + 4) (s.memWriteWord a (s.readReg r))

/-- Load registers from rising addresses from `a`; the address after the last word and the state (R153). -/
def loadRegs : List Reg → Word → State → Word × State
  | [], a, s => (a, s)
  | r :: rs, a, s =>
    let (v, s1) := s.memReadWord a
    loadRegs rs (a + 4) (s1.writeReg r v)

/-- `PUSH {rlist}` / `PUSH {rlist, LR}` (R152): SP is lowered before any store. -/
def execPush (r : Bool) (rlist : BitVec 8) (s : State) : StepResult :=
  let sp := pushBase s r rlist
  .next (storeRegs (pushRegs r rlist) sp (s.writeReg SP sp))

/-- `POP {rlist}` / `POP {rlist, PC}` (R153): SP is raised after all loads; T stays. -/
def execPop (r : Bool) (rlist : BitVec 8) (s : State) : StepResult :=
  let (a, s1) := loadRegs (popRegs r rlist) (s.readReg SP) s
  .next (s1.writeReg SP a)

end Sys2Proof.Machine
end

