-- ==== Sys2Proof/Machine/Dispatch.lean ====
section
/-!
DEFINITION. The meaning of every instruction: one arm per constructor.
-/

namespace Sys2Proof.Machine

/-- One instruction's effects on the state (10_state.md R31). -/
def exec (i : Instr) (s : State) : Host.Outcome State Fault Refusal :=
  match i with
  | .lslImm imm5 rs rd => Sys2Proof.Machine.execLslImm imm5 rs rd s
  | .lsrImm imm5 rs rd => Sys2Proof.Machine.execLsrImm imm5 rs rd s
  | .asrImm imm5 rs rd => Sys2Proof.Machine.execAsrImm imm5 rs rd s
  | .addReg rn rs rd => Sys2Proof.Machine.execAddReg rn rs rd s
  | .subReg rn rs rd => Sys2Proof.Machine.execSubReg rn rs rd s
  | .addImm3 imm3 rs rd => Sys2Proof.Machine.execAddImm3 imm3 rs rd s
  | .subImm3 imm3 rs rd => Sys2Proof.Machine.execSubImm3 imm3 rs rd s
  | .movImm8 rd imm8 => Sys2Proof.Machine.execMovImm8 rd imm8 s
  | .cmpImm8 rd imm8 => Sys2Proof.Machine.execCmpImm8 rd imm8 s
  | .addImm8 rd imm8 => Sys2Proof.Machine.execAddImm8 rd imm8 s
  | .subImm8 rd imm8 => Sys2Proof.Machine.execSubImm8 rd imm8 s
  | .and rs rd => Sys2Proof.Machine.execAnd rs rd s
  | .eor rs rd => Sys2Proof.Machine.execEor rs rd s
  | .lslReg rs rd => Sys2Proof.Machine.execLslReg rs rd s
  | .lsrReg rs rd => Sys2Proof.Machine.execLsrReg rs rd s
  | .asrReg rs rd => Sys2Proof.Machine.execAsrReg rs rd s
  | .adc rs rd => Sys2Proof.Machine.execAdc rs rd s
  | .sbc rs rd => Sys2Proof.Machine.execSbc rs rd s
  | .ror rs rd => Sys2Proof.Machine.execRor rs rd s
  | .tst rs rd => Sys2Proof.Machine.execTst rs rd s
  | .neg rs rd => Sys2Proof.Machine.execNeg rs rd s
  | .cmpReg rs rd => Sys2Proof.Machine.execCmpReg rs rd s
  | .cmn rs rd => Sys2Proof.Machine.execCmn rs rd s
  | .orr rs rd => Sys2Proof.Machine.execOrr rs rd s
  | .mul rs rd => Sys2Proof.Machine.execMul rs rd s
  | .bic rs rd => Sys2Proof.Machine.execBic rs rd s
  | .mvn rs rd => Sys2Proof.Machine.execMvn rs rd s
  | .addHi rs rd => Sys2Proof.Machine.execAddHi rs rd s
  | .cmpHi rs rd => Sys2Proof.Machine.execCmpHi rs rd s
  | .movHi rs rd => Sys2Proof.Machine.execMovHi rs rd s
  | .bx rs _ => Sys2Proof.Machine.execBx rs s
  | .blxReg rs _ => Sys2Proof.Machine.execBlxReg rs s
  | .ldrPc rd imm8 => Sys2Proof.Machine.execLdrPc rd imm8 s
  | .strReg ro rb rd => Sys2Proof.Machine.execStrReg ro rb rd s
  | .strhReg ro rb rd => Sys2Proof.Machine.execStrhReg ro rb rd s
  | .strbReg ro rb rd => Sys2Proof.Machine.execStrbReg ro rb rd s
  | .ldsbReg ro rb rd => Sys2Proof.Machine.execLdsbReg ro rb rd s
  | .ldrReg ro rb rd => Sys2Proof.Machine.execLdrReg ro rb rd s
  | .ldrhReg ro rb rd => Sys2Proof.Machine.execLdrhReg ro rb rd s
  | .ldrbReg ro rb rd => Sys2Proof.Machine.execLdrbReg ro rb rd s
  | .ldshReg ro rb rd => Sys2Proof.Machine.execLdshReg ro rb rd s
  | .strImm imm5 rb rd => Sys2Proof.Machine.execStrImm imm5 rb rd s
  | .ldrImm imm5 rb rd => Sys2Proof.Machine.execLdrImm imm5 rb rd s
  | .strbImm imm5 rb rd => Sys2Proof.Machine.execStrbImm imm5 rb rd s
  | .ldrbImm imm5 rb rd => Sys2Proof.Machine.execLdrbImm imm5 rb rd s
  | .strhImm imm5 rb rd => Sys2Proof.Machine.execStrhImm imm5 rb rd s
  | .ldrhImm imm5 rb rd => Sys2Proof.Machine.execLdrhImm imm5 rb rd s
  | .push r rlist => Sys2Proof.Machine.execPush r rlist s
  | .pop r rlist => Sys2Proof.Machine.execPop r rlist s
  | .beq imm8 => Sys2Proof.Machine.execBeq imm8 s
  | .bne imm8 => Sys2Proof.Machine.execBne imm8 s
  | .bcs imm8 => Sys2Proof.Machine.execBcs imm8 s
  | .bcc imm8 => Sys2Proof.Machine.execBcc imm8 s
  | .bmi imm8 => Sys2Proof.Machine.execBmi imm8 s
  | .bpl imm8 => Sys2Proof.Machine.execBpl imm8 s
  | .bvs imm8 => Sys2Proof.Machine.execBvs imm8 s
  | .bvc imm8 => Sys2Proof.Machine.execBvc imm8 s
  | .bhi imm8 => Sys2Proof.Machine.execBhi imm8 s
  | .bls imm8 => Sys2Proof.Machine.execBls imm8 s
  | .bge imm8 => Sys2Proof.Machine.execBge imm8 s
  | .blt imm8 => Sys2Proof.Machine.execBlt imm8 s
  | .bgt imm8 => Sys2Proof.Machine.execBgt imm8 s
  | .ble imm8 => Sys2Proof.Machine.execBle imm8 s
  | .blHi imm11 => Sys2Proof.Machine.execBlHi imm11 s
  | .blLo imm11 => Sys2Proof.Machine.execBlLo imm11 s
  | .blxLo imm11 => Sys2Proof.Machine.execBlxLo imm11 s
  | .invalid9000 word => Sys2Proof.Machine.execInvalid9000 word s
  | .invalidA000 word => Sys2Proof.Machine.execInvalidA000 word s
  | .invalidB000 word => Sys2Proof.Machine.execInvalidB000 word s
  | .invalidB200 word => Sys2Proof.Machine.execInvalidB200 word s
  | .invalidB600 word => Sys2Proof.Machine.execInvalidB600 word s
  | .invalidC000 word => Sys2Proof.Machine.execInvalidC000 word s
  | .invalidE000 word => Sys2Proof.Machine.execInvalidE000 word s
  | .invalidCond14 word => Sys2Proof.Machine.execInvalidCond14 word s
  | .invalidSwi word => Sys2Proof.Machine.execInvalidSwi word s

end Sys2Proof.Machine
end

