-- ==== Sys2Proof/Machine/Fetch.lean ====
section
/-!
DEFINITION. The block's step entry point (10_state.md R31 to R33), the reference fetch loop REF-FETCH (R35), and the
load of one instruction where the loop fetches next.
-/

namespace Sys2Proof.Machine

/-- The preconditions of a step that the caller owes (R32): T = 1, `ia` even, the default pending PC set. -/
def State.stepReady (s : State) : Bool :=
  s.t && !s.pcRead.getLsbD 0 && s.pcPending == s.pcRead - 2

/-- The single-step entry point: one instruction word, executed whole or reported invalid (R31, R33). Outside the
preconditions the step has no meaning (R32, decision D1). -/
def blockStep (w : Half) (s : State) : StepResult :=
  if s.stepReady then exec (decodeWord w) s else .refused .stepPrecondition

/-- Where the loop fetches next: `pc_pending & 0xFFFFFFFE` (R20, R35). -/
def State.fetchAddr (s : State) : Word := s.pcPending &&& 0xFFFFFFFE

/-- A new draw of the free value of unmapped addresses (R42). -/
def State.nextDraw (s : State) : State := { s with draw := s.draw + 1 }

/-- The halfword the loop fetches: `MemRead(ia, 2)` on the bus of the data accesses, at the moment of the fetch
(20_memory.md R55, R56). -/
def State.fetchWord (s : State) : Half := s.nextDraw.halfAt s.fetchAddr

/-- The state the loop hands to the block: `pc_read` is `ia + 4`, `pc_pending` is `ia + 2` (R19, R35), the block has made no
request yet, and the devices have seen the fetch, one `readHalf` on the same bus (20_memory.md R55). -/
def State.beginStep (s : State) : State :=
  { s.nextDraw.nextDraw with
    pcRead := s.fetchAddr + 4, pcPending := s.fetchAddr + 2, busOps := [],
    busState := s.busAfter (.readHalf s.fetchAddr s.fetchWord) }

/-- One turn of the reference fetch loop, without `END` (R35). -/
def fetchStep (s : State) : StepResult :=
  if s.t then blockStep s.fetchWord s.beginStep else .refused .leftCompactMode

/-- Why REF-FETCH stops (R35). -/
inductive RefStop where
  | leftCompactMode
  | fault (f : Fault)
  | ended
  | refused (r : Refusal)
  deriving DecidableEq, Repr

/-- REF-FETCH after a number of turns: still running, or stopped with the state R35 calls the state "at the end". -/
inductive RefRun where
  | running (s : State)
  | stopped (why : RefStop) (s : State)
  deriving DecidableEq, Repr

/-- At most `fuel` turns of REF-FETCH with the optional stop address `END` (R35). A fault leaves the state the block was
given, which the block has not changed (60_exceptions.md R180, R185). -/
def refFetch (stopAt : Option Word) : Nat → State → RefRun
  | 0, s => .running s
  | fuel + 1, s =>
    if !s.t then .stopped .leftCompactMode s
    else if stopAt = some s.fetchAddr then .stopped .ended s
    else
      match blockStep s.fetchWord s.beginStep with
      | .next s1 => refFetch stopAt fuel s1
      | .fault f => .stopped (.fault f) s.beginStep
      | .refused r => .stopped (.refused r) s.beginStep

/-- REF-FETCH from an entry address (R35). -/
def refFetchFrom (entry : Word) (stopAt : Option Word) (fuel : Nat) (s : State) : RefRun :=
  refFetch stopAt fuel (s.setPending entry)

/-- Put one byte into a cell from outside the machine, whatever the map allows the block (a loader, R193). -/
def State.loadCell (s : State) (k : Nat) (v : Byte) : State := { s with mem := s.mem.set k v }

/-- Load a halfword where the loop fetches next. If the map gives the two bytes no two cells of
their own (one is unmapped or external, or they are mirrors), the map becomes
the reference map, in which each address is its own cell. -/
def State.loadFetchWord (s : State) (w : Half) : State :=
  match s.cellAt s.fetchAddr, s.cellAt (s.fetchAddr + 1) with
  | some k0, some k1 =>
    if k0 = k1 then
      (({ s with memMap := referenceMap }).loadCell s.fetchAddr.toNat (w.extractLsb' 0 8)).loadCell
        (s.fetchAddr + 1).toNat (w.extractLsb' 8 8)
    else (s.loadCell k0 (w.extractLsb' 0 8)).loadCell k1 (w.extractLsb' 8 8)
  | _, _ =>
    (({ s with memMap := referenceMap }).loadCell s.fetchAddr.toNat (w.extractLsb' 0 8)).loadCell
      (s.fetchAddr + 1).toNat (w.extractLsb' 8 8)

end Sys2Proof.Machine
end

