-- ==== Sys2Proof/Machine/Step.lean ====
section
/-!
DEFINITION. The step of the machine, and the load of one instruction that the host's checks use.
-/

namespace Sys2Proof.Machine

/-- One step: one turn of the reference fetch loop (10_state.md R35). -/
def step : State → Host.Outcome State Fault Refusal := fetchStep

/-- The state with the instruction word `w` (bits above `nbits` are 0) where the next step fetches, and T = 1 so that the
next step does fetch (log entry 15). -/
def State.withFetchWord (s : State) (nbits w : Nat) : State :=
  (s.setT true).loadFetchWord (BitVec.ofNat 16 (w % 2 ^ nbits))

end Sys2Proof.Machine
end

