-- ==== Sys2Proof/Safety.lean ====
section
/-!
DEFINITION. The terms the claims use: what a step keeps, what it may write (the tables of the spec, written apart from the
meanings), the invariant of the machine, and a safe run.
-/

namespace Sys2Proof

open Sys2Proof.Machine

/-! ### What two states share -/

/-- Every register outside `dst` reads as before; register 15 reads `pc_read` (R16). -/
def RegsKept (s t : State) (dst : List Reg) : Prop := ∀ r, r ∉ dst → t.readReg r = s.readReg r

/-- `pc_read`, `pc_pending` and T are as before. -/
def FlowKept (s t : State) : Prop := t.pcRead = s.pcRead ∧ t.pcPending = s.pcPending ∧ t.t = s.t

/-- An address answers as before only if its devices do: in an external region the answer is `Bus`'s, a function of the
device state (R42, D18). -/
def AnswersKept (s t : State) (a : Word) : Prop := s.externalAt a = true → t.busState = s.busState

/-- Every byte of memory reads as before, and the map and the draw are as before. -/
def BytesKept (s t : State) : Prop :=
  (∀ a, AnswersKept s t a → t.byteAt a = s.byteAt a) ∧ t.memMap = s.memMap ∧ t.draw = s.draw

/-- No bus request was made, the devices are as before and every byte reads as before. -/
def NoBus (s t : State) : Prop := BytesKept s t ∧ t.busOps = s.busOps ∧ t.busState = s.busState

/-- Only the registers `dst` (and perhaps the flags) differ: no flow, no memory, no bus request. -/
def OnlyRegs (s t : State) (dst : List Reg) : Prop := RegsKept s t dst ∧ FlowKept s t ∧ NoBus s t

/-- Two addresses behind which the map puts one cell of plain memory: one address, or mirrors of it (R38). -/
def SameCell (s : State) (a b : Word) : Prop := ∃ k, s.cellAt a = some k ∧ s.cellAt b = some k

/-- Every byte reads as before but those of the stored addresses (and their mirrors); the map and the draw are as before. -/
def BytesKeptBut (s t : State) (stored : List Word) : Prop :=
  (∀ b, AnswersKept s t b → (∀ a ∈ stored, ¬ SameCell s a b) → t.byteAt b = s.byteAt b) ∧ t.memMap = s.memMap ∧
    t.draw = s.draw

/-- A region of plain memory maps the address, and not read-only. -/
def Writable (s : State) (a : Word) : Prop := ∃ r, s.regionAt a = some r ∧ r.readOnly = false ∧ r.external = false

/-- The `n` bytes from `a` are writable and each has a cell of its own. -/
def WritableSpan (s : State) (a : Word) (n : Nat) : Prop :=
  (∀ b ∈ span a n, Writable s b) ∧ (span a n).Pairwise fun b c => ¬ SameCell s b c

/-! ### Values and flags, in the spec's words -/

/-- N and Z describe the value (R81). -/
def NZof (f : Flags) (v : Word) : Prop := f.n = v.getLsbD 31 ∧ f.z = decide (v = 0)

/-- C is the unsigned carry out of bit 31 of `a + b` (R87), V says that the true signed sum does not fit (R83). -/
def CVofAdd (f : Flags) (a b : Word) : Prop :=
  f.c = decide (2 ^ 32 ≤ a.toNat + b.toNat) ∧
    f.v = decide (a.toInt + b.toInt < -2 ^ 31 ∨ 2 ^ 31 ≤ a.toInt + b.toInt)

/-- C is the source's literal `result <u subtrahend` (R88), V says that the true signed difference does not fit (R84). -/
def CVofSub (f : Flags) (a b : Word) : Prop :=
  f.c = decide ((a - b).toNat < b.toNat) ∧
    f.v = decide (a.toInt - b.toInt < -2 ^ 31 ∨ 2 ^ 31 ≤ a.toInt - b.toInt)

/-- `res` is `v` shifted left by `n`: bit `k` is bit `k - n`, vacated bits are 0 (R89, R90). -/
def IsLsl (res v : Word) (n : Nat) : Prop := ∀ k < 32, res.getLsbD k = (decide (n ≤ k) && v.getLsbD (k - n))

/-- `res` is `v` shifted right by `n`; a bit beyond 31 reads as 0 (R89, R91). -/
def IsLsr (res v : Word) (n : Nat) : Prop := ∀ k < 32, res.getLsbD k = v.getLsbD (k + n)

/-- `res` is `v` shifted right by `n`; a bit beyond 31 reads as bit 31 (R89, R92). -/
def IsAsr (res v : Word) (n : Nat) : Prop := ∀ k < 32, res.getLsbD k = v.getLsbD (min (k + n) 31)

/-- `res` is `v` rotated right by `n` (R93). -/
def IsRor (res v : Word) (n : Nat) : Prop := ∀ k < 32, res.getLsbD k = v.getLsbD ((k + n) % 32)

/-- The carry of a left shift: unchanged for 0, then bit `32 - n`, 0 beyond 32 (R90). -/
def lslCarry (v : Word) (n : Nat) (c : Bool) : Bool :=
  if n = 0 then c else if n ≤ 32 then v.getLsbD (32 - n) else false

/-- The carry of a rotate: unchanged for 0, else the last bit rotated out (R93). -/
def rorCarry (v : Word) (n : Nat) (c : Bool) : Bool := if n = 0 then c else v.getLsbD ((n - 1) % 32)

/-- A load of `v` into a low register with one bus request: nothing else changes (R133). -/
def LoadsAs (s t : State) (rd : LowReg) (op : BusOp) (v : Word) : Prop :=
  t.readReg (low rd) = v ∧ t.busOps = s.busOps ++ [op] ∧ RegsKept s t [low rd] ∧ t.flags = s.flags ∧
    FlowKept s t ∧ BytesKept s t

/-- A store of `n` bytes at `ea` with one bus request: no register, no flag and no other byte changes (R133). -/
def StoresAs (s t : State) (ea : Word) (n : Nat) (op : BusOp) : Prop :=
  t.busOps = s.busOps ++ [op] ∧ RegsKept s t [] ∧ t.flags = s.flags ∧ FlowKept s t ∧ BytesKeptBut s t (span ea n)

/-- The registers push and pop move, in order: the listed low registers from bit 0 up, then the ninth (R150). -/
def movedRegs (rlist : BitVec 8) (ninth : List Reg) : List Reg :=
  ((List.finRange 8).filter fun i => rlist.getLsbD i.val).map low ++ ninth

/-- The address of the `j`-th word from `a`. -/
def wordAddr (a : Word) (j : Nat) : Word := a + BitVec.ofNat 32 (4 * j)

/-- The device state after operations issued one after the other (R51). -/
def busStateAfter (s : State) (ops : List BusOp) : BusState :=
  ops.foldl (fun b op => { s with busState := b }.busAfter op) s.busState

/-- The device state after the first `j` of the word reads at rising addresses from `a` (R153). -/
def afterWordReads (s : State) (a : Word) : Nat → BusState
  | 0 => s.busState
  | j + 1 => { s with busState := afterWordReads s a j }.busAfter (.readWord (wordAddr a j) 0)

/-- The word the `j`-th of the word reads at rising addresses from `a` returns. On plain memory it is the word there. -/
def wordRead (s : State) (a : Word) (j : Nat) : Word :=
  { s with busState := afterWordReads s a j }.wordAt (wordAddr a j)

/-- The next fetch after `t` sees the `n` bytes stored at `ea`: each byte of the fetched halfword that is the `k`-th stored
byte has its value (R56). `Bus` answers a fetch that touches an external region, so there nothing is said. -/
def FetchSees (s t : State) (ea : Word) (n : Nat) (bytes : Nat → Byte) : Prop :=
  s.external s.fetchAddr 2 = false → ∀ p < 2, ∀ k < n,
    s.fetchAddr + BitVec.ofNat 32 p = ea + BitVec.ofNat 32 k → t.fetchWord.extractLsb' (8 * p) 8 = bytes k

/-- The state after a taken conditional branch: only `pc_pending` differs (R155). -/
def branched (s : State) (imm8 : BitVec 8) : State :=
  { s with pcPending := s.pcRead + BitVec.ofInt 32 (2 * imm8.toInt) }

/-- The rows of R170's truth table, NZCV from 0 to 15. -/
def truthRow : Cond → List Nat
  | .eq => [0, 0, 0, 0, 1, 1, 1, 1, 0, 0, 0, 0, 1, 1, 1, 1]
  | .ne => [1, 1, 1, 1, 0, 0, 0, 0, 1, 1, 1, 1, 0, 0, 0, 0]
  | .cs => [0, 0, 1, 1, 0, 0, 1, 1, 0, 0, 1, 1, 0, 0, 1, 1]
  | .cc => [1, 1, 0, 0, 1, 1, 0, 0, 1, 1, 0, 0, 1, 1, 0, 0]
  | .mi => [0, 0, 0, 0, 0, 0, 0, 0, 1, 1, 1, 1, 1, 1, 1, 1]
  | .pl => [1, 1, 1, 1, 1, 1, 1, 1, 0, 0, 0, 0, 0, 0, 0, 0]
  | .vs => [0, 1, 0, 1, 0, 1, 0, 1, 0, 1, 0, 1, 0, 1, 0, 1]
  | .vc => [1, 0, 1, 0, 1, 0, 1, 0, 1, 0, 1, 0, 1, 0, 1, 0]
  | .hi => [0, 0, 1, 1, 0, 0, 0, 0, 0, 0, 1, 1, 0, 0, 0, 0]
  | .ls => [1, 1, 0, 0, 1, 1, 1, 1, 1, 1, 0, 0, 1, 1, 1, 1]
  | .ge => [1, 0, 1, 0, 1, 0, 1, 0, 0, 1, 0, 1, 0, 1, 0, 1]
  | .lt => [0, 1, 0, 1, 0, 1, 0, 1, 1, 0, 1, 0, 1, 0, 1, 0]
  | .gt => [1, 0, 1, 0, 0, 0, 0, 0, 0, 1, 0, 1, 0, 0, 0, 0]
  | .le => [0, 1, 0, 1, 1, 1, 1, 1, 1, 0, 1, 0, 1, 1, 1, 1]

/-- NZCV read as a 4-bit number, N the 8 and V the 1 (R170). -/
def nzcv (f : Flags) : Nat := 8 * f.n.toNat + 4 * f.z.toNat + 2 * f.c.toNat + f.v.toNat

/-! ### The tables of the spec -/

/-- The mask and match columns of R60. -/
def formatMask : Format → Half × Half
  | .f1 => (0xE000, 0x0000)
  | .f2 => (0xF800, 0x1800)
  | .f3 => (0xE000, 0x2000)
  | .f4 => (0xFC00, 0x4000)
  | .f5 => (0xFC00, 0x4400)
  | .f6 => (0xF800, 0x4800)
  | .f7 => (0xF200, 0x5000)
  | .f8 => (0xF200, 0x5200)
  | .f9 => (0xE000, 0x6000)
  | .f10 => (0xF000, 0x8000)
  | .f14 => (0xF600, 0xB400)
  | .f16 => (0xF000, 0xD000)
  | .f19a => (0xF800, 0xF000)
  | .f19b => (0xE800, 0xE800)

/-- The reason R179's table gives each raising high byte, none for a high byte that raises nothing. -/
def reasonOfHighByte (hb : BitVec 8) : Option InvalidReason :=
  let h := hb.toNat
  if h = 0xDE then some .reservedCondition
  else if h = 0xDF then some .unimplementedSwi
  else if 0x90 ≤ h ∧ h ≤ 0xB3 then some .noFormat
  else if 0xB6 ≤ h ∧ h ≤ 0xBB then some .noFormat
  else if 0xBE ≤ h ∧ h ≤ 0xCF then some .noFormat
  else if 0xE0 ≤ h ∧ h ≤ 0xE7 then some .noFormat
  else none

/-- The registers an instruction writes: its destination, SP for push and pop (R152, R153), LR for the linking branches
(R132, R173 to R175). -/
def destRegs : Instr → List Reg
  | .lslImm _ _ rd | .lsrImm _ _ rd | .asrImm _ _ rd => [low rd]
  | .addReg _ _ rd | .subReg _ _ rd | .addImm3 _ _ rd | .subImm3 _ _ rd => [low rd]
  | .movImm8 rd _ | .addImm8 rd _ | .subImm8 rd _ => [low rd]
  | .cmpImm8 _ _ => []
  | .and _ rd | .eor _ rd | .lslReg _ rd | .lsrReg _ rd | .asrReg _ rd | .adc _ rd | .sbc _ rd | .ror _ rd => [low rd]
  | .neg _ rd | .orr _ rd | .mul _ rd | .bic _ rd | .mvn _ rd => [low rd]
  | .tst _ _ | .cmpReg _ _ | .cmn _ _ => []
  | .addHi _ rd | .movHi _ rd => [rd]
  | .cmpHi _ _ => []
  | .bx _ _ => []
  | .blxReg _ _ => [LR]
  | .ldrPc rd _ => [low rd]
  | .ldsbReg _ _ rd | .ldrReg _ _ rd | .ldrhReg _ _ rd | .ldrbReg _ _ rd | .ldshReg _ _ rd => [low rd]
  | .ldrImm _ _ rd | .ldrbImm _ _ rd | .ldrhImm _ _ rd => [low rd]
  | .strReg _ _ _ | .strhReg _ _ _ | .strbReg _ _ _ | .strImm _ _ _ | .strbImm _ _ _ | .strhImm _ _ _ => []
  | .push _ _ => [SP]
  | .pop _ rlist => SP :: listedRegs rlist
  | .beq _ | .bne _ | .bcs _ | .bcc _ | .bmi _ | .bpl _ | .bvs _ | .bvc _ => []
  | .bhi _ | .bls _ | .bge _ | .blt _ | .bgt _ | .ble _ => []
  | .blHi _ | .blLo _ | .blxLo _ => [LR]
  | .invalid9000 _ | .invalidA000 _ | .invalidB000 _ | .invalidB200 _ | .invalidB600 _ => []
  | .invalidC000 _ | .invalidE000 _ | .invalidCond14 _ | .invalidSwi _ => []

/-- The addresses of the bytes an instruction stores, by the function its meaning computes the address with (R46). -/
def storedBytes (s : State) : Instr → List Word
  | .strReg ro rb _ => span (regAddr s ro rb) 4
  | .strhReg ro rb _ => span (regAddr s ro rb) 2
  | .strbReg ro rb _ => span (regAddr s ro rb) 1
  | .strImm imm5 rb _ => span (immAddr s imm5 4 rb) 4
  | .strhImm imm5 rb _ => span (immAddr s imm5 2 rb) 2
  | .strbImm imm5 rb _ => span (immAddr s imm5 1 rb) 1
  | .push r rlist => span (pushBase s r rlist) (4 * transferCount r rlist)
  | .lslImm _ _ _ | .lsrImm _ _ _ | .asrImm _ _ _ => []
  | .addReg _ _ _ | .subReg _ _ _ | .addImm3 _ _ _ | .subImm3 _ _ _ => []
  | .movImm8 _ _ | .cmpImm8 _ _ | .addImm8 _ _ | .subImm8 _ _ => []
  | .and _ _ | .eor _ _ | .lslReg _ _ | .lsrReg _ _ | .asrReg _ _ | .adc _ _ | .sbc _ _ | .ror _ _ => []
  | .tst _ _ | .neg _ _ | .cmpReg _ _ | .cmn _ _ | .orr _ _ | .mul _ _ | .bic _ _ | .mvn _ _ => []
  | .addHi _ _ | .cmpHi _ _ | .movHi _ _ | .bx _ _ | .blxReg _ _ => []
  | .ldrPc _ _ => []
  | .ldsbReg _ _ _ | .ldrReg _ _ _ | .ldrhReg _ _ _ | .ldrbReg _ _ _ | .ldshReg _ _ _ => []
  | .ldrImm _ _ _ | .ldrbImm _ _ _ | .ldrhImm _ _ _ => []
  | .pop _ _ => []
  | .beq _ | .bne _ | .bcs _ | .bcc _ | .bmi _ | .bpl _ | .bvs _ | .bvc _ => []
  | .bhi _ | .bls _ | .bge _ | .blt _ | .bgt _ | .ble _ => []
  | .blHi _ | .blLo _ | .blxLo _ => []
  | .invalid9000 _ | .invalidA000 _ | .invalidB000 _ | .invalidB200 _ | .invalidB600 _ => []
  | .invalidC000 _ | .invalidE000 _ | .invalidCond14 _ | .invalidSwi _ => []

/-- How an instruction writes a flag, an entry of R24's table. -/
inductive FlagUse where
  /-- `-`: unchanged. -/
  | kept
  /-- `w`: written. -/
  | written
  deriving DecidableEq, Repr

/-- R24's table, the column of N and Z (they are `w` in the same rows). -/
def flagUseNZ : Instr → FlagUse
  | .lslImm _ _ _ | .lsrImm _ _ _ | .asrImm _ _ _ => .written
  | .addReg _ _ _ | .subReg _ _ _ | .addImm3 _ _ _ | .subImm3 _ _ _ => .written
  | .movImm8 _ _ | .cmpImm8 _ _ | .addImm8 _ _ | .subImm8 _ _ => .written
  | .and _ _ | .eor _ _ | .lslReg _ _ | .lsrReg _ _ | .asrReg _ _ | .adc _ _ | .sbc _ _ | .ror _ _ => .written
  | .tst _ _ | .neg _ _ | .cmpReg _ _ | .cmn _ _ | .orr _ _ | .mul _ _ | .bic _ _ | .mvn _ _ => .written
  | .cmpHi _ _ => .written
  | .addHi _ _ | .movHi _ _ | .bx _ _ | .blxReg _ _ => .kept
  | .ldrPc _ _ => .kept
  | .strReg _ _ _ | .strhReg _ _ _ | .strbReg _ _ _ | .ldsbReg _ _ _ => .kept
  | .ldrReg _ _ _ | .ldrhReg _ _ _ | .ldrbReg _ _ _ | .ldshReg _ _ _ => .kept
  | .strImm _ _ _ | .ldrImm _ _ _ | .strbImm _ _ _ | .ldrbImm _ _ _ | .strhImm _ _ _ | .ldrhImm _ _ _ => .kept
  | .push _ _ | .pop _ _ => .kept
  | .beq _ | .bne _ | .bcs _ | .bcc _ | .bmi _ | .bpl _ | .bvs _ | .bvc _ => .kept
  | .bhi _ | .bls _ | .bge _ | .blt _ | .bgt _ | .ble _ => .kept
  | .blHi _ | .blLo _ | .blxLo _ => .kept
  | .invalid9000 _ | .invalidA000 _ | .invalidB000 _ | .invalidB200 _ | .invalidB600 _ => .kept
  | .invalidC000 _ | .invalidE000 _ | .invalidCond14 _ | .invalidSwi _ => .kept

/-- R24's table, the column of C: for the left shifts and ROR it depends on the count. -/
def flagUseC (s : State) : Instr → FlagUse
  | .lslImm imm5 _ _ => if imm5 = 0 then .kept else .written
  | .lsrImm _ _ _ | .asrImm _ _ _ => .written
  | .addReg _ _ _ | .subReg _ _ _ | .addImm3 _ _ _ | .subImm3 _ _ _ => .written
  | .movImm8 _ _ => .kept
  | .cmpImm8 _ _ | .addImm8 _ _ | .subImm8 _ _ => .written
  | .and _ _ | .eor _ _ | .orr _ _ | .bic _ _ | .mvn _ _ | .tst _ _ | .mul _ _ => .kept
  | .lslReg rs _ | .ror rs _ => if shiftCount s rs = 0 then .kept else .written
  | .lsrReg _ _ | .asrReg _ _ => .written
  | .adc _ _ | .sbc _ _ | .neg _ _ | .cmpReg _ _ | .cmn _ _ => .written
  | .cmpHi _ _ => .written
  | .addHi _ _ | .movHi _ _ | .bx _ _ | .blxReg _ _ => .kept
  | .ldrPc _ _ => .kept
  | .strReg _ _ _ | .strhReg _ _ _ | .strbReg _ _ _ | .ldsbReg _ _ _ => .kept
  | .ldrReg _ _ _ | .ldrhReg _ _ _ | .ldrbReg _ _ _ | .ldshReg _ _ _ => .kept
  | .strImm _ _ _ | .ldrImm _ _ _ | .strbImm _ _ _ | .ldrbImm _ _ _ | .strhImm _ _ _ | .ldrhImm _ _ _ => .kept
  | .push _ _ | .pop _ _ => .kept
  | .beq _ | .bne _ | .bcs _ | .bcc _ | .bmi _ | .bpl _ | .bvs _ | .bvc _ => .kept
  | .bhi _ | .bls _ | .bge _ | .blt _ | .bgt _ | .ble _ => .kept
  | .blHi _ | .blLo _ | .blxLo _ => .kept
  | .invalid9000 _ | .invalidA000 _ | .invalidB000 _ | .invalidB200 _ | .invalidB600 _ => .kept
  | .invalidC000 _ | .invalidE000 _ | .invalidCond14 _ | .invalidSwi _ => .kept

/-- R24's table, the column of V. -/
def flagUseV : Instr → FlagUse
  | .lslImm _ _ _ | .lsrImm _ _ _ | .asrImm _ _ _ => .kept
  | .addReg _ _ _ | .subReg _ _ _ | .addImm3 _ _ _ | .subImm3 _ _ _ => .written
  | .movImm8 _ _ => .kept
  | .cmpImm8 _ _ | .addImm8 _ _ | .subImm8 _ _ => .written
  | .and _ _ | .eor _ _ | .orr _ _ | .bic _ _ | .mvn _ _ | .tst _ _ | .mul _ _ => .kept
  | .lslReg _ _ | .lsrReg _ _ | .asrReg _ _ | .ror _ _ => .kept
  | .adc _ _ | .sbc _ _ | .neg _ _ | .cmpReg _ _ | .cmn _ _ => .written
  | .cmpHi _ _ => .written
  | .addHi _ _ | .movHi _ _ | .bx _ _ | .blxReg _ _ => .kept
  | .ldrPc _ _ => .kept
  | .strReg _ _ _ | .strhReg _ _ _ | .strbReg _ _ _ | .ldsbReg _ _ _ => .kept
  | .ldrReg _ _ _ | .ldrhReg _ _ _ | .ldrbReg _ _ _ | .ldshReg _ _ _ => .kept
  | .strImm _ _ _ | .ldrImm _ _ _ | .strbImm _ _ _ | .ldrbImm _ _ _ | .strhImm _ _ _ | .ldrhImm _ _ _ => .kept
  | .push _ _ | .pop _ _ => .kept
  | .beq _ | .bne _ | .bcs _ | .bcc _ | .bmi _ | .bpl _ | .bvs _ | .bvc _ => .kept
  | .bhi _ | .bls _ | .bge _ | .blt _ | .bgt _ | .ble _ => .kept
  | .blHi _ | .blLo _ | .blxLo _ => .kept
  | .invalid9000 _ | .invalidA000 _ | .invalidB000 _ | .invalidB200 _ | .invalidB600 _ => .kept
  | .invalidC000 _ | .invalidE000 _ | .invalidCond14 _ | .invalidSwi _ => .kept

/-- Whether an instruction is of the closed list of those that can write `pc_pending` (R17, R178). -/
def mayWritePending : Instr → Bool
  | .beq _ | .bne _ | .bcs _ | .bcc _ | .bmi _ | .bpl _ | .bvs _ | .bvc _ => true
  | .bhi _ | .bls _ | .bge _ | .blt _ | .bgt _ | .ble _ => true
  | .blLo _ | .blxLo _ => true
  | .bx _ _ | .blxReg _ _ => true
  | .addHi _ rd | .movHi _ rd => rd == PC
  | .pop r _ => r
  | .lslImm _ _ _ | .lsrImm _ _ _ | .asrImm _ _ _ => false
  | .addReg _ _ _ | .subReg _ _ _ | .addImm3 _ _ _ | .subImm3 _ _ _ => false
  | .movImm8 _ _ | .cmpImm8 _ _ | .addImm8 _ _ | .subImm8 _ _ => false
  | .and _ _ | .eor _ _ | .lslReg _ _ | .lsrReg _ _ | .asrReg _ _ | .adc _ _ | .sbc _ _ | .ror _ _ => false
  | .tst _ _ | .neg _ _ | .cmpReg _ _ | .cmn _ _ | .orr _ _ | .mul _ _ | .bic _ _ | .mvn _ _ => false
  | .cmpHi _ _ => false
  | .ldrPc _ _ => false
  | .strReg _ _ _ | .strhReg _ _ _ | .strbReg _ _ _ | .ldsbReg _ _ _ => false
  | .ldrReg _ _ _ | .ldrhReg _ _ _ | .ldrbReg _ _ _ | .ldshReg _ _ _ => false
  | .strImm _ _ _ | .ldrImm _ _ _ | .strbImm _ _ _ | .ldrbImm _ _ _ | .strhImm _ _ _ | .ldrhImm _ _ _ => false
  | .push _ _ => false
  | .blHi _ => false
  | .invalid9000 _ | .invalidA000 _ | .invalidB000 _ | .invalidB200 _ | .invalidB600 _ => false
  | .invalidC000 _ | .invalidE000 _ | .invalidCond14 _ | .invalidSwi _ => false

/-- The six operations of the bus, without their operands (R40). -/
inductive BusKind where
  | readByte | readHalf | readWord | writeByte | writeHalf | writeWord
  deriving DecidableEq, Repr

/-- The operation of a request. -/
def BusKind.of : BusOp → BusKind
  | .readByte _ _ => .readByte
  | .readHalf _ _ => .readHalf
  | .readWord _ _ => .readWord
  | .writeByte _ _ => .writeByte
  | .writeHalf _ _ => .writeHalf
  | .writeWord _ _ => .writeWord

/-- The operations of an instruction, in order: R46's table of widths. -/
def busKinds : Instr → List BusKind
  | .ldrPc _ _ | .ldrReg _ _ _ | .ldrImm _ _ _ => [.readWord]
  | .pop r rlist => List.replicate (transferCount r rlist) .readWord
  | .strReg _ _ _ | .strImm _ _ _ => [.writeWord]
  | .push r rlist => List.replicate (transferCount r rlist) .writeWord
  | .ldrhReg _ _ _ | .ldshReg _ _ _ | .ldrhImm _ _ _ => [.readHalf]
  | .strhReg _ _ _ | .strhImm _ _ _ => [.writeHalf]
  | .ldrbReg _ _ _ | .ldsbReg _ _ _ | .ldrbImm _ _ _ => [.readByte]
  | .strbReg _ _ _ | .strbImm _ _ _ => [.writeByte]
  | .lslImm _ _ _ | .lsrImm _ _ _ | .asrImm _ _ _ => []
  | .addReg _ _ _ | .subReg _ _ _ | .addImm3 _ _ _ | .subImm3 _ _ _ => []
  | .movImm8 _ _ | .cmpImm8 _ _ | .addImm8 _ _ | .subImm8 _ _ => []
  | .and _ _ | .eor _ _ | .lslReg _ _ | .lsrReg _ _ | .asrReg _ _ | .adc _ _ | .sbc _ _ | .ror _ _ => []
  | .tst _ _ | .neg _ _ | .cmpReg _ _ | .cmn _ _ | .orr _ _ | .mul _ _ | .bic _ _ | .mvn _ _ => []
  | .addHi _ _ | .cmpHi _ _ | .movHi _ _ | .bx _ _ | .blxReg _ _ => []
  | .beq _ | .bne _ | .bcs _ | .bcc _ | .bmi _ | .bpl _ | .bvs _ | .bvc _ => []
  | .bhi _ | .bls _ | .bge _ | .blt _ | .bgt _ | .ble _ => []
  | .blHi _ | .blLo _ | .blxLo _ => []
  | .invalid9000 _ | .invalidA000 _ | .invalidB000 _ | .invalidB200 _ | .invalidB600 _ => []
  | .invalidC000 _ | .invalidE000 _ | .invalidCond14 _ | .invalidSwi _ => []

/-! ### The invariant and a safe run -/

/-- What every step keeps: memory in its canonical form, `pc_read` even (R20), at most nine bus requests (R46). -/
structure Inv (s : State) : Prop where
  mem : s.mem.wf = true
  even : s.pcRead.getLsbD 0 = false
  requests : s.busOps.length ≤ 9

/-- A safe run: `n` steps none of which raises the invalid-opcode signal or leaves 16-bit decoding (R185). -/
def RunsSafely (n : Nat) (s : State) : Prop := ∃ t, Host.Core.run core n s = .next t

end Sys2Proof
end

