-- ==== Sys2Proof/Certificates/Slice0/Obligations.lean ====
section
/-!
DEFINITION. The statements for the provers. Each is about every state (or every word), not about a program. The terms
they use are those of Sys2Proof/Safety.lean.
-/

open Sys2Proof Sys2Proof.Machine

/-! ### Encoding -/

/-- Decode and encode agree (R58, R62 to R74, R76, R77): the bytes of a well-formed instruction decode to it, whatever
follows them. -/
def Obligations.DecodeEncodeAgree : Prop :=
  ∀ (i : Instr) (rest : List Byte), i.wellFormed = true → decode (bytesOfHalf (encode i) ++ rest) = .ok (i, rest)

/-- Every word is the encoding of the well-formed instruction it decodes to, so no bit of a word is dropped: the bits
BX and BLX ignore are an operand of theirs (the model's choice, log entry 21). -/
def Obligations.EncodeDecodeAgree : Prop :=
  ∀ w : Half, (decodeWord w).wellFormed = true ∧ encode (decodeWord w) = w

/-- Words written out from R62 to R74, R76 and R77, at least one of each format, decode to the instruction they stand
for. The field positions and sub-op numbers are the spec's own decisions D7 and D8 (log entry 19). -/
def Obligations.SpecWordsDecodeRight : Prop :=
  decodeWord 0b0001000100001000 = .asrImm 4 1 0 ∧
  decodeWord 0b0001101010001011 = .subReg 2 1 3 ∧
  decodeWord 0b0011111111001000 = .subImm8 7 200 ∧
  decodeWord 0b0100001101111010 = .mul 7 2 ∧
  decodeWord 0b0100011011110111 = .movHi 14 15 ∧
  decodeWord 0b0100011111110000 = .blxReg 14 0 ∧
  decodeWord 0b0100101100000001 = .ldrPc 3 1 ∧
  decodeWord 0b0101110010001000 = .ldrbReg 2 1 0 ∧
  decodeWord 0b0101011100001110 = .ldsbReg 4 1 6 ∧
  decodeWord 0b0110011111001000 = .strImm 31 1 0 ∧
  decodeWord 0b1000100001001011 = .ldrhImm 1 1 3 ∧
  decodeWord 0b1011010100010000 = .push true 0x10 ∧
  decodeWord 0b1101000111111100 = .bne 0xFC ∧
  decodeWord 0b1111000000000001 = .blHi 1 ∧
  decodeWord 0b1111111111111110 = .blLo 0x7FE ∧
  decodeWord 0b1110100000000000 = .blxLo 0 ∧
  decodeWord 0b1101111000000000 = .invalidCond14 0xDE00 ∧
  decodeWord 0b1101111100000101 = .invalidSwi 0xDF05 ∧
  decodeWord 0b1011111000000000 = .invalidB600 0xBE00

/-- The field layouts of Formats 1 to 5 (R62 to R66): a word that matches a row of the opcode table is that row's
instruction with the fields at the row's bit positions. The positions and sub-op numbers are the spec's own decisions D7
and D8 (log entry 19), in the two statements that follow as well. -/
def Obligations.RowsOfFormats1To5Decode : Prop :=
  ∀ w : Half,
    (w &&& 0xF800 = 0x0000 → decodeWord w = .lslImm (w.extractLsb' 6 5) (w.extractLsb' 3 3).toFin (w.extractLsb' 0 3).toFin) ∧
    (w &&& 0xF800 = 0x0800 → decodeWord w = .lsrImm (w.extractLsb' 6 5) (w.extractLsb' 3 3).toFin (w.extractLsb' 0 3).toFin) ∧
    (w &&& 0xF800 = 0x1000 → decodeWord w = .asrImm (w.extractLsb' 6 5) (w.extractLsb' 3 3).toFin (w.extractLsb' 0 3).toFin) ∧
    (w &&& 0xFE00 = 0x1800 → decodeWord w = .addReg (w.extractLsb' 6 3).toFin (w.extractLsb' 3 3).toFin (w.extractLsb' 0 3).toFin) ∧
    (w &&& 0xFE00 = 0x1A00 → decodeWord w = .subReg (w.extractLsb' 6 3).toFin (w.extractLsb' 3 3).toFin (w.extractLsb' 0 3).toFin) ∧
    (w &&& 0xFE00 = 0x1C00 → decodeWord w = .addImm3 (w.extractLsb' 6 3) (w.extractLsb' 3 3).toFin (w.extractLsb' 0 3).toFin) ∧
    (w &&& 0xFE00 = 0x1E00 → decodeWord w = .subImm3 (w.extractLsb' 6 3) (w.extractLsb' 3 3).toFin (w.extractLsb' 0 3).toFin) ∧
    (w &&& 0xF800 = 0x2000 → decodeWord w = .movImm8 (w.extractLsb' 8 3).toFin (w.extractLsb' 0 8)) ∧
    (w &&& 0xF800 = 0x2800 → decodeWord w = .cmpImm8 (w.extractLsb' 8 3).toFin (w.extractLsb' 0 8)) ∧
    (w &&& 0xF800 = 0x3000 → decodeWord w = .addImm8 (w.extractLsb' 8 3).toFin (w.extractLsb' 0 8)) ∧
    (w &&& 0xF800 = 0x3800 → decodeWord w = .subImm8 (w.extractLsb' 8 3).toFin (w.extractLsb' 0 8)) ∧
    (w &&& 0xFFC0 = 0x4000 → decodeWord w = .and (w.extractLsb' 3 3).toFin (w.extractLsb' 0 3).toFin) ∧
    (w &&& 0xFFC0 = 0x4040 → decodeWord w = .eor (w.extractLsb' 3 3).toFin (w.extractLsb' 0 3).toFin) ∧
    (w &&& 0xFFC0 = 0x4080 → decodeWord w = .lslReg (w.extractLsb' 3 3).toFin (w.extractLsb' 0 3).toFin) ∧
    (w &&& 0xFFC0 = 0x40C0 → decodeWord w = .lsrReg (w.extractLsb' 3 3).toFin (w.extractLsb' 0 3).toFin) ∧
    (w &&& 0xFFC0 = 0x4100 → decodeWord w = .asrReg (w.extractLsb' 3 3).toFin (w.extractLsb' 0 3).toFin) ∧
    (w &&& 0xFFC0 = 0x4140 → decodeWord w = .adc (w.extractLsb' 3 3).toFin (w.extractLsb' 0 3).toFin) ∧
    (w &&& 0xFFC0 = 0x4180 → decodeWord w = .sbc (w.extractLsb' 3 3).toFin (w.extractLsb' 0 3).toFin) ∧
    (w &&& 0xFFC0 = 0x41C0 → decodeWord w = .ror (w.extractLsb' 3 3).toFin (w.extractLsb' 0 3).toFin) ∧
    (w &&& 0xFFC0 = 0x4200 → decodeWord w = .tst (w.extractLsb' 3 3).toFin (w.extractLsb' 0 3).toFin) ∧
    (w &&& 0xFFC0 = 0x4240 → decodeWord w = .neg (w.extractLsb' 3 3).toFin (w.extractLsb' 0 3).toFin) ∧
    (w &&& 0xFFC0 = 0x4280 → decodeWord w = .cmpReg (w.extractLsb' 3 3).toFin (w.extractLsb' 0 3).toFin) ∧
    (w &&& 0xFFC0 = 0x42C0 → decodeWord w = .cmn (w.extractLsb' 3 3).toFin (w.extractLsb' 0 3).toFin) ∧
    (w &&& 0xFFC0 = 0x4300 → decodeWord w = .orr (w.extractLsb' 3 3).toFin (w.extractLsb' 0 3).toFin) ∧
    (w &&& 0xFFC0 = 0x4340 → decodeWord w = .mul (w.extractLsb' 3 3).toFin (w.extractLsb' 0 3).toFin) ∧
    (w &&& 0xFFC0 = 0x4380 → decodeWord w = .bic (w.extractLsb' 3 3).toFin (w.extractLsb' 0 3).toFin) ∧
    (w &&& 0xFFC0 = 0x43C0 → decodeWord w = .mvn (w.extractLsb' 3 3).toFin (w.extractLsb' 0 3).toFin) ∧
    (w &&& 0xFF00 = 0x4400 → decodeWord w = .addHi ((w.extractLsb' 6 1) ++ (w.extractLsb' 3 3)).toFin ((w.extractLsb' 7 1) ++ (w.extractLsb' 0 3)).toFin) ∧
    (w &&& 0xFF00 = 0x4500 → decodeWord w = .cmpHi ((w.extractLsb' 6 1) ++ (w.extractLsb' 3 3)).toFin ((w.extractLsb' 7 1) ++ (w.extractLsb' 0 3)).toFin) ∧
    (w &&& 0xFF00 = 0x4600 → decodeWord w = .movHi ((w.extractLsb' 6 1) ++ (w.extractLsb' 3 3)).toFin ((w.extractLsb' 7 1) ++ (w.extractLsb' 0 3)).toFin) ∧
    (w &&& 0xFF80 = 0x4700 → decodeWord w = .bx ((w.extractLsb' 6 1) ++ (w.extractLsb' 3 3)).toFin (w.extractLsb' 0 3)) ∧
    (w &&& 0xFF80 = 0x4780 → decodeWord w = .blxReg ((w.extractLsb' 6 1) ++ (w.extractLsb' 3 3)).toFin (w.extractLsb' 0 3))

/-- The field layouts of Formats 6 to 10 and 14 (R67 to R72; positions by decisions D7 and D8, log entry 19). -/
def Obligations.RowsOfFormats6To14Decode : Prop :=
  ∀ w : Half,
    (w &&& 0xF800 = 0x4800 → decodeWord w = .ldrPc (w.extractLsb' 8 3).toFin (w.extractLsb' 0 8)) ∧
    (w &&& 0xFE00 = 0x5000 → decodeWord w = .strReg (w.extractLsb' 6 3).toFin (w.extractLsb' 3 3).toFin (w.extractLsb' 0 3).toFin) ∧
    (w &&& 0xFE00 = 0x5200 → decodeWord w = .strhReg (w.extractLsb' 6 3).toFin (w.extractLsb' 3 3).toFin (w.extractLsb' 0 3).toFin) ∧
    (w &&& 0xFE00 = 0x5400 → decodeWord w = .strbReg (w.extractLsb' 6 3).toFin (w.extractLsb' 3 3).toFin (w.extractLsb' 0 3).toFin) ∧
    (w &&& 0xFE00 = 0x5600 → decodeWord w = .ldsbReg (w.extractLsb' 6 3).toFin (w.extractLsb' 3 3).toFin (w.extractLsb' 0 3).toFin) ∧
    (w &&& 0xFE00 = 0x5800 → decodeWord w = .ldrReg (w.extractLsb' 6 3).toFin (w.extractLsb' 3 3).toFin (w.extractLsb' 0 3).toFin) ∧
    (w &&& 0xFE00 = 0x5A00 → decodeWord w = .ldrhReg (w.extractLsb' 6 3).toFin (w.extractLsb' 3 3).toFin (w.extractLsb' 0 3).toFin) ∧
    (w &&& 0xFE00 = 0x5C00 → decodeWord w = .ldrbReg (w.extractLsb' 6 3).toFin (w.extractLsb' 3 3).toFin (w.extractLsb' 0 3).toFin) ∧
    (w &&& 0xFE00 = 0x5E00 → decodeWord w = .ldshReg (w.extractLsb' 6 3).toFin (w.extractLsb' 3 3).toFin (w.extractLsb' 0 3).toFin) ∧
    (w &&& 0xF800 = 0x6000 → decodeWord w = .strImm (w.extractLsb' 6 5) (w.extractLsb' 3 3).toFin (w.extractLsb' 0 3).toFin) ∧
    (w &&& 0xF800 = 0x6800 → decodeWord w = .ldrImm (w.extractLsb' 6 5) (w.extractLsb' 3 3).toFin (w.extractLsb' 0 3).toFin) ∧
    (w &&& 0xF800 = 0x7000 → decodeWord w = .strbImm (w.extractLsb' 6 5) (w.extractLsb' 3 3).toFin (w.extractLsb' 0 3).toFin) ∧
    (w &&& 0xF800 = 0x7800 → decodeWord w = .ldrbImm (w.extractLsb' 6 5) (w.extractLsb' 3 3).toFin (w.extractLsb' 0 3).toFin) ∧
    (w &&& 0xF800 = 0x8000 → decodeWord w = .strhImm (w.extractLsb' 6 5) (w.extractLsb' 3 3).toFin (w.extractLsb' 0 3).toFin) ∧
    (w &&& 0xF800 = 0x8800 → decodeWord w = .ldrhImm (w.extractLsb' 6 5) (w.extractLsb' 3 3).toFin (w.extractLsb' 0 3).toFin) ∧
    (w &&& 0xFE00 = 0xB400 → decodeWord w = .push ((w.extractLsb' 8 1) == 1) (w.extractLsb' 0 8)) ∧
    (w &&& 0xFE00 = 0xBC00 → decodeWord w = .pop ((w.extractLsb' 8 1) == 1) (w.extractLsb' 0 8))

/-- The field layouts of Formats 16 and 19 (R73, R74; positions by decisions D7 to D9, log entry 19) and the nine
invalid rows (R76, R77). -/
def Obligations.RowsOfFormats16And19AndInvalidDecode : Prop :=
  ∀ w : Half,
    (w &&& 0xFF00 = 0xD000 → decodeWord w = .beq (w.extractLsb' 0 8)) ∧
    (w &&& 0xFF00 = 0xD100 → decodeWord w = .bne (w.extractLsb' 0 8)) ∧
    (w &&& 0xFF00 = 0xD200 → decodeWord w = .bcs (w.extractLsb' 0 8)) ∧
    (w &&& 0xFF00 = 0xD300 → decodeWord w = .bcc (w.extractLsb' 0 8)) ∧
    (w &&& 0xFF00 = 0xD400 → decodeWord w = .bmi (w.extractLsb' 0 8)) ∧
    (w &&& 0xFF00 = 0xD500 → decodeWord w = .bpl (w.extractLsb' 0 8)) ∧
    (w &&& 0xFF00 = 0xD600 → decodeWord w = .bvs (w.extractLsb' 0 8)) ∧
    (w &&& 0xFF00 = 0xD700 → decodeWord w = .bvc (w.extractLsb' 0 8)) ∧
    (w &&& 0xFF00 = 0xD800 → decodeWord w = .bhi (w.extractLsb' 0 8)) ∧
    (w &&& 0xFF00 = 0xD900 → decodeWord w = .bls (w.extractLsb' 0 8)) ∧
    (w &&& 0xFF00 = 0xDA00 → decodeWord w = .bge (w.extractLsb' 0 8)) ∧
    (w &&& 0xFF00 = 0xDB00 → decodeWord w = .blt (w.extractLsb' 0 8)) ∧
    (w &&& 0xFF00 = 0xDC00 → decodeWord w = .bgt (w.extractLsb' 0 8)) ∧
    (w &&& 0xFF00 = 0xDD00 → decodeWord w = .ble (w.extractLsb' 0 8)) ∧
    (w &&& 0xF800 = 0xF000 → decodeWord w = .blHi (w.extractLsb' 0 11)) ∧
    (w &&& 0xF800 = 0xF800 → decodeWord w = .blLo (w.extractLsb' 0 11)) ∧
    (w &&& 0xF800 = 0xE800 → decodeWord w = .blxLo (w.extractLsb' 0 11)) ∧
    (w &&& 0xF000 = 0x9000 → decodeWord w = .invalid9000 w) ∧
    (w &&& 0xF000 = 0xA000 → decodeWord w = .invalidA000 w) ∧
    (w &&& 0xF600 = 0xB000 → decodeWord w = .invalidB000 w) ∧
    (w &&& 0xF600 = 0xB200 → decodeWord w = .invalidB200 w) ∧
    (w &&& 0xF600 = 0xB600 → decodeWord w = .invalidB600 w) ∧
    (w &&& 0xF000 = 0xC000 → decodeWord w = .invalidC000 w) ∧
    (w &&& 0xF800 = 0xE000 → decodeWord w = .invalidE000 w) ∧
    (w &&& 0xFF00 = 0xDE00 → decodeWord w = .invalidCond14 w) ∧
    (w &&& 0xFF00 = 0xDF00 → decodeWord w = .invalidSwi w)

/-- The classifier of R60: each predicate is its mask and match, the 14 are pairwise disjoint, the classifier answers
the format whose predicate the word meets, and a word that meets none raises the invalid-opcode signal. -/
def Obligations.ClassifierPredicatesDisjoint : Prop :=
  (∀ (f : Format) (w : Half), f.admits w = true ↔
    w &&& (formatMask f).1 = (formatMask f).2 ∧ (f = .f1 → w &&& 0x1800 ≠ 0x1800)) ∧
  (∀ (f g : Format) (w : Half), f.admits w = true → g.admits w = true → f = g) ∧
  (∀ (f : Format) (w : Half), classify w = some f ↔ f.admits w = true) ∧
  (∀ (w : Half) (s : State), classify w = none → exec (decodeWord w) s = .fault (.invalidOpcode w .noFormat))

/-- The predicates of R60 and the high-byte map of R61 classify every word alike. -/
def Obligations.HighByteMapAgrees : Prop :=
  ∀ w : Half, classify w = formatOfHighByte (w.extractLsb' 8 8)

/-! ### The invalid-opcode signal -/

/-- R181 (which the spec marks derived): a word raises the signal if and only if it matches no format or has `w & 0xFE00
= 0xDE00`, and this depends on the word alone: every other word completes in every state. -/
def Obligations.RaisesExactlyInvalidWords : Prop :=
  ∀ (w : Half) (s : State),
    ((classify w = none ∨ w &&& 0xFE00 = 0xDE00) → ∃ reason, exec (decodeWord w) s = .fault (.invalidOpcode w reason)) ∧
    (¬ (classify w = none ∨ w &&& 0xFE00 = 0xDE00) → ∃ t, exec (decodeWord w) s = .next t)

/-- R76, R171, R172: the nine invalid rows stop with the signal, which carries the word as given and the reason that
the high byte's row of R179's table names; no other instruction raises it, and it completes. The three reason names
are the spec's own decision D21, the fault as its outcome log entry 12, and that every other instruction completes
R181, which the spec marks derived. -/
def Obligations.SignalCarriesWordAndReason : Prop :=
  (∀ (i : Instr) (s : State), i.isInvalidRow = true → i.wellFormed = true →
    ∃ reason, reasonOfHighByte ((encode i).extractLsb' 8 8) = some reason ∧
      exec i s = .fault (.invalidOpcode (encode i) reason)) ∧
  (∀ (i : Instr) (s : State), i.isInvalidRow = false →
    reasonOfHighByte ((encode i).extractLsb' 8 8) = none ∧ ∃ t, exec i s = .next t)

/-- R180: when the fetched word raises the signal, the loop stops with it, and every register, flag, T and all of
memory are as before the step; no bus request was made and `pc_pending` is the default the loop set. That the loop
stops with the signal and with this state is the spec's own decision D21 (log entry 12), the loop itself decision D5
(log entry 11); the devices have seen the loop's fetch (log entry 22). -/
def Obligations.SignalChangesNothing : Prop :=
  ∀ (s : State) (fuel : Nat), s.t = true → (decodeWord s.fetchWord).isInvalidRow = true →
    ∃ reason u, refFetch none (fuel + 1) s = .stopped (.fault (.invalidOpcode s.fetchWord reason)) u ∧
      u.regs = s.regs ∧ u.flags = s.flags ∧ u.t = s.t ∧ u.mem = s.mem ∧ u.memMap = s.memMap ∧
      u.busOps = [] ∧ u.busState = s.busAfter (.readHalf s.fetchAddr s.fetchWord) ∧
      u.pcPending = s.fetchAddr + 2 ∧ u.pcRead = s.fetchAddr + 4

/-! ### The step and the fetch loop -/

/-- A step runs the decoded instruction (R31, R35): with T = 1, when the halfword read at `pc_pending & 0xFFFFFFFE`
decodes to `i`, the step is `i` run with `pc_read = ia + 4`, `pc_pending = ia + 2`, no request yet made, and
everything else as it was, but for the draw of unmapped addresses, the model's own field, and the devices, which have
seen the fetch (log entry 22). On plain memory the halfword is the two bytes there and the devices are as before. The
loop is the spec's own construction (decision D5, log entry 11). -/
def Obligations.StepRunsDecodedInstruction : Prop :=
  (∀ (s : State) (i : Instr), s.t = true → decode (bytesOfHalf (s.nextDraw.halfAt s.fetchAddr)) = .ok (i, []) →
    step s = exec i { s with
      pcRead := (s.pcPending &&& 0xFFFFFFFE) + 4, pcPending := (s.pcPending &&& 0xFFFFFFFE) + 2, busOps := [],
      busState := s.busAfter (.readHalf s.fetchAddr (s.nextDraw.halfAt s.fetchAddr)), draw := s.draw + 2 }) ∧
  (∀ (s : State) (i : Instr), s.t = true → s.external s.fetchAddr 2 = false →
    decode [s.nextDraw.byteAt s.fetchAddr, s.nextDraw.byteAt (s.fetchAddr + 1)] = .ok (i, []) →
    step s = exec i { s with
      pcRead := (s.pcPending &&& 0xFFFFFFFE) + 4, pcPending := (s.pcPending &&& 0xFFFFFFFE) + 2, busOps := [],
      draw := s.draw + 2 })

/-- The step is refused exactly when T = 0 (R35, R59): the loop stops, whatever lies at the pending PC, and while T =
1 no step is refused for any reason. The model's name for this stop is the refusal `leftCompactMode` (decision D1,
log entry 13). -/
def Obligations.StepStopsOutsideCompactMode : Prop :=
  ∀ s : State, (s.t = false → step s = .refused .leftCompactMode) ∧ (s.t = true → ∀ r, step s ≠ .refused r)

/-- R32 (decision D1, log entry 13): the step entry point is defined when T = 1, `pc_read` is even and `pc_pending =
pc_read - 2`, and is refused otherwise; the fetch loop always meets the preconditions while T = 1. -/
def Obligations.BlockStepPreconditions : Prop :=
  (∀ (w : Half) (s : State), s.t = true ∧ s.pcRead.toNat % 2 = 0 ∧ s.pcPending = s.pcRead - 2 →
    blockStep w s = exec (decodeWord w) s) ∧
  (∀ (w : Half) (s : State), ¬ (s.t = true ∧ s.pcRead.toNat % 2 = 0 ∧ s.pcPending = s.pcRead - 2) →
    blockStep w s = .refused .stepPrecondition) ∧
  (∀ s : State, s.t = true → s.beginStep.t = true ∧ s.beginStep.pcRead.toNat % 2 = 0 ∧
    s.beginStep.pcPending = s.beginStep.pcRead - 2)

/-- R33: a step under its preconditions either completes or raises exactly one signal, carrying its word; it is never
refused. -/
def Obligations.StepCompletesOrSignals : Prop :=
  (∀ (w : Half) (s : State), s.stepReady = true →
    (∃ t, blockStep w s = .next t) ∨ ∃ reason, blockStep w s = .fault (.invalidOpcode w reason)) ∧
  (∀ s : State, s.t = true → (∃ t, step s = .next t) ∨ ∃ reason, step s = .fault (.invalidOpcode s.fetchWord reason))

/-- The reference loop REF-FETCH without `END` (R35, the spec's own construction, decision D5, log entry 11) and the
host's run of `step` go on to the same state and stop at the same turn for the same reason: after `m` turns that
reach `u`, at `u` if T = 0 there, or with the fault of the step at `u` and the state the loop handed to the block,
`u.beginStep` (R180, log entry 12). -/
def Obligations.ReferenceLoopAgreesWithRun : Prop :=
  ∀ (n : Nat) (s : State),
    (∀ t : State, Host.Core.run core n s = .next t ↔ refFetch none n s = .running t) ∧
    (∀ f : Fault, Host.Core.run core n s = .fault f ↔ ∃ m u, m < n ∧ Host.Core.run core m s = .next u ∧
      step u = .fault f ∧ refFetch none n s = .stopped (.fault f) u.beginStep) ∧
    (Host.Core.run core n s = .refused .leftCompactMode ↔ ∃ m u, m < n ∧ Host.Core.run core m s = .next u ∧
      u.t = false ∧ refFetch none n s = .stopped .leftCompactMode u) ∧
    ∀ r : Refusal, Host.Core.run core n s = .refused r → r = .leftCompactMode

/-- REF-FETCH (the spec's own, decisions D5 and D31) stops before the fetch, T first, then `END` (R35): with T = 0 it
has left compact mode even at `END`; with T = 1 it has ended exactly when the fetch address is `END`; otherwise it takes
one step. -/
def Obligations.ReferenceLoopStops : Prop :=
  ∀ (endAt : Word) (n : Nat) (s : State),
    (s.t = false → refFetch (some endAt) (n + 1) s = .stopped .leftCompactMode s) ∧
    (s.t = true → s.fetchAddr = endAt → refFetch (some endAt) (n + 1) s = .stopped .ended s) ∧
    (∀ t, s.t = true → s.fetchAddr ≠ endAt → step s = .next t →
      refFetch (some endAt) (n + 1) s = refFetch (some endAt) n t) ∧
    (∀ f, s.t = true → s.fetchAddr ≠ endAt → step s = .fault f →
      refFetch (some endAt) (n + 1) s = .stopped (.fault f) s.beginStep)

/-- A word loaded where the loop fetches next is the word the next step runs (log entry 15). The premise is the
invariant's clause on memory (`Inv`). -/
def Obligations.LoadedWordRunsNext : Prop :=
  ∀ (s : State) (w : Half), s.mem.wf = true →
    step (s.withFetchWord 16 w.toNat) = exec (decodeWord w) (s.withFetchWord 16 w.toNat).beginStep ∧
    (s.withFetchWord 16 w.toNat).regs = s.regs ∧ (s.withFetchWord 16 w.toNat).flags = s.flags ∧
    (s.withFetchWord 16 w.toNat).pcPending = s.pcPending

/-- A run starts at `ENTRY` (R36, R193; the arguments are decisions D18, D20 and D23, log entries 1 to 5 and 22 only
choose them): from any `RESET_STATE`, map, memory and devices the first step runs the word at an even `ENTRY` with
`pc_read = ENTRY + 4`. -/
def Obligations.BootStepFetchesEntry : Prop :=
  ∀ (regs : Vector Word 15) (flags : Flags) (entry : Word) (memMap : List Region) (mem : Memory) (bus : BusState)
    (s : State), s = State.boot regs flags entry memMap mem bus → entry.getLsbD 0 = false →
    ∃ u : State, step s = exec (decodeWord (s.nextDraw.halfAt entry)) u ∧
      u.pcRead = entry + 4 ∧ u.pcPending = entry + 2 ∧ u.regs = regs ∧ u.flags = flags ∧ u.t = true ∧ u.mem = mem ∧
      u.memMap = memMap ∧ u.busOps = [] ∧ u.busState = s.busAfter (.readHalf entry (s.nextDraw.halfAt entry))

/-! ### The flag unit -/

/-- R81: `setNZ` sets Z iff the result is 0 and N iff bit 31 is 1, never both, and touches no other flag. -/
def Obligations.SetNZDescribesValue : Prop :=
  ∀ (f : Flags) (r : Word),
    ((f.setNZ r).z = true ↔ r.toNat = 0) ∧ ((f.setNZ r).n = true ↔ 2 ^ 31 ≤ r.toNat) ∧
    ¬ ((f.setNZ r).n = true ∧ (f.setNZ r).z = true) ∧ (f.setNZ r).c = f.c ∧ (f.setNZ r).v = f.v

/-- R87: `AddFlags` returns the sum modulo 2^32; C is the carry out, V the signed overflow, N and Z describe the sum. -/
def Obligations.AdditionFlagSet : Prop :=
  ∀ (f : Flags) (a b : Word),
    (addFlags f a b).1.toNat = (a.toNat + b.toNat) % 2 ^ 32 ∧ CVofAdd (addFlags f a b).2 a b ∧
    NZof (addFlags f a b).2 (a + b) ∧ ((addFlags f a b).2.c = true ↔ (a + b).toNat < a.toNat)

/-- R88: `SubFlags` returns the difference modulo 2^32; C is the source's literal `result <u subtrahend`, V the signed
overflow, N and Z describe the difference. C is no borrow flag: R88's cases (decision D10, log entry 20). -/
def Obligations.SubtractionFlagSet : Prop :=
  (∀ (f : Flags) (a b : Word),
    (addFlags f (subFlags f a b).1 b).1 = a ∧ CVofSub (subFlags f a b).2 a b ∧ NZof (subFlags f a b).2 (a - b)) ∧
  (∀ (f : Flags) (a : Word), (subFlags f a 0).2.c = false ∧ ((subFlags f a a).2.c = true ↔ a ≠ 0)) ∧
  (∀ f : Flags, (subFlags f 5 1).2.c = false ∧ (subFlags f 5 3).2.c = true ∧ (subFlags f 1 5).2.c = false)

/-- R83, R84: `setVAdd` and `setVSub` of the wrapped sum and difference are signed overflow, and touch no other flag. -/
def Obligations.OverflowFunctions : Prop :=
  ∀ (f : Flags) (a b : Word),
    ((f.setVAdd a b (a + b)).v = true ↔ a.toInt + b.toInt < -2 ^ 31 ∨ 2 ^ 31 ≤ a.toInt + b.toInt) ∧
    ((f.setVSub a b (a - b)).v = true ↔ a.toInt - b.toInt < -2 ^ 31 ∨ 2 ^ 31 ≤ a.toInt - b.toInt) ∧
    (∀ r : Word, ((f.setVAdd a b r).v = true ↔
      a.getLsbD 31 = b.getLsbD 31 ∧ r.getLsbD 31 ≠ a.getLsbD 31) ∧
      ((f.setVSub a b r).v = true ↔ a.getLsbD 31 ≠ b.getLsbD 31 ∧ r.getLsbD 31 ≠ a.getLsbD 31) ∧
      { f.setVAdd a b r with v := f.v } = f ∧ { f.setVSub a b r with v := f.v } = f)

/-- R90 to R93: every bit of every shift's result and its carry-out, for every amount. Amounts above 32 and all of ROR
are the spec's own decision D13. -/
def Obligations.ShifterBits : Prop :=
  ∀ (v : Word) (n : Nat) (c : Bool),
    (IsLsl (lslC v n c).1 v n ∧ (lslC v n c).2 = lslCarry v n c) ∧
    (1 ≤ n → IsLsr (lsrC v n).1 v n ∧ (lsrC v n).2 = v.getLsbD (n - 1)) ∧
    (1 ≤ n → IsAsr (asrC v n).1 v n ∧ (asrC v n).2 = v.getLsbD (min (n - 1) 31)) ∧
    (IsRor (rorC v n c).1 v n ∧ (rorC v n c).2 = rorCarry v n c)

/-- R94, R170: the 14 conditions have the truth table of R170 (numbers and four formulas: the spec's decision D9). -/
def Obligations.ConditionTruthTable : Prop :=
  ∀ (c : Cond) (f : Flags), (truthRow c)[nzcv f]? = some (condPassed c f).toNat

/-! ### Formats 1 to 4 -/

/-- R97, R98, R99: the immediate shifts; an immediate 0 is a shift by 32 for LSR and ASR and leaves C for LSL. -/
def Obligations.ImmediateShifts : Prop :=
  ∀ (s : State) (imm5 : BitVec 5) (rs rd : LowReg) (n : Nat), n = (if imm5.toNat = 0 then 32 else imm5.toNat) →
    (∃ t, exec (.lslImm imm5 rs rd) s = .next t ∧ IsLsl (t.readReg (low rd)) (s.readReg (low rs)) imm5.toNat ∧
      NZof t.flags (t.readReg (low rd)) ∧ t.flags.c = lslCarry (s.readReg (low rs)) imm5.toNat s.flags.c ∧
      t.flags.v = s.flags.v ∧ OnlyRegs s t [low rd]) ∧
    (∃ t, exec (.lsrImm imm5 rs rd) s = .next t ∧ IsLsr (t.readReg (low rd)) (s.readReg (low rs)) n ∧
      NZof t.flags (t.readReg (low rd)) ∧ t.flags.c = (s.readReg (low rs)).getLsbD (n - 1) ∧
      t.flags.v = s.flags.v ∧ OnlyRegs s t [low rd]) ∧
    (∃ t, exec (.asrImm imm5 rs rd) s = .next t ∧ IsAsr (t.readReg (low rd)) (s.readReg (low rs)) n ∧
      NZof t.flags (t.readReg (low rd)) ∧ t.flags.c = (s.readReg (low rs)).getLsbD (n - 1) ∧
      t.flags.v = s.flags.v ∧ OnlyRegs s t [low rd])

/-- R100 to R103, R106, R107: the additions and subtractions of Formats 2 and 3. C of a subtraction is the literal
`res <u subtrahend` of R88 (the spec's own decision D10, log entry 20). -/
def Obligations.AddSubResults : Prop :=
  ∀ (s : State) (rn rs rd : LowReg) (imm3 : BitVec 3) (imm8 : BitVec 8),
    (∃ t, exec (.addReg rn rs rd) s = .next t ∧ t.readReg (low rd) = s.readReg (low rs) + s.readReg (low rn) ∧
      CVofAdd t.flags (s.readReg (low rs)) (s.readReg (low rn)) ∧ NZof t.flags (t.readReg (low rd)) ∧
      OnlyRegs s t [low rd]) ∧
    (∃ t, exec (.subReg rn rs rd) s = .next t ∧ t.readReg (low rd) = s.readReg (low rs) - s.readReg (low rn) ∧
      CVofSub t.flags (s.readReg (low rs)) (s.readReg (low rn)) ∧ NZof t.flags (t.readReg (low rd)) ∧
      OnlyRegs s t [low rd]) ∧
    (∃ t, exec (.addImm3 imm3 rs rd) s = .next t ∧
      t.readReg (low rd) = s.readReg (low rs) + BitVec.ofNat 32 imm3.toNat ∧
      CVofAdd t.flags (s.readReg (low rs)) (BitVec.ofNat 32 imm3.toNat) ∧ NZof t.flags (t.readReg (low rd)) ∧
      OnlyRegs s t [low rd]) ∧
    (∃ t, exec (.subImm3 imm3 rs rd) s = .next t ∧
      t.readReg (low rd) = s.readReg (low rs) - BitVec.ofNat 32 imm3.toNat ∧
      CVofSub t.flags (s.readReg (low rs)) (BitVec.ofNat 32 imm3.toNat) ∧ NZof t.flags (t.readReg (low rd)) ∧
      OnlyRegs s t [low rd]) ∧
    (∃ t, exec (.addImm8 rd imm8) s = .next t ∧
      t.readReg (low rd) = s.readReg (low rd) + BitVec.ofNat 32 imm8.toNat ∧
      CVofAdd t.flags (s.readReg (low rd)) (BitVec.ofNat 32 imm8.toNat) ∧ NZof t.flags (t.readReg (low rd)) ∧
      OnlyRegs s t [low rd]) ∧
    (∃ t, exec (.subImm8 rd imm8) s = .next t ∧
      t.readReg (low rd) = s.readReg (low rd) - BitVec.ofNat 32 imm8.toNat ∧
      CVofSub t.flags (s.readReg (low rd)) (BitVec.ofNat 32 imm8.toNat) ∧ NZof t.flags (t.readReg (low rd)) ∧
      OnlyRegs s t [low rd])

/-- R104: MOV loads the zero-extended immediate, with N = 0 and Z iff it is 0; C and V stay. -/
def Obligations.MoveImmediate : Prop :=
  ∀ (s : State) (rd : LowReg) (imm8 : BitVec 8),
    ∃ t, exec (.movImm8 rd imm8) s = .next t ∧ (t.readReg (low rd)).toNat = imm8.toNat ∧
      t.flags.n = false ∧ (t.flags.z = true ↔ imm8.toNat = 0) ∧ t.flags.c = s.flags.c ∧ t.flags.v = s.flags.v ∧
      OnlyRegs s t [low rd]

/-- R105, R118, R120, R121, R129: the compares and TST write flags only; no register changes. That CMN is the flag set
of the addition is the spec's own decision D8, the carry of the compares decision D10. -/
def Obligations.ComparesWriteOnlyFlags : Prop :=
  ∀ (s : State) (rs rd : LowReg) (hs hd : Reg) (imm8 : BitVec 8),
    (∃ t, exec (.cmpImm8 rd imm8) s = .next t ∧ CVofSub t.flags (s.readReg (low rd)) (BitVec.ofNat 32 imm8.toNat) ∧
      NZof t.flags (s.readReg (low rd) - BitVec.ofNat 32 imm8.toNat) ∧ OnlyRegs s t []) ∧
    (∃ t, exec (.cmpReg rs rd) s = .next t ∧ CVofSub t.flags (s.readReg (low rd)) (s.readReg (low rs)) ∧
      NZof t.flags (s.readReg (low rd) - s.readReg (low rs)) ∧ OnlyRegs s t []) ∧
    (∃ t, exec (.cmpHi hs hd) s = .next t ∧ CVofSub t.flags (s.readReg hd) (s.readReg hs) ∧
      NZof t.flags (s.readReg hd - s.readReg hs) ∧ OnlyRegs s t []) ∧
    (∃ t, exec (.cmn rs rd) s = .next t ∧ CVofAdd t.flags (s.readReg (low rd)) (s.readReg (low rs)) ∧
      NZof t.flags (s.readReg (low rd) + s.readReg (low rs)) ∧ OnlyRegs s t []) ∧
    (∃ t, exec (.tst rs rd) s = .next t ∧ NZof t.flags (s.readReg (low rd) &&& s.readReg (low rs)) ∧
      t.flags.c = s.flags.c ∧ t.flags.v = s.flags.v ∧ OnlyRegs s t [])

/-- R110, R111, R122 to R125: the logical operations bit by bit, and MUL as the low 32 bits of the product; N and Z
describe the result, C and V stay (decision D14). The operations of BIC and MVN are the spec's own decision D8. -/
def Obligations.LogicAndMultiply : Prop :=
  ∀ (s : State) (rs rd : LowReg) (op : Bool → Bool → Bool) (i : Instr),
    (i = .and rs rd ∧ op = (fun a b => a && b)) ∨ (i = .eor rs rd ∧ op = (fun a b => a != b)) ∨
      (i = .orr rs rd ∧ op = (fun a b => a || b)) ∨ (i = .bic rs rd ∧ op = (fun a b => a && !b)) ∨
      (i = .mvn rs rd ∧ op = (fun _ b => !b)) ∨ i = .mul rs rd →
    ∃ t, exec i s = .next t ∧
      (i ≠ .mul rs rd → ∀ k < 32, (t.readReg (low rd)).getLsbD k =
        op ((s.readReg (low rd)).getLsbD k) ((s.readReg (low rs)).getLsbD k)) ∧
      (i = .mul rs rd → (t.readReg (low rd)).toNat =
        (s.readReg (low rd)).toNat * (s.readReg (low rs)).toNat % 2 ^ 32) ∧
      NZof t.flags (t.readReg (low rd)) ∧ t.flags.c = s.flags.c ∧ t.flags.v = s.flags.v ∧ OnlyRegs s t [low rd]

/-- R112, R113, R114, R117: the register shifts by the low 8 bits of the source register; a count of 0 is 32 for LSR and
ASR and leaves value and C for LSL and ROR; counts above 32 are not reduced but in ROR (the spec's decision D13). -/
def Obligations.RegisterShifts : Prop :=
  ∀ (s : State) (rs rd : LowReg) (c n : Nat), c = (s.readReg (low rs)).toNat % 256 → n = (if c = 0 then 32 else c) →
    (∃ t, exec (.lslReg rs rd) s = .next t ∧ IsLsl (t.readReg (low rd)) (s.readReg (low rd)) c ∧
      NZof t.flags (t.readReg (low rd)) ∧ t.flags.c = lslCarry (s.readReg (low rd)) c s.flags.c ∧
      t.flags.v = s.flags.v ∧ OnlyRegs s t [low rd]) ∧
    (∃ t, exec (.lsrReg rs rd) s = .next t ∧ IsLsr (t.readReg (low rd)) (s.readReg (low rd)) n ∧
      NZof t.flags (t.readReg (low rd)) ∧ t.flags.c = (s.readReg (low rd)).getLsbD (n - 1) ∧
      t.flags.v = s.flags.v ∧ OnlyRegs s t [low rd]) ∧
    (∃ t, exec (.asrReg rs rd) s = .next t ∧ IsAsr (t.readReg (low rd)) (s.readReg (low rd)) n ∧
      NZof t.flags (t.readReg (low rd)) ∧ t.flags.c = (s.readReg (low rd)).getLsbD (min (n - 1) 31) ∧
      t.flags.v = s.flags.v ∧ OnlyRegs s t [low rd]) ∧
    (∃ t, exec (.ror rs rd) s = .next t ∧ IsRor (t.readReg (low rd)) (s.readReg (low rd)) c ∧
      NZof t.flags (t.readReg (low rd)) ∧ t.flags.c = rorCarry (s.readReg (low rd)) c s.flags.c ∧
      t.flags.v = s.flags.v ∧ OnlyRegs s t [low rd])

/-- R115, R116, R119: ADC and SBC add and subtract the carry at entry, with C and V of the carry-less sum and difference
and N and Z of the result; NEG is 0 minus the source with C forced to 1. The readings of the source are the spec's own
decisions D10, D11 and D12 (log entry 20). -/
def Obligations.CarryArithmetic : Prop :=
  ∀ (s : State) (rs rd : LowReg),
    (∃ t, exec (.adc rs rd) s = .next t ∧
      t.readReg (low rd) = s.readReg (low rd) + s.readReg (low rs) + BitVec.ofNat 32 s.flags.c.toNat ∧
      CVofAdd t.flags (s.readReg (low rd)) (s.readReg (low rs)) ∧ NZof t.flags (t.readReg (low rd)) ∧
      OnlyRegs s t [low rd]) ∧
    (∃ t, exec (.sbc rs rd) s = .next t ∧
      t.readReg (low rd) = s.readReg (low rd) - s.readReg (low rs) - BitVec.ofNat 32 s.flags.c.toNat ∧
      CVofSub t.flags (s.readReg (low rd)) (s.readReg (low rs)) ∧ NZof t.flags (t.readReg (low rd)) ∧
      OnlyRegs s t [low rd]) ∧
    (∃ t, exec (.neg rs rd) s = .next t ∧ t.readReg (low rd) + s.readReg (low rs) = 0 ∧ t.flags.c = true ∧
      (t.flags.v = true ↔ s.readReg (low rs) = 0x80000000) ∧ NZof t.flags (t.readReg (low rd)) ∧
      OnlyRegs s t [low rd])

/-! ### Format 5 -/

/-- R128, R130: the hi-register ADD and MOV write no flag; a destination of 15 is a write of `pc_pending`, as
computed, and no register changes; a source of 15 reads `pc_read`. That a plain write to register 15 is such a write
is R18's reading (decision D2), and that every combination of registers executes decision D27. -/
def Obligations.HiRegisterAddMove : Prop :=
  ∀ (s : State) (rs rd : Reg) (v : Word) (i : Instr),
    (i = .addHi rs rd ∧ v = (if rd = PC then s.pcRead else s.readReg rd) + (if rs = PC then s.pcRead else s.readReg rs)) ∨
      (i = .movHi rs rd ∧ v = (if rs = PC then s.pcRead else s.readReg rs)) →
    ∃ t, exec i s = .next t ∧
      (rd ≠ PC → t.readReg rd = v ∧ t.pcPending = s.pcPending ∧ RegsKept s t [rd]) ∧
      (rd = PC → t.pcPending = v ∧ RegsKept s t []) ∧
      t.flags = s.flags ∧ t.t = s.t ∧ t.pcRead = s.pcRead ∧ NoBus s t

/-- R131, R132: branch-exchange to an odd value makes it the pending PC as it stands and leaves T; to an even value it
clears T and rounds down to a multiple of 4. The linking form reads its target first and sets LR to `pc_read - 2`.
Details are the spec's own decisions D6 and D25. -/
def Obligations.BranchExchange : Prop :=
  ∀ (s : State) (rs : Reg) (ignored : BitVec 3),
    (∃ t, exec (.bx rs ignored) s = .next t ∧
      ((s.readReg rs).toNat % 2 = 1 → t.pcPending = s.readReg rs ∧ t.t = s.t) ∧
      ((s.readReg rs).toNat % 2 = 0 → t.pcPending.toNat = (s.readReg rs).toNat / 4 * 4 ∧ t.t = false) ∧
      t.flags = s.flags ∧ RegsKept s t [] ∧ NoBus s t) ∧
    (∃ t, exec (.blxReg rs ignored) s = .next t ∧ t.readReg LR = s.pcRead - 2 ∧
      ((s.readReg rs).toNat % 2 = 1 → t.pcPending = s.readReg rs ∧ t.t = s.t) ∧
      ((s.readReg rs).toNat % 2 = 0 → t.pcPending.toNat = (s.readReg rs).toNat / 4 * 4 ∧ t.t = false) ∧
      t.flags = s.flags ∧ RegsKept s t [LR] ∧ NoBus s t)

/-! ### Loads and stores -/

/-- R134: the PC-relative load, from `pc_read` with bit 1 cleared plus four times the immediate; the address is a
multiple of 4 when `pc_read` is even (R20). -/
def Obligations.PcRelativeLoad : Prop :=
  ∀ (s : State) (rd : LowReg) (imm8 : BitVec 8) (ea : Word),
    ea = (s.pcRead &&& 0xFFFFFFFD) + BitVec.ofNat 32 (4 * imm8.toNat) →
    (∃ t, exec (.ldrPc rd imm8) s = .next t ∧ LoadsAs s t rd (.readWord ea (s.wordAt ea)) (s.wordAt ea)) ∧
    (s.pcRead.toNat % 2 = 0 → ea.toNat % 4 = 0)

/-- R137, R138, R140, R141, R142: the register-offset loads, from base plus offset, zero- or sign-extended. -/
def Obligations.RegisterOffsetLoads : Prop :=
  ∀ (s : State) (ro rb rd : LowReg) (ea : Word), ea = s.readReg (low rb) + s.readReg (low ro) →
    (∃ t, exec (.ldrReg ro rb rd) s = .next t ∧ LoadsAs s t rd (.readWord ea (s.wordAt ea)) (s.wordAt ea)) ∧
    (∃ t v, exec (.ldrbReg ro rb rd) s = .next t ∧ v.toNat = (s.byteAt ea).toNat ∧
      LoadsAs s t rd (.readByte ea (s.byteAt ea)) v) ∧
    (∃ t v, exec (.ldsbReg ro rb rd) s = .next t ∧ v.toInt = (s.byteAt ea).toInt ∧
      LoadsAs s t rd (.readByte ea (s.byteAt ea)) v) ∧
    (∃ t v, exec (.ldrhReg ro rb rd) s = .next t ∧ v.toNat = (s.halfAt ea).toNat ∧
      LoadsAs s t rd (.readHalf ea (s.halfAt ea)) v) ∧
    (∃ t v, exec (.ldshReg ro rb rd) s = .next t ∧ v.toInt = (s.halfAt ea).toInt ∧
      LoadsAs s t rd (.readHalf ea (s.halfAt ea)) v)

/-- R144, R146, R148: the immediate-offset loads, scaled by 4, 1 and 2. -/
def Obligations.ImmediateOffsetLoads : Prop :=
  ∀ (s : State) (imm5 : BitVec 5) (rb rd : LowReg) (ea : Nat → Word),
    (∀ k, ea k = s.readReg (low rb) + BitVec.ofNat 32 (k * imm5.toNat)) →
    (∃ t, exec (.ldrImm imm5 rb rd) s = .next t ∧
      LoadsAs s t rd (.readWord (ea 4) (s.wordAt (ea 4))) (s.wordAt (ea 4))) ∧
    (∃ t v, exec (.ldrbImm imm5 rb rd) s = .next t ∧ v.toNat = (s.byteAt (ea 1)).toNat ∧
      LoadsAs s t rd (.readByte (ea 1) (s.byteAt (ea 1))) v) ∧
    (∃ t v, exec (.ldrhImm imm5 rb rd) s = .next t ∧ v.toNat = (s.halfAt (ea 2)).toNat ∧
      LoadsAs s t rd (.readHalf (ea 2) (s.halfAt (ea 2))) v)

/-- R135, R136, R139: the register-offset stores of the low bits of the register (R48, decision D24); what was stored
is read back where the bus maps the bytes writable, each to a cell of its own, at any alignment (log entry 10). The
address is the function the meaning uses, `regAddr`. -/
def Obligations.RegisterOffsetStores : Prop :=
  ∀ (s : State) (ro rb rd : LowReg) (ea v : Word), ea = regAddr s ro rb → v = s.readReg (low rd) →
    ea = s.readReg (low rb) + s.readReg (low ro) ∧
    (∃ t, exec (.strReg ro rb rd) s = .next t ∧ StoresAs s t ea 4 (.writeWord ea v) ∧
      (s.mem.wf = true → WritableSpan s ea 4 → t.wordAt ea = v)) ∧
    (∃ t, exec (.strhReg ro rb rd) s = .next t ∧ StoresAs s t ea 2 (.writeHalf ea (v.setWidth 16)) ∧
      (s.mem.wf = true → WritableSpan s ea 2 → t.halfAt ea = v.setWidth 16)) ∧
    (∃ t, exec (.strbReg ro rb rd) s = .next t ∧ StoresAs s t ea 1 (.writeByte ea (v.setWidth 8)) ∧
      (s.mem.wf = true → WritableSpan s ea 1 → t.byteAt ea = v.setWidth 8))

/-- R143, R145, R147: the immediate-offset stores, scaled by 4, 1 and 2, of the low bits of the register (R48,
decision D24); what was stored is read back as in the register-offset stores (log entry 10). The address is the
function the meaning uses, `immAddr`. -/
def Obligations.ImmediateOffsetStores : Prop :=
  ∀ (s : State) (imm5 : BitVec 5) (rb rd : LowReg) (v : Word), v = s.readReg (low rd) →
    (∀ k : Nat, immAddr s imm5 (BitVec.ofNat 32 k) rb = s.readReg (low rb) + BitVec.ofNat 32 (k * imm5.toNat)) ∧
    (∃ t, exec (.strImm imm5 rb rd) s = .next t ∧
      StoresAs s t (immAddr s imm5 4 rb) 4 (.writeWord (immAddr s imm5 4 rb) v) ∧
      (s.mem.wf = true → WritableSpan s (immAddr s imm5 4 rb) 4 → t.wordAt (immAddr s imm5 4 rb) = v)) ∧
    (∃ t, exec (.strhImm imm5 rb rd) s = .next t ∧
      StoresAs s t (immAddr s imm5 2 rb) 2 (.writeHalf (immAddr s imm5 2 rb) (v.setWidth 16)) ∧
      (s.mem.wf = true → WritableSpan s (immAddr s imm5 2 rb) 2 → t.halfAt (immAddr s imm5 2 rb) = v.setWidth 16)) ∧
    (∃ t, exec (.strbImm imm5 rb rd) s = .next t ∧
      StoresAs s t (immAddr s imm5 1 rb) 1 (.writeByte (immAddr s imm5 1 rb) (v.setWidth 8)) ∧
      (s.mem.wf = true → WritableSpan s (immAddr s imm5 1 rb) 1 → t.byteAt (immAddr s imm5 1 rb) = v.setWidth 8))

/-! ### Push and pop -/

/-- R151, R152: push lowers SP by four times the number of moved registers (the whole 8-bit list and LR counted), then
stores them at rising addresses from the new SP, bit 0 first, LR last, one word request each, in this order. The count
is the spec's own decision D15. -/
def Obligations.PushStores : Prop :=
  ∀ (s : State) (r : Bool) (rlist : BitVec 8) (regs : List Reg) (sp : Word),
    regs = movedRegs rlist (if r then [LR] else []) → sp = s.readReg SP - BitVec.ofNat 32 (4 * regs.length) →
    sp = pushBase s r rlist ∧
    ∃ t, exec (.push r rlist) s = .next t ∧ t.readReg SP = sp ∧ RegsKept s t [SP] ∧ t.flags = s.flags ∧
      FlowKept s t ∧
      t.busOps = s.busOps ++ regs.mapIdx (fun j q => BusOp.writeWord (wordAddr sp j) (s.readReg q)) ∧
      BytesKeptBut s t (span (pushBase s r rlist) (4 * regs.length)) ∧
      (s.mem.wf = true → WritableSpan s sp (4 * regs.length) →
        ∀ j q, regs[j]? = some q → t.wordAt (wordAddr sp j) = s.readReg q)

/-- R153: pop loads the listed registers from rising addresses from SP, bit 0 first, the PC word last into
`pc_pending` as it is, then raises SP by four times their number; no flag and not T changes (the spec's own decision
D16). Each word is what the read returns, the reads made one after the other (R51); on plain memory it is the word
there. -/
def Obligations.PopLoads : Prop :=
  ∀ (s : State) (r : Bool) (rlist : BitVec 8) (regs : List Reg) (sp : Word),
    regs = movedRegs rlist (if r then [PC] else []) → sp = s.readReg SP →
    (s.external sp (4 * regs.length) = false → ∀ j < regs.length, wordRead s sp j = s.wordAt (wordAddr sp j)) ∧
    ∃ t, exec (.pop r rlist) s = .next t ∧ t.readReg SP = wordAddr sp regs.length ∧
      (∀ j q, regs[j]? = some q → q ≠ PC → t.readReg q = wordRead s sp j) ∧
      t.pcPending = (if r then wordRead s sp (regs.length - 1) else s.pcPending) ∧
      RegsKept s t (SP :: movedRegs rlist []) ∧ t.flags = s.flags ∧ t.t = s.t ∧ t.pcRead = s.pcRead ∧
      BytesKept s t ∧
      t.busOps = s.busOps ++ regs.mapIdx (fun j _ => BusOp.readWord (wordAddr sp j) (wordRead s sp j))

/-- R154 (which the spec marks derived): on memory where the pushed words land, a push followed (from any state with
that memory and that SP) by the pop of the same list restores every listed low register, sends the pushed LR to
`pc_pending` if `R` = 1, and sets SP back. -/
def Obligations.PushPopRoundTrip : Prop :=
  ∀ (s : State) (r : Bool) (rlist : BitVec 8), s.mem.wf = true →
    WritableSpan s (pushBase s r rlist) (4 * transferCount r rlist) →
    ∃ t, exec (.push r rlist) s = .next t ∧
      ∀ u : State, u.mem = t.mem → u.memMap = t.memMap → u.readReg SP = t.readReg SP →
        ∃ w, exec (.pop r rlist) u = .next w ∧
          (∀ i : LowReg, rlist.getLsbD i.val = true → w.readReg (low i) = s.readReg (low i)) ∧
          (r = true → w.pcPending = s.readReg LR) ∧ w.readReg SP = s.readReg SP

/-! ### Branches -/

/-- R155 to R163: the conditional branches on one flag; taken, `pc_pending` is `pc_read` plus twice the sign-extended
immediate, and nothing else changes; not taken, nothing changes. -/
def Obligations.BranchesOnOneFlag : Prop :=
  ∀ (s : State) (imm8 : BitVec 8),
    exec (.beq imm8) s = .next (if s.flags.z = true then branched s imm8 else s) ∧
    exec (.bne imm8) s = .next (if s.flags.z = false then branched s imm8 else s) ∧
    exec (.bcs imm8) s = .next (if s.flags.c = true then branched s imm8 else s) ∧
    exec (.bcc imm8) s = .next (if s.flags.c = false then branched s imm8 else s) ∧
    exec (.bmi imm8) s = .next (if s.flags.n = true then branched s imm8 else s) ∧
    exec (.bpl imm8) s = .next (if s.flags.n = false then branched s imm8 else s) ∧
    exec (.bvs imm8) s = .next (if s.flags.v = true then branched s imm8 else s) ∧
    exec (.bvc imm8) s = .next (if s.flags.v = false then branched s imm8 else s)

/-- R155, R164 to R169: the conditional branches on several flags. The formulas of HI and LS and the part of Z in GT and
LE are the spec's own decision D9. -/
def Obligations.BranchesOnSeveralFlags : Prop :=
  ∀ (s : State) (imm8 : BitVec 8),
    exec (.bhi imm8) s = .next (if s.flags.c = true ∧ s.flags.z = false then branched s imm8 else s) ∧
    exec (.bls imm8) s = .next (if s.flags.c = false ∨ s.flags.z = true then branched s imm8 else s) ∧
    exec (.bge imm8) s = .next (if s.flags.n = s.flags.v then branched s imm8 else s) ∧
    exec (.blt imm8) s = .next (if s.flags.n ≠ s.flags.v then branched s imm8 else s) ∧
    exec (.bgt imm8) s = .next (if s.flags.z = false ∧ s.flags.n = s.flags.v then branched s imm8 else s) ∧
    exec (.ble imm8) s = .next (if s.flags.z = true ∨ s.flags.n ≠ s.flags.v then branched s imm8 else s)

/-- R173, R174, R175: the halves of the long branch. Step 1 writes LR alone; step 2 branches to the old LR plus twice
the immediate and leaves the return address with bit 0 set in LR; the exchange variant also clears T and aligns nothing.
The order and the unaligned target are the spec's own decisions D6 and D26, the shift by 12 its own derivation. -/
def Obligations.LongBranchHalves : Prop :=
  ∀ (s : State) (imm11 : BitVec 11),
    (∃ t, exec (.blHi imm11) s = .next t ∧
      t.readReg LR = s.pcRead + BitVec.ofInt 32 (4096 * imm11.toInt) ∧ t.flags = s.flags ∧ OnlyRegs s t [LR]) ∧
    (∃ t, exec (.blLo imm11) s = .next t ∧ t.pcPending = s.readReg LR + BitVec.ofNat 32 (2 * imm11.toNat) ∧
      t.readReg LR = (s.pcRead - 2) ||| 1 ∧ t.t = s.t ∧ t.flags = s.flags ∧ RegsKept s t [LR] ∧ NoBus s t) ∧
    (∃ t, exec (.blxLo imm11) s = .next t ∧ t.pcPending = s.readReg LR + BitVec.ofNat 32 (2 * imm11.toNat) ∧
      t.readReg LR = (s.pcRead - 2) ||| 1 ∧ t.t = false ∧ t.flags = s.flags ∧ RegsKept s t [LR] ∧ NoBus s t)

/-- R176, R177: the two halves run one after the other by two steps of the machine, step 1 at `A`: the pair branches to
`A + 4 + D` with `D = sext(hi) * 4096 + lo * 2` and leaves `LR = (A + 4) | 1`; the exchange variant clears T, the plain
one does not; and the halves of a 22-bit offset encode twice that offset. The spec marks R177 derived and R176 decision
D26. -/
def Obligations.LongBranchPairTarget : Prop :=
  (∀ (s s1 : State) (hi lo : BitVec 11), s.t = true → s.fetchWord = encode (.blHi hi) → step s = .next s1 →
    (s1.fetchWord = encode (.blLo lo) → ∃ s2, step s1 = .next s2 ∧
      s2.pcPending = s.fetchAddr + 4 + BitVec.ofInt 32 (hi.toInt * 4096 + lo.toNat * 2) ∧
      s2.readReg LR = (s.fetchAddr + 4) ||| 1 ∧ s2.t = true) ∧
    (s1.fetchWord = encode (.blxLo lo) → ∃ s2, step s1 = .next s2 ∧
      s2.pcPending = s.fetchAddr + 4 + BitVec.ofInt 32 (hi.toInt * 4096 + lo.toNat * 2) ∧
      s2.readReg LR = (s.fetchAddr + 4) ||| 1 ∧ s2.t = false)) ∧
  (∀ off : BitVec 22, (off.extractLsb' 11 11).toInt * 4096 + (off.extractLsb' 0 11).toNat * 2 = 2 * off.toInt)

/-! ### The whole instruction set -/

/-- R24 (which the spec marks derived): the table of flag writers. A flag the table leaves unchanged keeps its value; a
flag it calls written takes a value that does not depend on that flag's old value; MOV clears N. -/
def Obligations.FlagWritersTable : Prop :=
  ∀ (i : Instr) (s t : State), exec i s = .next t →
    (flagUseNZ i = .kept → t.flags.n = s.flags.n ∧ t.flags.z = s.flags.z) ∧
    (flagUseC s i = .kept → t.flags.c = s.flags.c) ∧
    (flagUseV i = .kept → t.flags.v = s.flags.v) ∧
    (flagUseNZ i = .written → ∀ n z, ∃ u, exec i { s with flags := { s.flags with n := n, z := z } } = .next u ∧
      u.flags.n = t.flags.n ∧ u.flags.z = t.flags.z) ∧
    (flagUseC s i = .written → ∀ c, ∃ u, exec i { s with flags := { s.flags with c := c } } = .next u ∧
      u.flags.c = t.flags.c) ∧
    (flagUseV i = .written → ∀ v, ∃ u, exec i { s with flags := { s.flags with v := v } } = .next u ∧
      u.flags.v = t.flags.v) ∧
    ((∃ rd imm8, i = .movImm8 rd imm8) → t.flags.n = false)

/-- R26: T is changed only by branch-exchange and the exchange variant of long-branch step 2, which only ever clear it;
the change is seen at the next fetch, which does not take place (the refusal `leftCompactMode` is log entry 13). -/
def Obligations.ModeBitOnlyCleared : Prop :=
  ∀ (i : Instr) (s t : State), exec i s = .next t → t.t ≠ s.t →
    t.t = false ∧ ((∃ rs g, i = .bx rs g) ∨ (∃ rs g, i = .blxReg rs g) ∨ ∃ imm11, i = .blxLo imm11) ∧
    step t = .refused .leftCompactMode

/-- R16, R17: no instruction changes `pc_read`, and only those of the closed list write `pc_pending`. -/
def Obligations.PendingPcWriters : Prop :=
  ∀ (i : Instr) (s t : State), exec i s = .next t →
    t.pcRead = s.pcRead ∧ (mayWritePending i = false → t.pcPending = s.pcPending)

/-- The frame of every instruction on the registers: only its destination, SP for push and pop, and LR for the linking
branches change. -/
def Obligations.RegisterFrameOfEveryInstruction : Prop :=
  ∀ (i : Instr) (s t : State), exec i s = .next t → RegsKept s t (destRegs i)

/-- The frame of every instruction on memory: every byte reads as before but those at the addresses the instruction
stores to (and their mirrors); the map never changes. An address of an external region answers as before where the
devices are as before (log entry 22). -/
def Obligations.MemoryFrameOfEveryInstruction : Prop :=
  ∀ (i : Instr) (s t : State), exec i s = .next t → BytesKeptBut s t (storedBytes s i)

/-- R46: the bus operations of each instruction are those of R46's table of widths, one for each load and store and 0
to 9 for push and pop (the count is the spec's own decision D15), added after the requests already made; the devices
take a step for each, in order, and no other (R50, R51; decision D18, log entry 22). -/
def Obligations.BusRequestsOfEveryInstruction : Prop :=
  ∀ (i : Instr) (s t : State), exec i s = .next t →
    ∃ ops, t.busOps = s.busOps ++ ops ∧ ops.map BusKind.of = busKinds i ∧ ops.length ≤ 9 ∧
      t.busState = busStateAfter s ops

/-- The invariant: from every state that meets it, a step gives a state that meets it. -/
def Obligations.StepKeepsInvariant : Prop :=
  ∀ s t : State, Inv s → step s = .next t → Inv t

/-- The invariant holds at reset (the values are the model's choice, log entries 1 to 7, 14 and 22) and at every boot
state with an even `ENTRY` and memory in canonical form. -/
def Obligations.InvariantAtReset : Prop :=
  Inv State.reset ∧
  ∀ (regs : Vector Word 15) (flags : Flags) (entry : Word) (memMap : List Region) (mem : Memory)
    (bus : BusState), entry.getLsbD 0 = false → mem.wf = true → Inv (State.boot regs flags entry memMap mem bus)

/-! ### Memory -/

/-- Two memories in canonical form that hold the same bytes are the same list. -/
def Obligations.CanonicalMemoryUnique : Prop :=
  ∀ m1 m2 : Memory, m1.wf = true → m2.wf = true → (∀ k, m1.get k = m2.get k) → m1 = m2

/-- R43: outside the external regions every access and the fetch are little-endian, and a mixed-width access sees the
same bytes. At a misaligned address and across regions this is the model's choice (log entries 9 and 10; decision D17
leaves it to `Bus`), and the fetch is the loop's (decision D19). -/
def Obligations.LittleEndianBytes : Prop :=
  ∀ (s : State) (a : Word),
    (s.external a 2 = false →
      (s.halfAt a).toNat = (s.byteAt a).toNat + 256 * (s.byteAt (a + 1)).toNat) ∧
    (s.external s.fetchAddr 2 = false →
      s.fetchWord.toNat = (s.nextDraw.byteAt s.fetchAddr).toNat + 256 * (s.nextDraw.byteAt (s.fetchAddr + 1)).toNat) ∧
    (s.external a 4 = false →
      (s.wordAt a).toNat = (s.byteAt a).toNat + 256 * (s.byteAt (a + 1)).toNat + 65536 * (s.byteAt (a + 2)).toNat +
        16777216 * (s.byteAt (a + 3)).toNat) ∧
    (∀ v : Half, s.mem.wf = true → WritableSpan s a 2 →
      ∀ k < 2, (s.memWriteHalf a v).byteAt (a + BitVec.ofNat 32 k) = v.extractLsb' (8 * k) 8) ∧
    (∀ v : Word, s.mem.wf = true → WritableSpan s a 4 →
      ∀ k < 4, (s.memWriteWord a v).byteAt (a + BitVec.ofNat 32 k) = v.extractLsb' (8 * k) 8)

/-- A store is seen by the next fetch (R56), for every storing instruction: each byte of the fetched halfword that
lies under a stored byte has its value, so a store that covers the halfword decides the word the loop fetches. That
the loop reads the same bus is the spec's own decision D19; where `Bus` serves the fetch nothing is said (log entry
22). -/
def Obligations.StoreSeenByNextFetch : Prop :=
  ∀ (s : State) (ro rb rd : LowReg) (imm5 : BitVec 5) (v : Word), s.mem.wf = true → v = s.readReg (low rd) →
    (WritableSpan s (regAddr s ro rb) 4 → ∃ t, exec (.strReg ro rb rd) s = .next t ∧
      FetchSees s t (regAddr s ro rb) 4 fun k => v.extractLsb' (8 * k) 8) ∧
    (WritableSpan s (regAddr s ro rb) 2 → ∃ t, exec (.strhReg ro rb rd) s = .next t ∧
      FetchSees s t (regAddr s ro rb) 2 fun k => v.extractLsb' (8 * k) 8) ∧
    (WritableSpan s (regAddr s ro rb) 1 → ∃ t, exec (.strbReg ro rb rd) s = .next t ∧
      FetchSees s t (regAddr s ro rb) 1 fun k => v.extractLsb' (8 * k) 8) ∧
    (WritableSpan s (immAddr s imm5 4 rb) 4 → ∃ t, exec (.strImm imm5 rb rd) s = .next t ∧
      FetchSees s t (immAddr s imm5 4 rb) 4 fun k => v.extractLsb' (8 * k) 8) ∧
    (WritableSpan s (immAddr s imm5 2 rb) 2 → ∃ t, exec (.strhImm imm5 rb rd) s = .next t ∧
      FetchSees s t (immAddr s imm5 2 rb) 2 fun k => v.extractLsb' (8 * k) 8) ∧
    (WritableSpan s (immAddr s imm5 1 rb) 1 → ∃ t, exec (.strbImm imm5 rb rd) s = .next t ∧
      FetchSees s t (immAddr s imm5 1 rb) 1 fun k => v.extractLsb' (8 * k) 8) ∧
    (∀ (r : Bool) (rlist : BitVec 8) (regs : List Reg), regs = movedRegs rlist (if r then [LR] else []) →
      WritableSpan s (pushBase s r rlist) (4 * regs.length) → ∃ t, exec (.push r rlist) s = .next t ∧
        ∀ j q, regs[j]? = some q →
          FetchSees s t (wordAddr (pushBase s r rlist) j) 4 fun k => (s.readReg q).extractLsb' (8 * k) 8)

/-- R57: with the reference map the bus is a total map from addresses to bytes: every address has a cell of its own,
none is read-only, none has side effects, and what is stored at any address, at any alignment, is read back. The
reference bus is the spec's own construction (decision D17, log entry 5). -/
def Obligations.ReferenceBusIsTotal : Prop :=
  ∀ s : State, s.memMap = referenceMap →
    (∀ a, Writable s a) ∧ (∀ a b, SameCell s a b ↔ a = b) ∧ (∀ (a : Word) (n : Nat), n ≤ 2 ^ 32 → WritableSpan s a n) ∧
    (∀ op, s.busAfter op = s.busState) ∧
    (s.mem.wf = true → ∀ a, (∀ v, (s.memWriteByte a v).byteAt a = v) ∧ (∀ v, (s.memWriteHalf a v).halfAt a = v) ∧
      ∀ v, (s.memWriteWord a v).wordAt a = v)

/-- At addresses that are unmapped or read-only a store of any width leaves memory as it was, and a read of an
unmapped byte is a free value (R42; the treatment of stores is the model's choice, log entry 8, the free value log
entry 7). -/
def Obligations.AccessesOutsideWritableMemory : Prop :=
  ∀ (s : State) (a : Word),
    (¬ Writable s a → s.externalAt a = false → ∀ (v : Byte) (b : Word), (s.memWriteByte a v).byteAt b = s.byteAt b) ∧
    ((∀ b ∈ span a 2, ¬ Writable s b) → s.external a 2 = false →
      ∀ (v : Half) (b : Word), (s.memWriteHalf a v).byteAt b = s.byteAt b) ∧
    ((∀ b ∈ span a 4, ¬ Writable s b) → s.external a 4 = false →
      ∀ (v : Word) (b : Word), (s.memWriteWord a v).byteAt b = s.byteAt b) ∧
    (s.regionAt a = none → s.byteAt a = Config.openBusByte s.draw a.toNat)

/-- An access that touches an external region is one call of the parameter `Bus` (R41, R42; decision D18, log entry 22),
with the address as it is (R44): its answer and the next device state are the operation's, and no plain memory changes. Any
other access leaves the devices alone. -/
def Obligations.ExternalAccessIsOneBusCall : Prop :=
  ∀ (s : State) (a : Word),
    (s.externalAt a = true →
      s.memReadByte a = ((Config.bus.readByte s.busState a).1, { s with
        busState := (Config.bus.readByte s.busState a).2
        busOps := s.busOps ++ [.readByte a (Config.bus.readByte s.busState a).1] }) ∧
      ∀ v, s.memWriteByte a v =
        { s with busState := Config.bus.writeByte s.busState a v, busOps := s.busOps ++ [.writeByte a v] }) ∧
    (s.external a 2 = true →
      s.memReadHalf a = ((Config.bus.readHalf s.busState a).1, { s with
        busState := (Config.bus.readHalf s.busState a).2
        busOps := s.busOps ++ [.readHalf a (Config.bus.readHalf s.busState a).1] }) ∧
      ∀ v, s.memWriteHalf a v =
        { s with busState := Config.bus.writeHalf s.busState a v, busOps := s.busOps ++ [.writeHalf a v] }) ∧
    (s.external a 4 = true →
      s.memReadWord a = ((Config.bus.readWord s.busState a).1, { s with
        busState := (Config.bus.readWord s.busState a).2
        busOps := s.busOps ++ [.readWord a (Config.bus.readWord s.busState a).1] }) ∧
      ∀ v, s.memWriteWord a v =
        { s with busState := Config.bus.writeWord s.busState a v, busOps := s.busOps ++ [.writeWord a v] }) ∧
    (s.externalAt a = false → (s.memReadByte a).2.busState = s.busState ∧
      ∀ v, (s.memWriteByte a v).busState = s.busState) ∧
    (s.external a 2 = false → (s.memReadHalf a).2.busState = s.busState ∧
      ∀ v, (s.memWriteHalf a v).busState = s.busState) ∧
    (s.external a 4 = false → (s.memReadWord a).2.busState = s.busState ∧
      ∀ v, (s.memWriteWord a v).busState = s.busState)
end

