-- ==== Sys2Proof/Laws/Encoding.lean ====
section
/-!
SUPPORT. Reading a field of a word put together from fields: what `field` gives of `put`, of an or of two parts, and of the
byte lists of memory.
-/

namespace Sys2Proof

@[simp] theorem field_or (a b : Half) (lo n : Nat) : field (a ||| b) lo n = field a lo n ||| field b lo n := by
  simp [field, BitVec.extractLsb'_or]

@[simp] theorem field_put_same {n : Nat} (v : BitVec n) (lo : Nat) (h : lo + n ≤ 16) : field (put lo v) lo n = v := by
  apply BitVec.eq_of_getLsbD_eq
  intro i hi
  have h1 : lo + i < 16 := by omega
  simp [field, put, hi, h1]

@[simp] theorem field_put_apart {n : Nat} (v : BitVec n) (lo lo' n' : Nat) (h : lo + n ≤ lo' ∨ lo' + n' ≤ lo) :
    field (put lo v) lo' n' = 0 := by
  apply BitVec.eq_of_getLsbD_eq
  intro i hi
  rcases h with h | h
  · have : v.getLsbD (lo' + i - lo) = false := BitVec.getLsbD_of_ge v _ (by omega)
    simp [field, put, this]
  · have : lo' + i < lo := by omega
    simp [field, put, this]

/-- A field of a literal word. -/
@[simp] theorem field_literal (k lo n : Nat) (h : lo + n ≤ 16) :
    field (BitVec.ofNat 16 k) lo n = BitVec.ofNat n (k / 2 ^ lo) := by
  apply BitVec.eq_of_getLsbD_eq
  intro i hi
  have : lo + i < 16 := by omega
  rw [field, BitVec.getLsbD_extractLsb', BitVec.getLsbD_ofNat, BitVec.getLsbD_ofNat, Nat.testBit_div_two_pow]
  simp [hi, this, Nat.add_comm]

@[simp] theorem regOf3_bitsOf3 (r : LowReg) : regOf3 (bitsOf3 r) = r := rfl

@[simp] theorem bitsOf3_regOf3 (b : BitVec 3) : bitsOf3 (regOf3 b) = b := rfl

@[simp] theorem regOf4_hBit_lowBits (r : Reg) : regOf4 (hBit r) (lowBits r) = r := by revert r; decide

@[simp] theorem hBit_regOf4 (h : BitVec 1) (b : BitVec 3) : hBit (regOf4 h b) = h := by revert h b; decide

@[simp] theorem lowBits_regOf4 (h : BitVec 1) (b : BitVec 3) : lowBits (regOf4 h b) = b := by revert h b; decide

/-- The halfword of two bytes is the second above the first (R43). -/
theorem halfOfBytes_eq_append (b0 b1 : Byte) : halfOfBytes b0 b1 = b1 ++ b0 := by
  apply BitVec.eq_of_getLsbD_eq
  intro i hi
  rw [BitVec.getLsbD_append]
  by_cases h : i < 8
  · simp [halfOfBytes, put, h, hi]
  · have : b0.getLsbD i = false := BitVec.getLsbD_of_ge b0 i (by omega)
    simp [halfOfBytes, put, h, hi, this]

/-- A field of a field is a field of the word. -/
theorem extractLsb'_field (w : Half) (lo n i k : Nat) (h : i + k ≤ n) : (field w lo n).extractLsb' i k = field w (lo + i) k := by
  apply BitVec.eq_of_getLsbD_eq
  intro j hj
  simp [field, hj, show i + j < n by omega, Nat.add_assoc]

/-- Two bytes of memory give the halfword they were made from (R43). -/
theorem halfOfBytes_bytesOfHalf (w : Half) : halfOfBytes (w.extractLsb' 0 8) (w.extractLsb' 8 8) = w := by
  apply BitVec.eq_of_getLsbD_eq
  intro i hi
  by_cases h : i < 8
  · simp [halfOfBytes, put, h, hi]
  · have h8 : i - 8 < 8 := by omega
    have e : 8 + (i - 8) = i := by omega
    simp [halfOfBytes, put, h, hi, h8, e]

/-- The decoder on the bytes of a word is the decoder on the word. -/
theorem decode_bytesOfHalf (w : Half) (rest : List Byte) : decode (bytesOfHalf w ++ rest) = .ok (decodeWord w, rest) := by
  simp [bytesOfHalf, decode, halfOfBytes_bytesOfHalf]

end Sys2Proof
end

