-- ==== Sys2Proof/Laws/Flags.lean ====
section
/-!
SUPPORT. One lemma per field per flag operation, and the components of the flag sets of addition and subtraction.
-/

namespace Sys2Proof.Machine

variable (f : Flags)

@[simp] theorem Flags.setNZ_n (r : Word) : (f.setNZ r).n = r.msb := rfl
@[simp] theorem Flags.setNZ_z (r : Word) : (f.setNZ r).z = (r == 0) := rfl
@[simp] theorem Flags.setNZ_c (r : Word) : (f.setNZ r).c = f.c := rfl
@[simp] theorem Flags.setNZ_v (r : Word) : (f.setNZ r).v = f.v := rfl

@[simp] theorem Flags.setC_n (b : Bool) : (f.setC b).n = f.n := rfl
@[simp] theorem Flags.setC_z (b : Bool) : (f.setC b).z = f.z := rfl
@[simp] theorem Flags.setC_c (b : Bool) : (f.setC b).c = b := rfl
@[simp] theorem Flags.setC_v (b : Bool) : (f.setC b).v = f.v := rfl

@[simp] theorem Flags.setVAdd_n (a b r : Word) : (f.setVAdd a b r).n = f.n := rfl
@[simp] theorem Flags.setVAdd_z (a b r : Word) : (f.setVAdd a b r).z = f.z := rfl
@[simp] theorem Flags.setVAdd_c (a b r : Word) : (f.setVAdd a b r).c = f.c := rfl
theorem Flags.setVAdd_v (a b r : Word) : (f.setVAdd a b r).v = (~~~(a ^^^ b) &&& (a ^^^ r)).msb := rfl

@[simp] theorem Flags.setVSub_n (a b r : Word) : (f.setVSub a b r).n = f.n := rfl
@[simp] theorem Flags.setVSub_z (a b r : Word) : (f.setVSub a b r).z = f.z := rfl
@[simp] theorem Flags.setVSub_c (a b r : Word) : (f.setVSub a b r).c = f.c := rfl
theorem Flags.setVSub_v (a b r : Word) : (f.setVSub a b r).v = ((a ^^^ b) &&& (a ^^^ r)).msb := rfl

@[simp] theorem addFlags_fst (a b : Word) : (addFlags f a b).1 = a + b := rfl
@[simp] theorem addFlags_n (a b : Word) : (addFlags f a b).2.n = (a + b).msb := rfl
@[simp] theorem addFlags_z (a b : Word) : (addFlags f a b).2.z = (a + b == 0) := rfl
theorem addFlags_c (a b : Word) : (addFlags f a b).2.c = (a + b).ult a := rfl
theorem addFlags_v (a b : Word) : (addFlags f a b).2.v = (f.setVAdd a b (a + b)).v := rfl

@[simp] theorem subFlags_fst (a b : Word) : (subFlags f a b).1 = a - b := rfl
@[simp] theorem subFlags_n (a b : Word) : (subFlags f a b).2.n = (a - b).msb := rfl
@[simp] theorem subFlags_z (a b : Word) : (subFlags f a b).2.z = (a - b == 0) := rfl
theorem subFlags_c (a b : Word) : (subFlags f a b).2.c = (a - b).ult b := rfl
theorem subFlags_v (a b : Word) : (subFlags f a b).2.v = (f.setVSub a b (a - b)).v := rfl

/-- The flags `setNZ` leaves describe the value (R81). -/
theorem nzOf_setNZ (r : Word) : NZof (f.setNZ r) r := by
  exact ⟨BitVec.msb_eq_getLsbD_last r, beq_eq_decide r 0⟩

/-- Only N and Z matter to `NZof`. -/
theorem nzOf_congr {g h : Flags} (v : Word) (hn : g.n = h.n) (hz : g.z = h.z) : NZof g v ↔ NZof h v := by
  simp [NZof, hn, hz]

theorem cvOfAdd_congr {g h : Flags} (a b : Word) (hc : g.c = h.c) (hv : g.v = h.v) : CVofAdd g a b ↔ CVofAdd h a b := by
  simp [CVofAdd, hc, hv]

theorem cvOfSub_congr {g h : Flags} (a b : Word) (hc : g.c = h.c) (hv : g.v = h.v) : CVofSub g a b ↔ CVofSub h a b := by
  simp [CVofSub, hc, hv]

end Sys2Proof.Machine
end

