-- ==== Sys2Proof/Laws/State.lean ====
section
/-!
SUPPORT. One lemma per field per update of State, so that no later proof unfolds a record update.
-/

namespace Sys2Proof.Machine

variable (s : State)

/-! ### Updates that are record updates -/

@[simp] theorem State.setPending_regs (x : Word) : (s.setPending x).regs = s.regs := rfl
@[simp] theorem State.setPending_pcRead (x : Word) : (s.setPending x).pcRead = s.pcRead := rfl
@[simp] theorem State.setPending_pcPending (x : Word) : (s.setPending x).pcPending = x := rfl
@[simp] theorem State.setPending_flags (x : Word) : (s.setPending x).flags = s.flags := rfl
@[simp] theorem State.setPending_t (x : Word) : (s.setPending x).t = s.t := rfl
@[simp] theorem State.setPending_memMap (x : Word) : (s.setPending x).memMap = s.memMap := rfl
@[simp] theorem State.setPending_mem (x : Word) : (s.setPending x).mem = s.mem := rfl
@[simp] theorem State.setPending_busOps (x : Word) : (s.setPending x).busOps = s.busOps := rfl
@[simp] theorem State.setPending_busState (x : Word) : (s.setPending x).busState = s.busState := rfl
@[simp] theorem State.setPending_draw (x : Word) : (s.setPending x).draw = s.draw := rfl

@[simp] theorem State.setT_regs (b : Bool) : (s.setT b).regs = s.regs := rfl
@[simp] theorem State.setT_pcRead (b : Bool) : (s.setT b).pcRead = s.pcRead := rfl
@[simp] theorem State.setT_pcPending (b : Bool) : (s.setT b).pcPending = s.pcPending := rfl
@[simp] theorem State.setT_flags (b : Bool) : (s.setT b).flags = s.flags := rfl
@[simp] theorem State.setT_t (b : Bool) : (s.setT b).t = b := rfl
@[simp] theorem State.setT_memMap (b : Bool) : (s.setT b).memMap = s.memMap := rfl
@[simp] theorem State.setT_mem (b : Bool) : (s.setT b).mem = s.mem := rfl
@[simp] theorem State.setT_busOps (b : Bool) : (s.setT b).busOps = s.busOps := rfl
@[simp] theorem State.setT_busState (b : Bool) : (s.setT b).busState = s.busState := rfl
@[simp] theorem State.setT_draw (b : Bool) : (s.setT b).draw = s.draw := rfl

@[simp] theorem State.setFlags_regs (f : Flags) : (s.setFlags f).regs = s.regs := rfl
@[simp] theorem State.setFlags_pcRead (f : Flags) : (s.setFlags f).pcRead = s.pcRead := rfl
@[simp] theorem State.setFlags_pcPending (f : Flags) : (s.setFlags f).pcPending = s.pcPending := rfl
@[simp] theorem State.setFlags_flags (f : Flags) : (s.setFlags f).flags = f := rfl
@[simp] theorem State.setFlags_t (f : Flags) : (s.setFlags f).t = s.t := rfl
@[simp] theorem State.setFlags_memMap (f : Flags) : (s.setFlags f).memMap = s.memMap := rfl
@[simp] theorem State.setFlags_mem (f : Flags) : (s.setFlags f).mem = s.mem := rfl
@[simp] theorem State.setFlags_busOps (f : Flags) : (s.setFlags f).busOps = s.busOps := rfl
@[simp] theorem State.setFlags_busState (f : Flags) : (s.setFlags f).busState = s.busState := rfl
@[simp] theorem State.setFlags_draw (f : Flags) : (s.setFlags f).draw = s.draw := rfl

@[simp] theorem State.request_regs (op : BusOp) : (s.request op).regs = s.regs := rfl
@[simp] theorem State.request_pcRead (op : BusOp) : (s.request op).pcRead = s.pcRead := rfl
@[simp] theorem State.request_pcPending (op : BusOp) : (s.request op).pcPending = s.pcPending := rfl
@[simp] theorem State.request_flags (op : BusOp) : (s.request op).flags = s.flags := rfl
@[simp] theorem State.request_t (op : BusOp) : (s.request op).t = s.t := rfl
@[simp] theorem State.request_memMap (op : BusOp) : (s.request op).memMap = s.memMap := rfl
@[simp] theorem State.request_mem (op : BusOp) : (s.request op).mem = s.mem := rfl
@[simp] theorem State.request_busOps (op : BusOp) : (s.request op).busOps = s.busOps ++ [op] := rfl
@[simp] theorem State.request_busState (op : BusOp) : (s.request op).busState = s.busAfter op := rfl
@[simp] theorem State.request_draw (op : BusOp) : (s.request op).draw = s.draw := rfl

@[simp] theorem State.nextDraw_regs : s.nextDraw.regs = s.regs := rfl
@[simp] theorem State.nextDraw_pcRead : s.nextDraw.pcRead = s.pcRead := rfl
@[simp] theorem State.nextDraw_pcPending : s.nextDraw.pcPending = s.pcPending := rfl
@[simp] theorem State.nextDraw_flags : s.nextDraw.flags = s.flags := rfl
@[simp] theorem State.nextDraw_t : s.nextDraw.t = s.t := rfl
@[simp] theorem State.nextDraw_memMap : s.nextDraw.memMap = s.memMap := rfl
@[simp] theorem State.nextDraw_mem : s.nextDraw.mem = s.mem := rfl
@[simp] theorem State.nextDraw_busOps : s.nextDraw.busOps = s.busOps := rfl
@[simp] theorem State.nextDraw_busState : s.nextDraw.busState = s.busState := rfl
@[simp] theorem State.nextDraw_draw : s.nextDraw.draw = s.draw + 1 := rfl

@[simp] theorem State.beginStep_regs : s.beginStep.regs = s.regs := rfl
@[simp] theorem State.beginStep_pcRead : s.beginStep.pcRead = s.fetchAddr + 4 := rfl
@[simp] theorem State.beginStep_pcPending : s.beginStep.pcPending = s.fetchAddr + 2 := rfl
@[simp] theorem State.beginStep_flags : s.beginStep.flags = s.flags := rfl
@[simp] theorem State.beginStep_t : s.beginStep.t = s.t := rfl
@[simp] theorem State.beginStep_memMap : s.beginStep.memMap = s.memMap := rfl
@[simp] theorem State.beginStep_mem : s.beginStep.mem = s.mem := rfl
@[simp] theorem State.beginStep_busOps : s.beginStep.busOps = [] := rfl
@[simp] theorem State.beginStep_busState :
    s.beginStep.busState = s.busAfter (.readHalf s.fetchAddr s.fetchWord) := rfl
@[simp] theorem State.beginStep_draw : s.beginStep.draw = s.draw + 1 + 1 := rfl

/-! ### Writing a register -/

@[simp] theorem State.writeReg_pcRead (r : Reg) (v : Word) : (s.writeReg r v).pcRead = s.pcRead := by
  unfold State.writeReg; split <;> rfl
@[simp] theorem State.writeReg_flags (r : Reg) (v : Word) : (s.writeReg r v).flags = s.flags := by
  unfold State.writeReg; split <;> rfl
@[simp] theorem State.writeReg_t (r : Reg) (v : Word) : (s.writeReg r v).t = s.t := by
  unfold State.writeReg; split <;> rfl
@[simp] theorem State.writeReg_memMap (r : Reg) (v : Word) : (s.writeReg r v).memMap = s.memMap := by
  unfold State.writeReg; split <;> rfl
@[simp] theorem State.writeReg_mem (r : Reg) (v : Word) : (s.writeReg r v).mem = s.mem := by
  unfold State.writeReg; split <;> rfl
@[simp] theorem State.writeReg_busOps (r : Reg) (v : Word) : (s.writeReg r v).busOps = s.busOps := by
  unfold State.writeReg; split <;> rfl
@[simp] theorem State.writeReg_busState (r : Reg) (v : Word) : (s.writeReg r v).busState = s.busState := by
  unfold State.writeReg; split <;> rfl
@[simp] theorem State.writeReg_draw (r : Reg) (v : Word) : (s.writeReg r v).draw = s.draw := by
  unfold State.writeReg; split <;> rfl

@[simp] theorem State.writeReg_pcPending_PC (v : Word) : (s.writeReg PC v).pcPending = v := rfl

theorem State.writeReg_pcPending_stored (r : Reg) (v : Word) (h : r ≠ PC) : (s.writeReg r v).pcPending = s.pcPending := by
  have : r.val < 15 := by
    have := r.isLt
    have : r.val ≠ 15 := fun e => h (Fin.ext e)
    omega
  simp [State.writeReg, this]

theorem State.writeReg_PC (v : Word) : s.writeReg PC v = s.setPending v := rfl

@[simp] theorem State.readReg_PC : s.readReg PC = s.pcRead := rfl

/-- Register 15 reads `pc_read`, which no register write changes (R16, R18). -/
@[simp] theorem State.readReg_writeReg_same (r : Reg) (v : Word) (h : r ≠ PC) : (s.writeReg r v).readReg r = v := by
  have : r.val < 15 := by
    have := r.isLt
    have : r.val ≠ 15 := fun e => h (Fin.ext e)
    omega
  simp [State.writeReg, State.readReg, this]

theorem State.readReg_writeReg_other (r q : Reg) (v : Word) (h : q ≠ r) : (s.writeReg r v).readReg q = s.readReg q := by
  have hv : r.val ≠ q.val := fun e => h (Fin.ext e.symm)
  unfold State.writeReg State.readReg
  split <;> split <;> simp [Vector.getElem_set_ne, hv]

/-- Writing two different registers commutes with reading a third; writing one twice keeps the last value. -/
theorem State.readReg_writeReg (r q : Reg) (v : Word) :
    (s.writeReg r v).readReg q = if q = r ∧ r ≠ PC then v else s.readReg q := by
  by_cases h : q = r
  · subst h
    by_cases hp : q = PC
    · subst hp; rfl
    · simp [hp]
  · simp [h, State.readReg_writeReg_other]

/-! ### Reading a register after an update that touches none -/

@[simp] theorem State.setPending_readReg (x : Word) (r : Reg) : (s.setPending x).readReg r = s.readReg r := rfl
@[simp] theorem State.setT_readReg (b : Bool) (r : Reg) : (s.setT b).readReg r = s.readReg r := rfl
@[simp] theorem State.setFlags_readReg (f : Flags) (r : Reg) : (s.setFlags f).readReg r = s.readReg r := rfl
@[simp] theorem State.request_readReg (op : BusOp) (r : Reg) : (s.request op).readReg r = s.readReg r := rfl
@[simp] theorem State.nextDraw_readReg (r : Reg) : s.nextDraw.readReg r = s.readReg r := rfl

/-- A low register is no PC (R14). -/
@[simp] theorem low_ne_PC (r : LowReg) : low r ≠ PC := by revert r; decide

@[simp] theorem low_ne_SP (r : LowReg) : low r ≠ SP := by revert r; decide

@[simp] theorem low_ne_LR (r : LowReg) : low r ≠ LR := by revert r; decide

@[simp] theorem SP_ne_PC : SP ≠ PC := by decide

@[simp] theorem LR_ne_PC : LR ≠ PC := by decide

@[simp] theorem LR_ne_SP : LR ≠ SP := by decide

@[simp] theorem SP_ne_LR : SP ≠ LR := by decide

theorem low_injective : Function.Injective low := by decide

/-! ### Storing to memory -/

@[simp] theorem State.putByte_regs (a : Word) (v : Byte) : (s.putByte a v).regs = s.regs := by
  unfold State.putByte; split <;> try split
  all_goals rfl
@[simp] theorem State.putByte_pcRead (a : Word) (v : Byte) : (s.putByte a v).pcRead = s.pcRead := by
  unfold State.putByte; split <;> try split
  all_goals rfl
@[simp] theorem State.putByte_pcPending (a : Word) (v : Byte) : (s.putByte a v).pcPending = s.pcPending := by
  unfold State.putByte; split <;> try split
  all_goals rfl
@[simp] theorem State.putByte_flags (a : Word) (v : Byte) : (s.putByte a v).flags = s.flags := by
  unfold State.putByte; split <;> try split
  all_goals rfl
@[simp] theorem State.putByte_t (a : Word) (v : Byte) : (s.putByte a v).t = s.t := by
  unfold State.putByte; split <;> try split
  all_goals rfl
@[simp] theorem State.putByte_memMap (a : Word) (v : Byte) : (s.putByte a v).memMap = s.memMap := by
  unfold State.putByte; split <;> try split
  all_goals rfl
@[simp] theorem State.putByte_busOps (a : Word) (v : Byte) : (s.putByte a v).busOps = s.busOps := by
  unfold State.putByte; split <;> try split
  all_goals rfl
@[simp] theorem State.putByte_busState (a : Word) (v : Byte) : (s.putByte a v).busState = s.busState := by
  unfold State.putByte; split <;> try split
  all_goals rfl
@[simp] theorem State.putByte_draw (a : Word) (v : Byte) : (s.putByte a v).draw = s.draw := by
  unfold State.putByte; split <;> try split
  all_goals rfl
@[simp] theorem State.putByte_readReg (a : Word) (v : Byte) (r : Reg) : (s.putByte a v).readReg r = s.readReg r := by
  simp [State.readReg]

@[simp] theorem State.putHalf_regs (a : Word) (v : Half) : (s.putHalf a v).regs = s.regs := by
  unfold State.putHalf; split <;> simp
@[simp] theorem State.putHalf_pcRead (a : Word) (v : Half) : (s.putHalf a v).pcRead = s.pcRead := by
  unfold State.putHalf; split <;> simp
@[simp] theorem State.putHalf_pcPending (a : Word) (v : Half) : (s.putHalf a v).pcPending = s.pcPending := by
  unfold State.putHalf; split <;> simp
@[simp] theorem State.putHalf_flags (a : Word) (v : Half) : (s.putHalf a v).flags = s.flags := by
  unfold State.putHalf; split <;> simp
@[simp] theorem State.putHalf_t (a : Word) (v : Half) : (s.putHalf a v).t = s.t := by
  unfold State.putHalf; split <;> simp
@[simp] theorem State.putHalf_memMap (a : Word) (v : Half) : (s.putHalf a v).memMap = s.memMap := by
  unfold State.putHalf; split <;> simp
@[simp] theorem State.putHalf_busOps (a : Word) (v : Half) : (s.putHalf a v).busOps = s.busOps := by
  unfold State.putHalf; split <;> simp
@[simp] theorem State.putHalf_busState (a : Word) (v : Half) : (s.putHalf a v).busState = s.busState := by
  unfold State.putHalf; split <;> simp
@[simp] theorem State.putHalf_draw (a : Word) (v : Half) : (s.putHalf a v).draw = s.draw := by
  unfold State.putHalf; split <;> simp
@[simp] theorem State.putHalf_readReg (a : Word) (v : Half) (r : Reg) : (s.putHalf a v).readReg r = s.readReg r := by
  simp [State.readReg]

@[simp] theorem State.putWord_regs (a : Word) (v : Word) : (s.putWord a v).regs = s.regs := by
  unfold State.putWord; split <;> simp
@[simp] theorem State.putWord_pcRead (a : Word) (v : Word) : (s.putWord a v).pcRead = s.pcRead := by
  unfold State.putWord; split <;> simp
@[simp] theorem State.putWord_pcPending (a : Word) (v : Word) : (s.putWord a v).pcPending = s.pcPending := by
  unfold State.putWord; split <;> simp
@[simp] theorem State.putWord_flags (a : Word) (v : Word) : (s.putWord a v).flags = s.flags := by
  unfold State.putWord; split <;> simp
@[simp] theorem State.putWord_t (a : Word) (v : Word) : (s.putWord a v).t = s.t := by
  unfold State.putWord; split <;> simp
@[simp] theorem State.putWord_memMap (a : Word) (v : Word) : (s.putWord a v).memMap = s.memMap := by
  unfold State.putWord; split <;> simp
@[simp] theorem State.putWord_busOps (a : Word) (v : Word) : (s.putWord a v).busOps = s.busOps := by
  unfold State.putWord; split <;> simp
@[simp] theorem State.putWord_busState (a : Word) (v : Word) : (s.putWord a v).busState = s.busState := by
  unfold State.putWord; split <;> simp
@[simp] theorem State.putWord_draw (a : Word) (v : Word) : (s.putWord a v).draw = s.draw := by
  unfold State.putWord; split <;> simp
@[simp] theorem State.putWord_readReg (a : Word) (v : Word) (r : Reg) : (s.putWord a v).readReg r = s.readReg r := by
  simp [State.readReg]

/-! ### The bus operations -/

@[simp] theorem State.memReadByte_fst (a : Word) : (s.memReadByte a).1 = s.byteAt a := rfl
@[simp] theorem State.memReadByte_snd (a : Word) : (s.memReadByte a).2 = s.request (.readByte a (s.byteAt a)) := rfl
theorem State.memWriteByte_eq (a : Word) (v : Byte) : s.memWriteByte a v = (s.putByte a v).request (.writeByte a v) := rfl

@[simp] theorem State.memReadHalf_fst (a : Word) : (s.memReadHalf a).1 = s.halfAt a := rfl
@[simp] theorem State.memReadHalf_snd (a : Word) : (s.memReadHalf a).2 = s.request (.readHalf a (s.halfAt a)) := rfl
theorem State.memWriteHalf_eq (a : Word) (v : Half) : s.memWriteHalf a v = (s.putHalf a v).request (.writeHalf a v) := rfl

@[simp] theorem State.memReadWord_fst (a : Word) : (s.memReadWord a).1 = s.wordAt a := rfl
@[simp] theorem State.memReadWord_snd (a : Word) : (s.memReadWord a).2 = s.request (.readWord a (s.wordAt a)) := rfl
theorem State.memWriteWord_eq (a : Word) (v : Word) : s.memWriteWord a v = (s.putWord a v).request (.writeWord a v) := rfl

end Sys2Proof.Machine
end

