-- ==== Sys2Proof/Laws/Memory.lean ====
section
/-!
SUPPORT. The laws of memory: read after write, the canonical form, and what a store does to the bytes the bus answers.
-/

namespace Sys2Proof.Machine

/-! ### Cells -/

/-- A cell below every listed one is not listed. -/
theorem Memory.get_above (m : Memory) : ∀ i, Memory.wf m = true → Memory.above i m = true →
    Memory.get m i = Config.unwrittenByte := by
  induction m with
  | nil => intro i _ _; rfl
  | cons c m ih =>
    obtain ⟨k, b⟩ := c
    intro i hw ha
    simp only [Memory.wf, Bool.and_eq_true] at hw
    simp only [Memory.above, decide_eq_true_eq] at ha
    have hm : Memory.above i m = true := by
      cases m with
      | nil => rfl
      | cons d m =>
        have := hw.1.2
        simp only [Memory.above, decide_eq_true_eq] at this ⊢
        omega
    simp only [Memory.get, ih i hw.2 hm]
    split
    · omega
    · rfl

theorem Memory.get_set_same (m : Memory) (i : Nat) (v : Byte) (h : m.wf = true) : (m.set i v).get i = v := by
  induction m with
  | nil => simp only [Memory.set]; split <;> simp_all [Memory.get]
  | cons c m ih =>
    obtain ⟨k, b⟩ := c
    have hw := h
    simp only [Memory.wf, Bool.and_eq_true] at hw
    simp only [Memory.set]
    split
    · next hlt =>
      split
      · next hv =>
        rw [hv]
        exact Memory.get_above _ _ h (by simp only [Memory.above, decide_eq_true_eq]; omega)
      · simp [Memory.get]
    · split
      · next heq =>
        split
        · next hv =>
          rw [hv, heq]
          exact Memory.get_above _ _ hw.2 hw.1.2
        · simp [Memory.get]
      · next hne =>
        simp only [Memory.get]
        rw [if_neg (fun e => hne e.symm)]
        exact ih hw.2

theorem Memory.get_set_other (m : Memory) (i j : Nat) (v : Byte) (h : j ≠ i) : (m.set i v).get j = m.get j := by
  induction m with
  | nil => simp only [Memory.set]; split <;> simp [Memory.get]; intro e; exact absurd e.symm h
  | cons c m ih =>
    obtain ⟨k, b⟩ := c
    simp only [Memory.set]
    split
    · split
      · rfl
      · simp only [Memory.get]; rw [if_neg (fun e => h e.symm)]
    · split
      · next heq =>
        split
        · simp only [Memory.get]; rw [if_neg (fun e => h (by omega))]
        · simp only [Memory.get]; rw [if_neg (fun e => h e.symm), if_neg (fun e => h (by omega))]
      · simp only [Memory.get, ih]

theorem Memory.above_set (m : Memory) (lo i : Nat) (v : Byte) (hm : m.above lo = true) (hi : lo < i)
    (hw : m.wf = true) : (m.set i v).above lo = true := by
  cases m with
  | nil => simp only [Memory.set]; split <;> simp [Memory.above, hi]
  | cons c m =>
    obtain ⟨k, b⟩ := c
    simp only [Memory.above, decide_eq_true_eq] at hm
    simp only [Memory.wf, Bool.and_eq_true] at hw
    simp only [Memory.set]
    split
    · split <;> simp [Memory.above, hm, hi]
    · split
      · split
        · cases m with
          | nil => rfl
          | cons d m =>
            have := hw.1.2
            simp only [Memory.above, decide_eq_true_eq] at this ⊢
            omega
        · simp [Memory.above, hi]
      · simp [Memory.above, hm]

/-- Every store keeps the canonical form. -/
theorem Memory.set_wf (m : Memory) (i : Nat) (v : Byte) (h : m.wf = true) : (m.set i v).wf = true := by
  induction m with
  | nil => simp only [Memory.set]; split <;> simp_all [Memory.wf, Memory.above]
  | cons c m ih =>
    obtain ⟨k, b⟩ := c
    have hw := h
    simp only [Memory.wf, Bool.and_eq_true] at hw
    simp only [Memory.set]
    split
    · next hlt =>
      split
      · exact h
      · next hv =>
        have hi : Memory.wf ((i, v) :: (k, b) :: m) = (v != Config.unwrittenByte && decide (i < k) && Memory.wf ((k, b) :: m)) := rfl
        simp [hi, h, hlt, hv]
    · next hge =>
      split
      · next heq =>
        split
        · exact hw.2
        · next hv => subst heq; simp [Memory.wf, hw.1.2, hw.2]; simpa using hv
      · next hne =>
        simp only [Memory.wf, Bool.and_eq_true]
        exact ⟨⟨hw.1.1, Memory.above_set m k i v hw.1.2 (by omega) hw.2⟩, ih hw.2⟩

/-- The memory of the reset state has the canonical form. -/
theorem State.reset_mem_wf : State.reset.mem.wf = true := rfl

/-! ### The map -/

/-- The addresses of one byte, of a halfword and of a word. -/
theorem span_one (a : Word) : span a 1 = [a] := by simp [span]

theorem span_two (a : Word) : span a 2 = [a, a + 1] := by simp [span, List.range_succ]

theorem span_four (a : Word) : span a 4 = [a, a + 1, a + 2, a + 3] := by simp [span, List.range_succ]

theorem State.regionAt_congr {s t : State} (h : t.memMap = s.memMap) (a : Word) : t.regionAt a = s.regionAt a := by
  simp [State.regionAt, h]

theorem State.cellAt_congr {s t : State} (h : t.memMap = s.memMap) (a : Word) : t.cellAt a = s.cellAt a := by
  simp [State.cellAt, State.regionAt_congr h]

theorem State.externalAt_congr {s t : State} (h : t.memMap = s.memMap) (a : Word) :
    t.externalAt a = s.externalAt a := by simp [State.externalAt, State.regionAt_congr h]

theorem State.external_congr {s t : State} (h : t.memMap = s.memMap) (a : Word) (n : Nat) :
    t.external a n = s.external a n := by
  have : t.externalAt = s.externalAt := funext (State.externalAt_congr h)
  simp [State.external, this]

@[simp] theorem State.external_one (s : State) (a : Word) : s.external a 1 = s.externalAt a := by
  simp [State.external, span_one]

/-- An access of plain memory touches no external address. -/
theorem State.externalAt_of_external {s : State} {a b : Word} {n : Nat} (h : s.external a n = false) (hb : b ∈ span a n) :
    s.externalAt b = false := by
  simpa using List.any_eq_false.1 h b hb

theorem State.external_of_externalAt {s : State} {a : Word} {n : Nat} (h : ∀ b ∈ span a n, s.externalAt b = false) :
    s.external a n = false := by
  rw [State.external, List.any_eq_false]
  intro b hb
  simp [h b hb]

theorem State.externalAt_of_cellAt {s : State} {a : Word} {k : Nat} (h : s.cellAt a = some k) : s.externalAt a = false := by
  unfold State.cellAt at h
  unfold State.externalAt
  cases hr : s.regionAt a with
  | none => rfl
  | some r => cases he : r.external <;> simp_all

theorem sameCell_congr {s t : State} (h : t.memMap = s.memMap) (a b : Word) : SameCell t a b ↔ SameCell s a b := by
  simp [SameCell, State.cellAt_congr h]

theorem sameCell_symm {s : State} {a b : Word} (h : SameCell s a b) : SameCell s b a :=
  let ⟨k, ha, hb⟩ := h
  ⟨k, hb, ha⟩

theorem writable_congr {s t : State} (h : t.memMap = s.memMap) (a : Word) : Writable t a ↔ Writable s a := by
  simp [Writable, State.regionAt_congr h]

theorem writableSpan_congr {s t : State} (h : t.memMap = s.memMap) (a : Word) (n : Nat) :
    WritableSpan t a n ↔ WritableSpan s a n := by
  simp [WritableSpan, writable_congr h, sameCell_congr h]

theorem cellAt_of_writable {s : State} {a : Word} (h : Writable s a) : ∃ k, s.cellAt a = some k := by
  obtain ⟨r, hr, _, he⟩ := h
  exact ⟨r.cell a, by simp [State.cellAt, hr, he]⟩

theorem sameCell_self {s : State} {a : Word} (h : Writable s a) : SameCell s a a :=
  let ⟨k, hk⟩ := cellAt_of_writable h
  ⟨k, hk, hk⟩

theorem externalAt_of_writable {s : State} {a : Word} (h : Writable s a) : s.externalAt a = false :=
  let ⟨_, hk⟩ := cellAt_of_writable h
  State.externalAt_of_cellAt hk

/-- Writable bytes are bytes of plain memory. -/
theorem external_of_writableSpan {s : State} {a : Word} {n : Nat} (h : WritableSpan s a n) : s.external a n = false :=
  State.external_of_externalAt fun b hb => externalAt_of_writable (h.1 b hb)

/-! ### The bytes the bus answers -/

theorem State.byteAt_mem {s : State} {a : Word} (h : s.externalAt a = false) : s.byteAt a = s.memByteAt a := by
  simp [State.byteAt, h]

/-- A halfword of plain memory is its two bytes, little-endian. -/
theorem State.halfAt_mem {s : State} {a : Word} (h : s.external a 2 = false) :
    s.halfAt a = s.byteAt (a + 1) ++ s.byteAt a := by
  rw [State.byteAt_mem (State.externalAt_of_external h (by simp [span_two])),
    State.byteAt_mem (State.externalAt_of_external h (by simp [span_two])), State.halfAt]
  simp [h]

/-- A word of plain memory is its four bytes, little-endian. -/
theorem State.wordAt_mem {s : State} {a : Word} (h : s.external a 4 = false) :
    s.wordAt a = ((s.byteAt (a + 3) ++ s.byteAt (a + 2)) ++ s.byteAt (a + 1)) ++ s.byteAt a := by
  rw [State.byteAt_mem (State.externalAt_of_external h (by simp [span_four])),
    State.byteAt_mem (State.externalAt_of_external h (by simp [span_four])),
    State.byteAt_mem (State.externalAt_of_external h (by simp [span_four])),
    State.byteAt_mem (State.externalAt_of_external h (by simp [span_four])), State.wordAt]
  simp [h]

theorem State.memByteAt_congr {s t : State} (hm : t.memMap = s.memMap) (hc : t.mem = s.mem) (hd : t.draw = s.draw)
    (a : Word) : t.memByteAt a = s.memByteAt a := by
  simp [State.memByteAt, State.cellAt_congr hm, hc, hd]

/-- What a read answers is a function of the map, memory, the draw, and in an external region of the devices. -/
theorem State.byteAt_congr {s t : State} (hm : t.memMap = s.memMap) (hc : t.mem = s.mem) (hd : t.draw = s.draw)
    (a : Word) (hb : AnswersKept s t a) : t.byteAt a = s.byteAt a := by
  unfold State.byteAt
  rw [State.external_congr hm, State.memByteAt_congr hm hc hd]
  split
  · next h => rw [hb (by simpa using h)]
  · rfl

theorem State.wordAt_congr {s t : State} (hm : t.memMap = s.memMap) (hc : t.mem = s.mem) (hd : t.draw = s.draw)
    (hb : t.busState = s.busState) (a : Word) : t.wordAt a = s.wordAt a := by
  simp only [State.wordAt, State.external_congr hm, State.memByteAt_congr hm hc hd, hb]

/-- In an external region a read answers as before if the devices are as before. -/
theorem State.byteAt_external {s t : State} (hm : t.memMap = s.memMap) {a : Word} (h : s.externalAt a = true)
    (hb : t.busState = s.busState) : t.byteAt a = s.byteAt a := by
  simp [State.byteAt, State.externalAt_congr hm, h, hb]

/-- A byte with a cell of plain memory is a function of the map and memory alone. -/
theorem State.byteAt_cell {s t : State} (hm : t.memMap = s.memMap) (hc : t.mem = s.mem) {a : Word} {k : Nat}
    (h : s.cellAt a = some k) : t.byteAt a = s.byteAt a := by
  have hx := State.externalAt_of_cellAt h
  rw [State.byteAt_mem hx, State.byteAt_mem ((State.externalAt_congr hm a).trans hx)]
  simp only [State.memByteAt, State.cellAt_congr hm, h, hc]

/-! ### The devices -/

theorem State.busAfter_congr {s t : State} (hm : t.memMap = s.memMap) (hb : t.busState = s.busState) (op : BusOp) :
    t.busAfter op = s.busAfter op := by
  cases op <;> simp only [State.busAfter, State.external_congr hm, hb]

@[simp] theorem State.busAfter_putByte (s : State) (a : Word) (v : Byte) (op : BusOp) :
    (s.putByte a v).busAfter op = s.busAfter op := State.busAfter_congr (by simp) (by simp) op

@[simp] theorem State.busAfter_putHalf (s : State) (a : Word) (v : Half) (op : BusOp) :
    (s.putHalf a v).busAfter op = s.busAfter op := State.busAfter_congr (by simp) (by simp) op

@[simp] theorem State.busAfter_putWord (s : State) (a v : Word) (op : BusOp) :
    (s.putWord a v).busAfter op = s.busAfter op := State.busAfter_congr (by simp) (by simp) op

theorem busStateAfter_congr {s t : State} (hm : t.memMap = s.memMap) (hb : t.busState = s.busState) (ops : List BusOp) :
    busStateAfter t ops = busStateAfter s ops := by
  have h : ∀ b op, ({ t with busState := b }).busAfter op = ({ s with busState := b }).busAfter op := fun b op =>
    State.busAfter_congr (s := { s with busState := b }) (t := { t with busState := b }) hm rfl op
  simp only [busStateAfter, hb, h]

@[simp] theorem busStateAfter_nil (s : State) : busStateAfter s [] = s.busState := rfl

theorem busStateAfter_cons (s : State) (op : BusOp) (ops : List BusOp) :
    busStateAfter s (op :: ops) = busStateAfter (s.request op) ops := rfl

theorem busStateAfter_one (s : State) (op : BusOp) : busStateAfter s [op] = s.busAfter op := rfl

/-! ### Stores -/

/-- Everything a byte store can do: nothing, or a write of the cell behind the address. -/
theorem State.putByte_cases (s : State) (a : Word) (v : Byte) :
    s.putByte a v = s ∨
      ∃ k, s.cellAt a = some k ∧ Writable s a ∧ s.putByte a v = { s with mem := s.mem.set k v } := by
  unfold State.putByte
  split
  · next r hr =>
    cases ho : r.readOnly
    · cases he : r.external
      · exact .inr ⟨r.cell a, by simp [State.cellAt, hr, he], ⟨r, hr, ho, he⟩, by simp⟩
      · exact .inl (by simp)
    · exact .inl (by simp)
  · exact .inl rfl

theorem State.putByte_mem_wf (s : State) (a : Word) (v : Byte) (h : s.mem.wf = true) :
    (s.putByte a v).mem.wf = true := by
  obtain e | ⟨k, _, _, e⟩ := s.putByte_cases a v
  · rw [e]; exact h
  · rw [e]; exact Memory.set_wf _ _ _ h

theorem State.putHalf_mem_wf (s : State) (a : Word) (v : Half) (h : s.mem.wf = true) :
    (s.putHalf a v).mem.wf = true := by
  unfold State.putHalf
  split
  · exact h
  · exact State.putByte_mem_wf _ _ _ (State.putByte_mem_wf _ _ _ h)

theorem State.putWord_mem_wf (s : State) (a : Word) (v : Word) (h : s.mem.wf = true) :
    (s.putWord a v).mem.wf = true := by
  unfold State.putWord
  split
  · exact h
  · exact State.putByte_mem_wf _ _ _ (State.putByte_mem_wf _ _ _ (State.putByte_mem_wf _ _ _
      (State.putByte_mem_wf _ _ _ h)))

/-- A byte whose cell is not the stored one reads as before. -/
theorem State.byteAt_putByte_other (s : State) (a b : Word) (v : Byte) (h : ¬ SameCell s a b) :
    (s.putByte a v).byteAt b = s.byteAt b := by
  have hm := s.putByte_memMap a v
  cases hx : s.externalAt b
  · rw [State.byteAt_mem hx, State.byteAt_mem ((State.externalAt_congr hm b).trans hx)]
    obtain e | ⟨k, hk, _, e⟩ := s.putByte_cases a v
    · rw [e]
    · unfold State.memByteAt
      rw [State.cellAt_congr hm b, e]
      cases hb : s.cellAt b with
      | none => rfl
      | some j => exact Memory.get_set_other _ _ _ _ fun e => h ⟨k, hk, by rw [hb, e]⟩
  · exact State.byteAt_external hm hx (by simp)

/-- A stored byte is read back where the map lets it land. -/
theorem State.byteAt_putByte_same (s : State) (a b : Word) (v : Byte) (hw : s.mem.wf = true) (hr : Writable s a)
    (h : SameCell s a b) : (s.putByte a v).byteAt b = v := by
  obtain ⟨k, ha, hb⟩ := h
  obtain ⟨r, hr, ho, he⟩ := hr
  have hk : r.cell a = k := by simpa [State.cellAt, hr, he] using ha
  have e : s.putByte a v = { s with mem := s.mem.set k v } := by simp [State.putByte, hr, ho, he, hk]
  have hm := s.putByte_memMap a v
  rw [State.byteAt_mem ((State.externalAt_congr hm b).trans (State.externalAt_of_cellAt hb))]
  unfold State.memByteAt
  rw [State.cellAt_congr hm b, hb, e]
  exact Memory.get_set_same _ _ _ hw

theorem State.byteAt_putByte_self (s : State) (a : Word) (v : Byte) (hw : s.mem.wf = true) (h : Writable s a) :
    (s.putByte a v).byteAt a = v := State.byteAt_putByte_same _ _ _ _ hw h (sameCell_self h)

/-- A halfword store touches no byte outside its two (and their mirrors). -/
theorem State.byteAt_putHalf_other (s : State) (a b : Word) (v : Half) (h : ∀ c ∈ span a 2, ¬ SameCell s c b) :
    (s.putHalf a v).byteAt b = s.byteAt b := by
  rw [span_two] at h
  unfold State.putHalf
  split
  · rfl
  · rw [State.byteAt_putByte_other _ _ _ _ (by rw [sameCell_congr (State.putByte_memMap ..)]; exact h _ (by simp)),
      State.byteAt_putByte_other _ _ _ _ (h _ (by simp))]

/-- A word store touches no byte outside its four (and their mirrors). -/
theorem State.byteAt_putWord_other (s : State) (a b : Word) (v : Word) (h : ∀ c ∈ span a 4, ¬ SameCell s c b) :
    (s.putWord a v).byteAt b = s.byteAt b := by
  rw [span_four] at h
  have other : ∀ (t : State) (c : Word) (x : Byte), t.memMap = s.memMap → c ∈ [a, a + 1, a + 2, a + 3] →
      (t.putByte c x).byteAt b = t.byteAt b := fun t c x hm hc =>
    State.byteAt_putByte_other _ _ _ _ (by rw [sameCell_congr hm]; exact h c hc)
  unfold State.putWord
  split
  · rfl
  · rw [other _ _ _ (by simp) (by simp), other _ _ _ (by simp) (by simp), other _ _ _ (by simp) (by simp),
      other _ _ _ rfl (by simp)]

/-! ### Read after write -/

/-- A halfword made of its two bytes. -/
theorem half_of_bytes (v : Half) : v.extractLsb' 8 8 ++ v.extractLsb' 0 8 = v := by
  apply BitVec.eq_of_getLsbD_eq
  intro i hi
  rw [BitVec.getLsbD_append]
  by_cases h : i < 8
  · simp [h]
  · simp [h, show i - 8 < 8 by omega, show 8 + (i - 8) = i by omega]

/-- A word made of its four bytes. -/
theorem word_of_bytes (v : Word) :
    ((v.extractLsb' 24 8 ++ v.extractLsb' 16 8) ++ v.extractLsb' 8 8) ++ v.extractLsb' 0 8 = v := by
  apply BitVec.eq_of_getLsbD_eq
  intro i hi
  simp only [BitVec.getLsbD_append, BitVec.getLsbD_extractLsb']
  by_cases h : i < 8
  · simp [h]
  · by_cases h2 : i - 8 < 8
    · simp [h, h2, show 8 + (i - 8) = i by omega]
    · by_cases h3 : i - 8 - 8 < 8
      · simp [h, h2, h3, show 16 + (i - 8 - 8) = i by omega]
      · simp [h, h2, h3, show i - 8 - 8 - 8 < 8 by omega, show 24 + (i - 8 - 8 - 8) = i by omega]

/-- The bytes of a stored halfword are read back. -/
theorem State.byteAt_putHalf_bytes (s : State) (a : Word) (v : Half) (hw : s.mem.wf = true) (h : WritableSpan s a 2) :
    (s.putHalf a v).byteAt a = v.extractLsb' 0 8 ∧ (s.putHalf a v).byteAt (a + 1) = v.extractLsb' 8 8 := by
  have hx := external_of_writableSpan h
  obtain ⟨h1, h2⟩ := h
  rw [span_two] at h1 h2
  have w0 : Writable s a := h1 _ (by simp)
  have w1 : Writable s (a + 1) := h1 _ (by simp)
  have d : ¬ SameCell s a (a + 1) := (List.pairwise_cons.1 h2).1 _ (by simp)
  have m := State.putByte_memMap s a (v.extractLsb' 0 8)
  rw [State.putHalf, hx, if_neg (by simp)]
  exact ⟨by rw [State.byteAt_putByte_other _ _ a _ (by rw [sameCell_congr m]; exact fun e => d (sameCell_symm e)),
      State.byteAt_putByte_self _ _ _ hw w0],
    State.byteAt_putByte_self _ (a + 1) _ (State.putByte_mem_wf _ _ _ hw) ((writable_congr m _).2 w1)⟩

/-- The bytes of a stored word are read back. -/
theorem State.byteAt_putWord_bytes (s : State) (a v : Word) (hw : s.mem.wf = true) (h : WritableSpan s a 4) :
    (s.putWord a v).byteAt a = v.extractLsb' 0 8 ∧ (s.putWord a v).byteAt (a + 1) = v.extractLsb' 8 8 ∧
    (s.putWord a v).byteAt (a + 2) = v.extractLsb' 16 8 ∧ (s.putWord a v).byteAt (a + 3) = v.extractLsb' 24 8 := by
  have hx := external_of_writableSpan h
  obtain ⟨h1, h2⟩ := h
  rw [span_four] at h1 h2
  have w0 : Writable s a := h1 _ (by simp)
  have w1 : Writable s (a + 1) := h1 _ (by simp)
  have w2 : Writable s (a + 2) := h1 _ (by simp)
  have w3 : Writable s (a + 3) := h1 _ (by simp)
  obtain ⟨p0, h2⟩ := List.pairwise_cons.1 h2
  obtain ⟨p1, h2⟩ := List.pairwise_cons.1 h2
  obtain ⟨p2, _⟩ := List.pairwise_cons.1 h2
  have d01 : ¬ SameCell s a (a + 1) := p0 _ (by simp)
  have d02 : ¬ SameCell s a (a + 2) := p0 _ (by simp)
  have d03 : ¬ SameCell s a (a + 3) := p0 _ (by simp)
  have d12 : ¬ SameCell s (a + 1) (a + 2) := p1 _ (by simp)
  have d13 : ¬ SameCell s (a + 1) (a + 3) := p1 _ (by simp)
  have d23 : ¬ SameCell s (a + 2) (a + 3) := p2 _ (by simp)
  have other : ∀ (t : State) (b c : Word) (x : Byte), t.memMap = s.memMap → ¬ SameCell s b c →
      (t.putByte c x).byteAt b = t.byteAt b := fun t b c x hm hn =>
    State.byteAt_putByte_other _ _ _ _ (by rw [sameCell_congr hm]; exact fun e => hn (sameCell_symm e))
  have m : ∀ (t : State) (c : Word) (x : Byte), t.memMap = s.memMap → (t.putByte c x).memMap = s.memMap :=
    fun t c x hm => (State.putByte_memMap t c x).trans hm
  have self : ∀ (t : State) (b : Word) (x : Byte), t.mem.wf = true → t.memMap = s.memMap → Writable s b →
      (t.putByte b x).byteAt b = x := fun t b x ht hm hb =>
    State.byteAt_putByte_self t b x ht ((writable_congr hm b).2 hb)
  have f0 := hw
  have f1 := State.putByte_mem_wf s a (v.extractLsb' 0 8) f0
  have f2 := State.putByte_mem_wf _ (a + 1) (v.extractLsb' 8 8) f1
  have f3 := State.putByte_mem_wf _ (a + 2) (v.extractLsb' 16 8) f2
  have m1 := m s a (v.extractLsb' 0 8) rfl
  have m2 := m _ (a + 1) (v.extractLsb' 8 8) m1
  have m3 := m _ (a + 2) (v.extractLsb' 16 8) m2
  rw [State.putWord, hx, if_neg (by simp)]
  exact ⟨by rw [other _ a (a + 3) _ m3 d03, other _ a (a + 2) _ m2 d02, other _ a (a + 1) _ m1 d01, self _ a _ f0 rfl w0],
    by rw [other _ (a + 1) (a + 3) _ m3 d13, other _ (a + 1) (a + 2) _ m2 d12, self _ (a + 1) _ f1 m1 w1],
    by rw [other _ (a + 2) (a + 3) _ m3 d23, self _ (a + 2) _ f2 m2 w2], self _ (a + 3) _ f3 m3 w3⟩

/-! ### The reference map -/

theorem State.regionAt_reference (s : State) (h : s.memMap = referenceMap) (a : Word) :
    s.regionAt a = some ⟨0, 2 ^ 32, 0, false, false⟩ := by
  have hh : Region.holds ⟨0, 2 ^ 32, 0, false, false⟩ a = true := by
    have := (a - 0).isLt
    simpa only [Region.holds, decide_eq_true_eq] using this
  simp only [State.regionAt, h, referenceMap, List.find?, hh]

theorem State.cellAt_reference (s : State) (h : s.memMap = referenceMap) (a : Word) : s.cellAt a = some a.toNat := by
  simp only [State.cellAt, State.regionAt_reference s h, Region.cell, Option.bind_some]
  simp

theorem writable_reference (s : State) (h : s.memMap = referenceMap) (a : Word) : Writable s a :=
  ⟨_, State.regionAt_reference s h a, rfl, rfl⟩

theorem State.external_reference (s : State) (h : s.memMap = referenceMap) (a : Word) (n : Nat) :
    s.external a n = false :=
  State.external_of_externalAt fun b _ => externalAt_of_writable (writable_reference s h b)

theorem sameCell_reference (s : State) (h : s.memMap = referenceMap) (a b : Word) : SameCell s a b ↔ a = b := by
  simp only [SameCell, State.cellAt_reference s h]
  constructor
  · rintro ⟨k, ha, hb⟩
    exact BitVec.eq_of_toNat_eq (by simp_all)
  · rintro rfl; exact ⟨_, rfl, rfl⟩

end Sys2Proof.Machine
end

