-- ==== Sys2Proof/Laws/Exec.lean ====
section
/-!
SUPPORT. One lemma per shared operation of the meanings, which says everything the operation does: cite these, do not
unfold the operation.
-/

namespace Sys2Proof.Machine

/-! ### The frame relations -/

theorem regsKept_refl (s : State) (dst : List Reg) : RegsKept s s dst := fun _ _ => rfl

theorem regsKept_trans {s t u : State} {dst : List Reg} (h : RegsKept s t dst) (k : RegsKept t u dst) :
    RegsKept s u dst := fun r hr => (k r hr).trans (h r hr)

theorem regsKept_mono {s t : State} {dst dst' : List Reg} (h : RegsKept s t dst) (k : ∀ r ∈ dst, r ∈ dst') :
    RegsKept s t dst' := fun r hr => h r fun m => hr (k r m)

theorem regsKept_writeReg (s : State) (r : Reg) (v : Word) : RegsKept s (s.writeReg r v) [r] := fun q hq =>
  State.readReg_writeReg_other s r q v (by simpa using hq)

/-- A write of register 15 is a write of `pc_pending`: no register changes (R18). -/
theorem regsKept_writeReg_PC (s : State) (v : Word) : RegsKept s (s.writeReg PC v) [] := fun _ _ => rfl

theorem regsKept_of_regs {s t : State} (hr : t.regs = s.regs) (hp : t.pcRead = s.pcRead) : RegsKept s t [] :=
  fun r _ => by simp [State.readReg, hr, hp]

theorem bytesKept_of_fields {s t : State} (hm : t.memMap = s.memMap) (hc : t.mem = s.mem) (hd : t.draw = s.draw) :
    BytesKept s t := ⟨fun a ha => State.byteAt_congr hm hc hd a ha, hm, hd⟩

theorem noBus_writeReg (s : State) (r : Reg) (v : Word) : NoBus s (s.writeReg r v) :=
  ⟨bytesKept_of_fields (by simp) (by simp) (by simp), by simp, by simp⟩

/-- Without a request every address answers as before. -/
theorem noBus_byteAt {s t : State} (h : NoBus s t) (a : Word) : t.byteAt a = s.byteAt a := h.1.1 a fun _ => h.2.2

theorem noBus_refl (s : State) : NoBus s s := ⟨⟨fun _ _ => rfl, rfl, rfl⟩, rfl, rfl⟩

theorem noBus_trans {s t u : State} (h : NoBus s t) (k : NoBus t u) : NoBus s u :=
  ⟨⟨fun a _ => (noBus_byteAt k a).trans (noBus_byteAt h a), k.1.2.1.trans h.1.2.1, k.1.2.2.trans h.1.2.2⟩,
    k.2.1.trans h.2.1, k.2.2.trans h.2.2⟩

/-- A write of a stored register changes that register alone. -/
theorem onlyRegs_writeReg (s : State) (r : Reg) (v : Word) (h : r ≠ PC) : OnlyRegs s (s.writeReg r v) [r] :=
  ⟨regsKept_writeReg s r v, ⟨by simp, State.writeReg_pcPending_stored s r v h, by simp⟩, noBus_writeReg s r v⟩

/-- Flags are no part of what `OnlyRegs` keeps. -/
theorem onlyRegs_setFlags {s t : State} {f : Flags} {dst : List Reg} (h : OnlyRegs (s.setFlags f) t dst) :
    OnlyRegs s t dst := h

/-- A store that touches no byte leaves every byte. -/
theorem bytesKept_but {s t : State} (h : BytesKept s t) (stored : List Word) : BytesKeptBut s t stored :=
  ⟨fun b ha _ => h.1 b ha, h.2⟩

/-- What a frame on bytes asks of an external address it always has, so only plain memory needs a proof. -/
theorem bytesKeptBut_of_mem {s t : State} {l : List Word} (hm : t.memMap = s.memMap) (hd : t.draw = s.draw)
    (h : ∀ b, s.externalAt b = false → (∀ a ∈ l, ¬ SameCell s a b) → t.byteAt b = s.byteAt b) : BytesKeptBut s t l := by
  refine ⟨fun b ha hb => ?_, hm, hd⟩
  cases hx : s.externalAt b
  · exact h b hx hb
  · exact State.byteAt_external hm hx (ha hx)

/-- A byte of plain memory outside the stored ones reads as before. -/
theorem byteAt_of_bytesKeptBut {s t : State} {l : List Word} (h : BytesKeptBut s t l) {b : Word}
    (hx : s.externalAt b = false) (hb : ∀ a ∈ l, ¬ SameCell s a b) : t.byteAt b = s.byteAt b :=
  h.1 b (fun e => by rw [hx] at e; cases e) hb

theorem bytesKeptBut_trans {s t u : State} {l m : List Word} (h : BytesKeptBut s t l) (k : BytesKeptBut t u m) :
    BytesKeptBut s u (l ++ m) := by
  refine bytesKeptBut_of_mem (k.2.1.trans h.2.1) (k.2.2.trans h.2.2) fun b hx hb => ?_
  rw [byteAt_of_bytesKeptBut k ((State.externalAt_congr h.2.1 b).trans hx) fun a ha => by
    rw [sameCell_congr h.2.1]; exact hb a (by simp [ha]), byteAt_of_bytesKeptBut h hx fun a ha => hb a (by simp [ha])]

/-! ### Results of the arithmetic formats -/

/-- A result written with its flags: that register and the flags, nothing else. -/
theorem arithResult_next (s : State) (rd : LowReg) (p : Word × Flags) :
    ∃ t, arithResult s rd p = .next t ∧ t.readReg (low rd) = p.1 ∧ t.flags = p.2 ∧ OnlyRegs s t [low rd] :=
  ⟨_, rfl, by simp, by simp, onlyRegs_setFlags (onlyRegs_writeReg _ _ _ (low_ne_PC rd))⟩

/-- Flags written, the result discarded: no register changes. -/
theorem compareResult_next (s : State) (p : Word × Flags) :
    ∃ t, compareResult s p = .next t ∧ t.flags = p.2 ∧ OnlyRegs s t [] :=
  ⟨_, rfl, rfl, regsKept_refl _ _, ⟨rfl, rfl, rfl⟩, noBus_refl _⟩

/-- A logical result: N and Z describe it, C and V stay (R108). -/
theorem logicResult_next (s : State) (rd : LowReg) (res : Word) :
    ∃ t, logicResult s rd res = .next t ∧ t.readReg (low rd) = res ∧ NZof t.flags res ∧ t.flags.c = s.flags.c ∧
      t.flags.v = s.flags.v ∧ OnlyRegs s t [low rd] := by
  obtain ⟨t, h, hv, hf, ho⟩ := arithResult_next s rd (res, s.flags.setNZ res)
  exact ⟨t, h, hv, by rw [hf]; exact nzOf_setNZ _ _, by rw [hf]; rfl, by rw [hf]; rfl, ho⟩

/-- A shift's result: N and Z describe it, C is the carry-out, V stays (R97). -/
theorem shiftResult_next (s : State) (rd : LowReg) (p : Word × Bool) :
    ∃ t, shiftResult s rd p = .next t ∧ t.readReg (low rd) = p.1 ∧ NZof t.flags p.1 ∧ t.flags.c = p.2 ∧
      t.flags.v = s.flags.v ∧ OnlyRegs s t [low rd] := by
  refine ⟨_, rfl, by simp, ?_, by simp, by simp, onlyRegs_setFlags (onlyRegs_writeReg _ _ _ (low_ne_PC rd))⟩
  simpa using nzOf_setNZ _ p.1

/-! ### Branches -/

/-- The one behaviour of Format 16 (R155). -/
theorem branchIf_next (cond : Cond) (imm8 : BitVec 8) (s : State) :
    branchIf cond imm8 s = .next (if condPassed cond s.flags = true then s.setPending (branchTarget s imm8) else s) := by
  unfold branchIf; split <;> rfl

/-- Branch-exchange: `pc_pending` and T, nothing else (R131). -/
theorem branchExchange_next (s : State) (v : Word) :
    branchExchange s v = .next (if v.getLsbD 0 = true then s.setPending v
      else (s.setT false).setPending (v &&& 0xFFFFFFFC)) := by
  unfold branchExchange; split <;> rfl

/-! ### One load, one store -/

/-- A read's request and a register write leave memory as it was. -/
theorem bytesKept_request_writeReg (s : State) (op : BusOp) (r : Reg) (v : Word) :
    BytesKept s ((s.request op).writeReg r v) := bytesKept_of_fields (by simp) (by simp) (by simp)

/-- A load: the register, one request, the devices' step, nothing else. -/
theorem loadsAs_request_writeReg (s : State) (rd : LowReg) (op : BusOp) (v : Word) :
    LoadsAs s ((s.request op).writeReg (low rd) v) rd op v := by
  obtain ⟨hr, hf, _⟩ := onlyRegs_writeReg (s.request op) (low rd) v (low_ne_PC rd)
  exact ⟨by simp, by simp, hr, by simp, hf, bytesKept_request_writeReg s op _ v⟩

theorem loadWord_next (s : State) (rd : LowReg) (ea : Word) :
    ∃ t, loadWord s rd ea = .next t ∧ LoadsAs s t rd (.readWord ea (s.wordAt ea)) (s.wordAt ea) ∧
      t.busState = s.busAfter (.readWord ea (s.wordAt ea)) :=
  ⟨_, rfl, loadsAs_request_writeReg .., by simp⟩

theorem loadHalf_next (widen : Half → Word) (s : State) (rd : LowReg) (ea : Word) :
    ∃ t, loadHalf widen s rd ea = .next t ∧ LoadsAs s t rd (.readHalf ea (s.halfAt ea)) (widen (s.halfAt ea)) ∧
      t.busState = s.busAfter (.readHalf ea (s.halfAt ea)) :=
  ⟨_, rfl, loadsAs_request_writeReg .., by simp⟩

theorem loadByte_next (widen : Byte → Word) (s : State) (rd : LowReg) (ea : Word) :
    ∃ t, loadByte widen s rd ea = .next t ∧ LoadsAs s t rd (.readByte ea (s.byteAt ea)) (widen (s.byteAt ea)) ∧
      t.busState = s.busAfter (.readByte ea (s.byteAt ea)) :=
  ⟨_, rfl, loadsAs_request_writeReg .., by simp⟩

/-- A request leaves plain memory as it was. -/
theorem byteAt_request (s : State) (op : BusOp) {b : Word} (hx : s.externalAt b = false) :
    (s.request op).byteAt b = s.byteAt b :=
  State.byteAt_congr (s := s) (t := s.request op) rfl rfl rfl b fun e => by rw [hx] at e; cases e

theorem bytesKeptBut_memWriteByte (s : State) (a : Word) (v : Byte) : BytesKeptBut s (s.memWriteByte a v) (span a 1) :=
  bytesKeptBut_of_mem (by simp [State.memWriteByte]) (by simp [State.memWriteByte]) fun b hx hb => by
    rw [State.memWriteByte, byteAt_request _ _ ((State.externalAt_congr (by simp) b).trans hx)]
    exact State.byteAt_putByte_other s a b v (hb a (by simp [span_one]))

theorem bytesKeptBut_memWriteHalf (s : State) (a : Word) (v : Half) : BytesKeptBut s (s.memWriteHalf a v) (span a 2) :=
  bytesKeptBut_of_mem (by simp [State.memWriteHalf]) (by simp [State.memWriteHalf]) fun b hx hb => by
    rw [State.memWriteHalf, byteAt_request _ _ ((State.externalAt_congr (by simp) b).trans hx)]
    exact State.byteAt_putHalf_other s a b v hb

theorem bytesKeptBut_memWriteWord (s : State) (a : Word) (v : Word) : BytesKeptBut s (s.memWriteWord a v) (span a 4) :=
  bytesKeptBut_of_mem (by simp [State.memWriteWord]) (by simp [State.memWriteWord]) fun b hx hb => by
    rw [State.memWriteWord, byteAt_request _ _ ((State.externalAt_congr (by simp) b).trans hx)]
    exact State.byteAt_putWord_other s a b v hb

/-- The bytes of a stored word are read back, where the bus maps them writable, each to a cell of its own. -/
theorem byteAt_memWriteWord (s : State) (a v : Word) (hw : s.mem.wf = true) (h : WritableSpan s a 4) :
    ∀ k < 4, (s.memWriteWord a v).byteAt (a + BitVec.ofNat 32 k) = v.extractLsb' (8 * k) 8 := by
  obtain ⟨e0, e1, e2, e3⟩ := State.byteAt_putWord_bytes s a v hw h
  intro k hk
  have hx : s.externalAt (a + BitVec.ofNat 32 k) = false :=
    externalAt_of_writable (h.1 _ (List.mem_map.2 ⟨k, List.mem_range.2 hk, rfl⟩))
  rw [State.memWriteWord, byteAt_request _ _ ((State.externalAt_congr (by simp) _).trans hx)]
  obtain rfl | rfl | rfl | rfl : k = 0 ∨ k = 1 ∨ k = 2 ∨ k = 3 := by omega
  · rw [show a + BitVec.ofNat 32 0 = a from BitVec.add_zero a]; exact e0
  · exact e1
  · exact e2
  · exact e3

theorem byteAt_memWriteHalf (s : State) (a : Word) (v : Half) (hw : s.mem.wf = true) (h : WritableSpan s a 2) :
    ∀ k < 2, (s.memWriteHalf a v).byteAt (a + BitVec.ofNat 32 k) = v.extractLsb' (8 * k) 8 := by
  obtain ⟨e0, e1⟩ := State.byteAt_putHalf_bytes s a v hw h
  intro k hk
  have hx : s.externalAt (a + BitVec.ofNat 32 k) = false :=
    externalAt_of_writable (h.1 _ (List.mem_map.2 ⟨k, List.mem_range.2 hk, rfl⟩))
  rw [State.memWriteHalf, byteAt_request _ _ ((State.externalAt_congr (by simp) _).trans hx)]
  obtain rfl | rfl : k = 0 ∨ k = 1 := by omega
  · rw [show a + BitVec.ofNat 32 0 = a from BitVec.add_zero a]; exact e0
  · exact e1

theorem byteAt_memWriteByte (s : State) (a : Word) (v : Byte) (hw : s.mem.wf = true) (h : Writable s a) :
    (s.memWriteByte a v).byteAt a = v := by
  rw [State.memWriteByte, byteAt_request _ _ ((State.externalAt_congr (by simp) a).trans (externalAt_of_writable h)),
    State.byteAt_putByte_self s a v hw h]

/-- Stored halfwords and words are read back. -/
theorem halfAt_memWriteHalf (s : State) (a : Word) (v : Half) (hw : s.mem.wf = true) (h : WritableSpan s a 2) :
    (s.memWriteHalf a v).halfAt a = v := by
  have hm : (s.memWriteHalf a v).memMap = s.memMap := by simp [State.memWriteHalf]
  have e := byteAt_memWriteHalf s a v hw h
  have e0 := e 0 (by omega)
  rw [show a + BitVec.ofNat 32 0 = a from BitVec.add_zero a] at e0
  rw [State.halfAt_mem ((State.external_congr hm a 2).trans (external_of_writableSpan h)), e0,
    show (s.memWriteHalf a v).byteAt (a + 1) = _ from e 1 (by omega), half_of_bytes]

theorem wordAt_memWriteWord (s : State) (a v : Word) (hw : s.mem.wf = true) (h : WritableSpan s a 4) :
    (s.memWriteWord a v).wordAt a = v := by
  have hm : (s.memWriteWord a v).memMap = s.memMap := by simp [State.memWriteWord]
  have e := byteAt_memWriteWord s a v hw h
  have e0 := e 0 (by omega)
  rw [show a + BitVec.ofNat 32 0 = a from BitVec.add_zero a] at e0
  rw [State.wordAt_mem ((State.external_congr hm a 4).trans (external_of_writableSpan h)), e0,
    show (s.memWriteWord a v).byteAt (a + 1) = _ from e 1 (by omega),
    show (s.memWriteWord a v).byteAt (a + 2) = _ from e 2 (by omega),
    show (s.memWriteWord a v).byteAt (a + 3) = _ from e 3 (by omega), word_of_bytes]

theorem storeWord_next (s : State) (rd : LowReg) (ea : Word) :
    ∃ t, storeWord s rd ea = .next t ∧ StoresAs s t ea 4 (.writeWord ea (s.readReg (low rd))) ∧
      t = s.memWriteWord ea (s.readReg (low rd)) :=
  ⟨_, rfl, ⟨by simp [State.memWriteWord], regsKept_of_regs (by simp [State.memWriteWord]) (by simp [State.memWriteWord]),
    by simp [State.memWriteWord], ⟨by simp [State.memWriteWord], by simp [State.memWriteWord], by simp [State.memWriteWord]⟩,
    bytesKeptBut_memWriteWord ..⟩, rfl⟩

theorem storeHalf_next (s : State) (rd : LowReg) (ea : Word) :
    ∃ t, storeHalf s rd ea = .next t ∧
      StoresAs s t ea 2 (.writeHalf ea ((s.readReg (low rd)).extractLsb' 0 16)) ∧
      t = s.memWriteHalf ea ((s.readReg (low rd)).extractLsb' 0 16) :=
  ⟨_, rfl, ⟨by simp [State.memWriteHalf], regsKept_of_regs (by simp [State.memWriteHalf]) (by simp [State.memWriteHalf]),
    by simp [State.memWriteHalf], ⟨by simp [State.memWriteHalf], by simp [State.memWriteHalf], by simp [State.memWriteHalf]⟩,
    bytesKeptBut_memWriteHalf ..⟩, rfl⟩

theorem storeByte_next (s : State) (rd : LowReg) (ea : Word) :
    ∃ t, storeByte s rd ea = .next t ∧
      StoresAs s t ea 1 (.writeByte ea ((s.readReg (low rd)).extractLsb' 0 8)) ∧
      t = s.memWriteByte ea ((s.readReg (low rd)).extractLsb' 0 8) :=
  ⟨_, rfl, ⟨by simp [State.memWriteByte], regsKept_of_regs (by simp [State.memWriteByte]) (by simp [State.memWriteByte]),
    by simp [State.memWriteByte], ⟨by simp [State.memWriteByte], by simp [State.memWriteByte], by simp [State.memWriteByte]⟩,
    bytesKeptBut_memWriteByte ..⟩, rfl⟩

/-! ### The words of push and pop -/

/-- Everything a push's stores do to the fields other than memory. -/
theorem storeRegs_fields (l : List Reg) : ∀ (a : Word) (s : State),
    (storeRegs l a s).regs = s.regs ∧ (storeRegs l a s).pcRead = s.pcRead ∧
    (storeRegs l a s).pcPending = s.pcPending ∧ (storeRegs l a s).flags = s.flags ∧ (storeRegs l a s).t = s.t ∧
    (storeRegs l a s).memMap = s.memMap ∧ (storeRegs l a s).draw = s.draw := by
  induction l with
  | nil => intro a s; simp [storeRegs]
  | cons r l ih => intro a s; simpa [storeRegs, State.memWriteWord] using ih (a + 4) (s.memWriteWord a (s.readReg r))

@[simp] theorem storeRegs_readReg (l : List Reg) (a : Word) (s : State) (q : Reg) :
    (storeRegs l a s).readReg q = s.readReg q := by
  obtain ⟨h, hp, _⟩ := storeRegs_fields l a s
  simp [State.readReg, h, hp]

/-- Stores keep the canonical form of memory. -/
theorem storeRegs_mem_wf (l : List Reg) : ∀ (a : Word) (s : State), s.mem.wf = true → (storeRegs l a s).mem.wf = true := by
  induction l with
  | nil => intro a s h; exact h
  | cons r l ih => intro a s h; exact ih _ _ (State.putWord_mem_wf _ _ _ h)

/-- Everything a pop's loads do to the fields they do not load: memory is read, not written. -/
theorem loadRegs_fields (l : List Reg) : ∀ (a : Word) (s : State),
    (loadRegs l a s).2.pcRead = s.pcRead ∧ (loadRegs l a s).2.flags = s.flags ∧ (loadRegs l a s).2.t = s.t ∧
    (loadRegs l a s).2.memMap = s.memMap ∧ (loadRegs l a s).2.mem = s.mem ∧ (loadRegs l a s).2.draw = s.draw := by
  induction l with
  | nil => intro a s; simp [loadRegs]
  | cons r l ih =>
    intro a s
    simpa [loadRegs, State.memReadWord] using ih (a + 4) ((s.memReadWord a).2.writeReg r (s.memReadWord a).1)

/-- A pop's loads write the listed registers alone. -/
theorem loadRegs_regsKept (l : List Reg) : ∀ (a : Word) (s : State), RegsKept s (loadRegs l a s).2 l := by
  induction l with
  | nil => intro a s; exact regsKept_refl _ _
  | cons r l ih =>
    intro a s
    refine regsKept_trans (t := (s.memReadWord a).2.writeReg r (s.memReadWord a).1) ?_ ?_
    · exact regsKept_mono (regsKept_writeReg _ r _) (by simp)
    · exact regsKept_mono (ih (a + 4) _) fun q hq => List.mem_cons_of_mem _ hq

end Sys2Proof.Machine
end

