-- ==== Sys2Proof/Laws/PerInstr.lean ====
section
/-!
SUPPORT. The family RowMatch, instruction by instruction: the word of a well-formed instruction meets its row of
spec/opcode_table.json, `w & mask = match` (30_encoding.md R62 to R77).
-/

namespace Sys2Proof.Laws.RowMatch

/-- The mask and the match value of each row, in the table's order. -/
def row : Instr → Half × Half
  | .lslImm _ _ _ => (0xF800, 0x0000)
  | .lsrImm _ _ _ => (0xF800, 0x0800)
  | .asrImm _ _ _ => (0xF800, 0x1000)
  | .addReg _ _ _ => (0xFE00, 0x1800)
  | .subReg _ _ _ => (0xFE00, 0x1A00)
  | .addImm3 _ _ _ => (0xFE00, 0x1C00)
  | .subImm3 _ _ _ => (0xFE00, 0x1E00)
  | .movImm8 _ _ => (0xF800, 0x2000)
  | .cmpImm8 _ _ => (0xF800, 0x2800)
  | .addImm8 _ _ => (0xF800, 0x3000)
  | .subImm8 _ _ => (0xF800, 0x3800)
  | .and _ _ => (0xFFC0, 0x4000)
  | .eor _ _ => (0xFFC0, 0x4040)
  | .lslReg _ _ => (0xFFC0, 0x4080)
  | .lsrReg _ _ => (0xFFC0, 0x40C0)
  | .asrReg _ _ => (0xFFC0, 0x4100)
  | .adc _ _ => (0xFFC0, 0x4140)
  | .sbc _ _ => (0xFFC0, 0x4180)
  | .ror _ _ => (0xFFC0, 0x41C0)
  | .tst _ _ => (0xFFC0, 0x4200)
  | .neg _ _ => (0xFFC0, 0x4240)
  | .cmpReg _ _ => (0xFFC0, 0x4280)
  | .cmn _ _ => (0xFFC0, 0x42C0)
  | .orr _ _ => (0xFFC0, 0x4300)
  | .mul _ _ => (0xFFC0, 0x4340)
  | .bic _ _ => (0xFFC0, 0x4380)
  | .mvn _ _ => (0xFFC0, 0x43C0)
  | .addHi _ _ => (0xFF00, 0x4400)
  | .cmpHi _ _ => (0xFF00, 0x4500)
  | .movHi _ _ => (0xFF00, 0x4600)
  | .bx _ _ => (0xFF80, 0x4700)
  | .blxReg _ _ => (0xFF80, 0x4780)
  | .ldrPc _ _ => (0xF800, 0x4800)
  | .strReg _ _ _ => (0xFE00, 0x5000)
  | .strhReg _ _ _ => (0xFE00, 0x5200)
  | .strbReg _ _ _ => (0xFE00, 0x5400)
  | .ldsbReg _ _ _ => (0xFE00, 0x5600)
  | .ldrReg _ _ _ => (0xFE00, 0x5800)
  | .ldrhReg _ _ _ => (0xFE00, 0x5A00)
  | .ldrbReg _ _ _ => (0xFE00, 0x5C00)
  | .ldshReg _ _ _ => (0xFE00, 0x5E00)
  | .strImm _ _ _ => (0xF800, 0x6000)
  | .ldrImm _ _ _ => (0xF800, 0x6800)
  | .strbImm _ _ _ => (0xF800, 0x7000)
  | .ldrbImm _ _ _ => (0xF800, 0x7800)
  | .strhImm _ _ _ => (0xF800, 0x8000)
  | .ldrhImm _ _ _ => (0xF800, 0x8800)
  | .push _ _ => (0xFE00, 0xB400)
  | .pop _ _ => (0xFE00, 0xBC00)
  | .beq _ => (0xFF00, 0xD000)
  | .bne _ => (0xFF00, 0xD100)
  | .bcs _ => (0xFF00, 0xD200)
  | .bcc _ => (0xFF00, 0xD300)
  | .bmi _ => (0xFF00, 0xD400)
  | .bpl _ => (0xFF00, 0xD500)
  | .bvs _ => (0xFF00, 0xD600)
  | .bvc _ => (0xFF00, 0xD700)
  | .bhi _ => (0xFF00, 0xD800)
  | .bls _ => (0xFF00, 0xD900)
  | .bge _ => (0xFF00, 0xDA00)
  | .blt _ => (0xFF00, 0xDB00)
  | .bgt _ => (0xFF00, 0xDC00)
  | .ble _ => (0xFF00, 0xDD00)
  | .blHi _ => (0xF800, 0xF000)
  | .blLo _ => (0xF800, 0xF800)
  | .blxLo _ => (0xF800, 0xE800)
  | .invalid9000 _ => (0xF000, 0x9000)
  | .invalidA000 _ => (0xF000, 0xA000)
  | .invalidB000 _ => (0xF600, 0xB000)
  | .invalidB200 _ => (0xF600, 0xB200)
  | .invalidB600 _ => (0xF600, 0xB600)
  | .invalidC000 _ => (0xF000, 0xC000)
  | .invalidE000 _ => (0xF800, 0xE000)
  | .invalidCond14 _ => (0xFF00, 0xDE00)
  | .invalidSwi _ => (0xFF00, 0xDF00)

/-- The word of a well-formed instruction meets the row's mask and match value. -/
def Statement (i : Instr) : Prop := i.wellFormed = true → encode i &&& (row i).1 = (row i).2

/-- A field placed where the mask is 0 leaves the masked word as it was. -/
theorem or_put {x m p : Half} {n lo : Nat} (h : x &&& m = p) (v : BitVec n) (h0 : field m lo n = 0) :
    (x ||| put lo v) &&& m = p := by
  have e : put lo v &&& m = 0 := by
    apply BitVec.eq_of_getLsbD_eq
    intro i hi
    by_cases hk : lo ≤ i ∧ i - lo < n
    · have hb := congrArg (fun y : BitVec n => y.getLsbD (i - lo)) h0
      simp only [field, BitVec.getLsbD_extractLsb', hk.2, decide_true, Bool.true_and,
        Nat.add_sub_cancel' hk.1] at hb
      simp [hb]
    · have hv : (put lo v).getLsbD i = false := by
        rcases Nat.lt_or_ge i lo with hl | hl
        · simp [put, hl]
        · have : v.getLsbD (i - lo) = false := BitVec.getLsbD_of_ge v _ (by omega)
          simp [put, this]
      simp [hv]
  have d : (x ||| put lo v) &&& m = (x &&& m) ||| (put lo v &&& m) := by
    apply BitVec.eq_of_getLsbD_eq
    intro i hi
    simp [Bool.and_or_distrib_right]
  rw [d, h, e]
  simp

theorem lslImm (imm5 : BitVec 5) (rs rd : LowReg) : Statement (.lslImm imm5 rs rd) :=
  fun _ => show _ &&& 0xF800 = 0x0000 from or_put (or_put (or_put (by decide) _ (by decide)) _ (by decide)) _ (by decide)
theorem lsrImm (imm5 : BitVec 5) (rs rd : LowReg) : Statement (.lsrImm imm5 rs rd) :=
  fun _ => show _ &&& 0xF800 = 0x0800 from or_put (or_put (or_put (by decide) _ (by decide)) _ (by decide)) _ (by decide)
theorem asrImm (imm5 : BitVec 5) (rs rd : LowReg) : Statement (.asrImm imm5 rs rd) :=
  fun _ => show _ &&& 0xF800 = 0x1000 from or_put (or_put (or_put (by decide) _ (by decide)) _ (by decide)) _ (by decide)
theorem addReg (rn rs rd : LowReg) : Statement (.addReg rn rs rd) :=
  fun _ => show _ &&& 0xFE00 = 0x1800 from or_put (or_put (or_put (by decide) _ (by decide)) _ (by decide)) _ (by decide)
theorem subReg (rn rs rd : LowReg) : Statement (.subReg rn rs rd) :=
  fun _ => show _ &&& 0xFE00 = 0x1A00 from or_put (or_put (or_put (by decide) _ (by decide)) _ (by decide)) _ (by decide)
theorem addImm3 (imm3 : BitVec 3) (rs rd : LowReg) : Statement (.addImm3 imm3 rs rd) :=
  fun _ => show _ &&& 0xFE00 = 0x1C00 from or_put (or_put (or_put (by decide) _ (by decide)) _ (by decide)) _ (by decide)
theorem subImm3 (imm3 : BitVec 3) (rs rd : LowReg) : Statement (.subImm3 imm3 rs rd) :=
  fun _ => show _ &&& 0xFE00 = 0x1E00 from or_put (or_put (or_put (by decide) _ (by decide)) _ (by decide)) _ (by decide)
theorem movImm8 (rd : LowReg) (imm8 : BitVec 8) : Statement (.movImm8 rd imm8) :=
  fun _ => show _ &&& 0xF800 = 0x2000 from or_put (or_put (by decide) _ (by decide)) _ (by decide)
theorem cmpImm8 (rd : LowReg) (imm8 : BitVec 8) : Statement (.cmpImm8 rd imm8) :=
  fun _ => show _ &&& 0xF800 = 0x2800 from or_put (or_put (by decide) _ (by decide)) _ (by decide)
theorem addImm8 (rd : LowReg) (imm8 : BitVec 8) : Statement (.addImm8 rd imm8) :=
  fun _ => show _ &&& 0xF800 = 0x3000 from or_put (or_put (by decide) _ (by decide)) _ (by decide)
theorem subImm8 (rd : LowReg) (imm8 : BitVec 8) : Statement (.subImm8 rd imm8) :=
  fun _ => show _ &&& 0xF800 = 0x3800 from or_put (or_put (by decide) _ (by decide)) _ (by decide)
theorem and (rs rd : LowReg) : Statement (.and rs rd) :=
  fun _ => show _ &&& 0xFFC0 = 0x4000 from or_put (or_put (by decide) _ (by decide)) _ (by decide)
theorem eor (rs rd : LowReg) : Statement (.eor rs rd) :=
  fun _ => show _ &&& 0xFFC0 = 0x4040 from or_put (or_put (by decide) _ (by decide)) _ (by decide)
theorem lslReg (rs rd : LowReg) : Statement (.lslReg rs rd) :=
  fun _ => show _ &&& 0xFFC0 = 0x4080 from or_put (or_put (by decide) _ (by decide)) _ (by decide)
theorem lsrReg (rs rd : LowReg) : Statement (.lsrReg rs rd) :=
  fun _ => show _ &&& 0xFFC0 = 0x40C0 from or_put (or_put (by decide) _ (by decide)) _ (by decide)
theorem asrReg (rs rd : LowReg) : Statement (.asrReg rs rd) :=
  fun _ => show _ &&& 0xFFC0 = 0x4100 from or_put (or_put (by decide) _ (by decide)) _ (by decide)
theorem adc (rs rd : LowReg) : Statement (.adc rs rd) :=
  fun _ => show _ &&& 0xFFC0 = 0x4140 from or_put (or_put (by decide) _ (by decide)) _ (by decide)
theorem sbc (rs rd : LowReg) : Statement (.sbc rs rd) :=
  fun _ => show _ &&& 0xFFC0 = 0x4180 from or_put (or_put (by decide) _ (by decide)) _ (by decide)
theorem ror (rs rd : LowReg) : Statement (.ror rs rd) :=
  fun _ => show _ &&& 0xFFC0 = 0x41C0 from or_put (or_put (by decide) _ (by decide)) _ (by decide)
theorem tst (rs rd : LowReg) : Statement (.tst rs rd) :=
  fun _ => show _ &&& 0xFFC0 = 0x4200 from or_put (or_put (by decide) _ (by decide)) _ (by decide)
theorem neg (rs rd : LowReg) : Statement (.neg rs rd) :=
  fun _ => show _ &&& 0xFFC0 = 0x4240 from or_put (or_put (by decide) _ (by decide)) _ (by decide)
theorem cmpReg (rs rd : LowReg) : Statement (.cmpReg rs rd) :=
  fun _ => show _ &&& 0xFFC0 = 0x4280 from or_put (or_put (by decide) _ (by decide)) _ (by decide)
theorem cmn (rs rd : LowReg) : Statement (.cmn rs rd) :=
  fun _ => show _ &&& 0xFFC0 = 0x42C0 from or_put (or_put (by decide) _ (by decide)) _ (by decide)
theorem orr (rs rd : LowReg) : Statement (.orr rs rd) :=
  fun _ => show _ &&& 0xFFC0 = 0x4300 from or_put (or_put (by decide) _ (by decide)) _ (by decide)
theorem mul (rs rd : LowReg) : Statement (.mul rs rd) :=
  fun _ => show _ &&& 0xFFC0 = 0x4340 from or_put (or_put (by decide) _ (by decide)) _ (by decide)
theorem bic (rs rd : LowReg) : Statement (.bic rs rd) :=
  fun _ => show _ &&& 0xFFC0 = 0x4380 from or_put (or_put (by decide) _ (by decide)) _ (by decide)
theorem mvn (rs rd : LowReg) : Statement (.mvn rs rd) :=
  fun _ => show _ &&& 0xFFC0 = 0x43C0 from or_put (or_put (by decide) _ (by decide)) _ (by decide)
theorem addHi (rs rd : Reg) : Statement (.addHi rs rd) :=
  fun _ => show _ &&& 0xFF00 = 0x4400 from or_put (or_put (or_put (or_put (by decide) _ (by decide)) _ (by decide)) _ (by decide)) _ (by decide)
theorem cmpHi (rs rd : Reg) : Statement (.cmpHi rs rd) :=
  fun _ => show _ &&& 0xFF00 = 0x4500 from or_put (or_put (or_put (or_put (by decide) _ (by decide)) _ (by decide)) _ (by decide)) _ (by decide)
theorem movHi (rs rd : Reg) : Statement (.movHi rs rd) :=
  fun _ => show _ &&& 0xFF00 = 0x4600 from or_put (or_put (or_put (or_put (by decide) _ (by decide)) _ (by decide)) _ (by decide)) _ (by decide)
theorem bx (rs : Reg) (ignored : BitVec 3) : Statement (.bx rs ignored) :=
  fun _ => show _ &&& 0xFF80 = 0x4700 from or_put (or_put (or_put (by decide) _ (by decide)) _ (by decide)) _ (by decide)
theorem blxReg (rs : Reg) (ignored : BitVec 3) : Statement (.blxReg rs ignored) :=
  fun _ => show _ &&& 0xFF80 = 0x4780 from or_put (or_put (or_put (by decide) _ (by decide)) _ (by decide)) _ (by decide)
theorem ldrPc (rd : LowReg) (imm8 : BitVec 8) : Statement (.ldrPc rd imm8) :=
  fun _ => show _ &&& 0xF800 = 0x4800 from or_put (or_put (by decide) _ (by decide)) _ (by decide)
theorem strReg (ro rb rd : LowReg) : Statement (.strReg ro rb rd) :=
  fun _ => show _ &&& 0xFE00 = 0x5000 from or_put (or_put (or_put (by decide) _ (by decide)) _ (by decide)) _ (by decide)
theorem strhReg (ro rb rd : LowReg) : Statement (.strhReg ro rb rd) :=
  fun _ => show _ &&& 0xFE00 = 0x5200 from or_put (or_put (or_put (by decide) _ (by decide)) _ (by decide)) _ (by decide)
theorem strbReg (ro rb rd : LowReg) : Statement (.strbReg ro rb rd) :=
  fun _ => show _ &&& 0xFE00 = 0x5400 from or_put (or_put (or_put (by decide) _ (by decide)) _ (by decide)) _ (by decide)
theorem ldsbReg (ro rb rd : LowReg) : Statement (.ldsbReg ro rb rd) :=
  fun _ => show _ &&& 0xFE00 = 0x5600 from or_put (or_put (or_put (by decide) _ (by decide)) _ (by decide)) _ (by decide)
theorem ldrReg (ro rb rd : LowReg) : Statement (.ldrReg ro rb rd) :=
  fun _ => show _ &&& 0xFE00 = 0x5800 from or_put (or_put (or_put (by decide) _ (by decide)) _ (by decide)) _ (by decide)
theorem ldrhReg (ro rb rd : LowReg) : Statement (.ldrhReg ro rb rd) :=
  fun _ => show _ &&& 0xFE00 = 0x5A00 from or_put (or_put (or_put (by decide) _ (by decide)) _ (by decide)) _ (by decide)
theorem ldrbReg (ro rb rd : LowReg) : Statement (.ldrbReg ro rb rd) :=
  fun _ => show _ &&& 0xFE00 = 0x5C00 from or_put (or_put (or_put (by decide) _ (by decide)) _ (by decide)) _ (by decide)
theorem ldshReg (ro rb rd : LowReg) : Statement (.ldshReg ro rb rd) :=
  fun _ => show _ &&& 0xFE00 = 0x5E00 from or_put (or_put (or_put (by decide) _ (by decide)) _ (by decide)) _ (by decide)
theorem strImm (imm5 : BitVec 5) (rb rd : LowReg) : Statement (.strImm imm5 rb rd) :=
  fun _ => show _ &&& 0xF800 = 0x6000 from or_put (or_put (or_put (by decide) _ (by decide)) _ (by decide)) _ (by decide)
theorem ldrImm (imm5 : BitVec 5) (rb rd : LowReg) : Statement (.ldrImm imm5 rb rd) :=
  fun _ => show _ &&& 0xF800 = 0x6800 from or_put (or_put (or_put (by decide) _ (by decide)) _ (by decide)) _ (by decide)
theorem strbImm (imm5 : BitVec 5) (rb rd : LowReg) : Statement (.strbImm imm5 rb rd) :=
  fun _ => show _ &&& 0xF800 = 0x7000 from or_put (or_put (or_put (by decide) _ (by decide)) _ (by decide)) _ (by decide)
theorem ldrbImm (imm5 : BitVec 5) (rb rd : LowReg) : Statement (.ldrbImm imm5 rb rd) :=
  fun _ => show _ &&& 0xF800 = 0x7800 from or_put (or_put (or_put (by decide) _ (by decide)) _ (by decide)) _ (by decide)
theorem strhImm (imm5 : BitVec 5) (rb rd : LowReg) : Statement (.strhImm imm5 rb rd) :=
  fun _ => show _ &&& 0xF800 = 0x8000 from or_put (or_put (or_put (by decide) _ (by decide)) _ (by decide)) _ (by decide)
theorem ldrhImm (imm5 : BitVec 5) (rb rd : LowReg) : Statement (.ldrhImm imm5 rb rd) :=
  fun _ => show _ &&& 0xF800 = 0x8800 from or_put (or_put (or_put (by decide) _ (by decide)) _ (by decide)) _ (by decide)
theorem push (r : Bool) (rlist : BitVec 8) : Statement (.push r rlist) :=
  fun _ => show _ &&& 0xFE00 = 0xB400 from or_put (or_put (by decide) _ (by decide)) _ (by decide)
theorem pop (r : Bool) (rlist : BitVec 8) : Statement (.pop r rlist) :=
  fun _ => show _ &&& 0xFE00 = 0xBC00 from or_put (or_put (by decide) _ (by decide)) _ (by decide)
theorem beq (imm8 : BitVec 8) : Statement (.beq imm8) :=
  fun _ => show _ &&& 0xFF00 = 0xD000 from or_put (by decide) _ (by decide)
theorem bne (imm8 : BitVec 8) : Statement (.bne imm8) :=
  fun _ => show _ &&& 0xFF00 = 0xD100 from or_put (by decide) _ (by decide)
theorem bcs (imm8 : BitVec 8) : Statement (.bcs imm8) :=
  fun _ => show _ &&& 0xFF00 = 0xD200 from or_put (by decide) _ (by decide)
theorem bcc (imm8 : BitVec 8) : Statement (.bcc imm8) :=
  fun _ => show _ &&& 0xFF00 = 0xD300 from or_put (by decide) _ (by decide)
theorem bmi (imm8 : BitVec 8) : Statement (.bmi imm8) :=
  fun _ => show _ &&& 0xFF00 = 0xD400 from or_put (by decide) _ (by decide)
theorem bpl (imm8 : BitVec 8) : Statement (.bpl imm8) :=
  fun _ => show _ &&& 0xFF00 = 0xD500 from or_put (by decide) _ (by decide)
theorem bvs (imm8 : BitVec 8) : Statement (.bvs imm8) :=
  fun _ => show _ &&& 0xFF00 = 0xD600 from or_put (by decide) _ (by decide)
theorem bvc (imm8 : BitVec 8) : Statement (.bvc imm8) :=
  fun _ => show _ &&& 0xFF00 = 0xD700 from or_put (by decide) _ (by decide)
theorem bhi (imm8 : BitVec 8) : Statement (.bhi imm8) :=
  fun _ => show _ &&& 0xFF00 = 0xD800 from or_put (by decide) _ (by decide)
theorem bls (imm8 : BitVec 8) : Statement (.bls imm8) :=
  fun _ => show _ &&& 0xFF00 = 0xD900 from or_put (by decide) _ (by decide)
theorem bge (imm8 : BitVec 8) : Statement (.bge imm8) :=
  fun _ => show _ &&& 0xFF00 = 0xDA00 from or_put (by decide) _ (by decide)
theorem blt (imm8 : BitVec 8) : Statement (.blt imm8) :=
  fun _ => show _ &&& 0xFF00 = 0xDB00 from or_put (by decide) _ (by decide)
theorem bgt (imm8 : BitVec 8) : Statement (.bgt imm8) :=
  fun _ => show _ &&& 0xFF00 = 0xDC00 from or_put (by decide) _ (by decide)
theorem ble (imm8 : BitVec 8) : Statement (.ble imm8) :=
  fun _ => show _ &&& 0xFF00 = 0xDD00 from or_put (by decide) _ (by decide)
theorem blHi (imm11 : BitVec 11) : Statement (.blHi imm11) :=
  fun _ => show _ &&& 0xF800 = 0xF000 from or_put (by decide) _ (by decide)
theorem blLo (imm11 : BitVec 11) : Statement (.blLo imm11) :=
  fun _ => show _ &&& 0xF800 = 0xF800 from or_put (by decide) _ (by decide)
theorem blxLo (imm11 : BitVec 11) : Statement (.blxLo imm11) :=
  fun _ => show _ &&& 0xF800 = 0xE800 from or_put (by decide) _ (by decide)
theorem invalid9000 (word : Half) : Statement (.invalid9000 word) :=
  fun h => beq_iff_eq.1 (show (word &&& 0xF000 == 0x9000) = true from h)
theorem invalidA000 (word : Half) : Statement (.invalidA000 word) :=
  fun h => beq_iff_eq.1 (show (word &&& 0xF000 == 0xA000) = true from h)
theorem invalidB000 (word : Half) : Statement (.invalidB000 word) :=
  fun h => beq_iff_eq.1 (show (word &&& 0xF600 == 0xB000) = true from h)
theorem invalidB200 (word : Half) : Statement (.invalidB200 word) :=
  fun h => beq_iff_eq.1 (show (word &&& 0xF600 == 0xB200) = true from h)
theorem invalidB600 (word : Half) : Statement (.invalidB600 word) :=
  fun h => beq_iff_eq.1 (show (word &&& 0xF600 == 0xB600) = true from h)
theorem invalidC000 (word : Half) : Statement (.invalidC000 word) :=
  fun h => beq_iff_eq.1 (show (word &&& 0xF000 == 0xC000) = true from h)
theorem invalidE000 (word : Half) : Statement (.invalidE000 word) :=
  fun h => beq_iff_eq.1 (show (word &&& 0xF800 == 0xE000) = true from h)
theorem invalidCond14 (word : Half) : Statement (.invalidCond14 word) :=
  fun h => beq_iff_eq.1 (show (word &&& 0xFF00 == 0xDE00) = true from h)
theorem invalidSwi (word : Half) : Statement (.invalidSwi word) :=
  fun h => beq_iff_eq.1 (show (word &&& 0xFF00 == 0xDF00) = true from h)

end Sys2Proof.Laws.RowMatch
end

