-- ==== Sys2Proof/Laws/PushPop.lean ====
section
/-!
SUPPORT. Everything the stores of a push and the loads of a pop do, for any list of registers.
-/

namespace Sys2Proof.Machine

theorem wordAddr_zero (a : Word) : wordAddr a 0 = a := by simp [wordAddr]

theorem wordAddr_succ (a : Word) (j : Nat) : wordAddr (a + 4) j = wordAddr a (j + 1) := by
  unfold wordAddr
  rw [BitVec.add_assoc, Nat.mul_add, Nat.add_comm (4 * j), BitVec.ofNat_add]
  rfl

theorem span_append (a : Word) (m n : Nat) : span a (m + n) = span a m ++ span (a + BitVec.ofNat 32 m) n := by
  simp [span, List.range_add, BitVec.ofNat_add, BitVec.add_assoc, Function.comp_def]

theorem span_words (a : Word) (n : Nat) : span a (4 * (n + 1)) = span a 4 ++ span (a + 4) (4 * n) := by
  rw [Nat.mul_add, Nat.add_comm (4 * n), span_append]
  rfl

/-! ### The register lists -/

theorem mem_listedRegs (rlist : BitVec 8) (q : Reg) :
    q ∈ listedRegs rlist ↔ q.val < 8 ∧ rlist.getLsbD q.val = true := by
  have h : ∀ q : Reg, q ∈ ([0, 1, 2, 3, 4, 5, 6, 7] : List Reg) ↔ q.val < 8 := by decide
  rw [listedRegs, List.mem_filter, h]

theorem listedRegs_nodup (rlist : BitVec 8) : (listedRegs rlist).Nodup := List.Nodup.filter _ (by decide)

theorem not_mem_listedRegs (rlist : BitVec 8) (q : Reg) (h : 8 ≤ q.val) : q ∉ listedRegs rlist := by
  rw [mem_listedRegs]; omega

/-- The list of the meanings and the list of the statements are one. -/
theorem movedRegs_eq (rlist : BitVec 8) (l : List Reg) : movedRegs rlist l = listedRegs rlist ++ l := by
  have h : ([0, 1, 2, 3, 4, 5, 6, 7] : List Reg) = (List.finRange 8).map low := by decide
  rw [movedRegs, listedRegs, h, List.filter_map]
  rfl

theorem length_filter_toNat {α : Type} (p : α → Bool) (l : List α) :
    (l.filter p).length = l.foldr (fun i n => (p i).toNat + n) 0 := by
  induction l with
  | nil => rfl
  | cons a l ih => cases h : p a <;> simp [h, ih, Nat.add_comm]

/-- The set bits of the list are the listed registers. -/
theorem length_listedRegs (rlist : BitVec 8) : (listedRegs rlist).length = popcount rlist := by
  rw [listedRegs, length_filter_toNat]
  rfl

theorem length_pushRegs (r : Bool) (rlist : BitVec 8) : (pushRegs r rlist).length = transferCount r rlist := by
  cases r <;> simp [pushRegs, transferCount, length_listedRegs]

theorem length_popRegs (r : Bool) (rlist : BitVec 8) : (popRegs r rlist).length = transferCount r rlist := by
  cases r <;> simp [popRegs, transferCount, length_listedRegs]

theorem popRegs_nodup (r : Bool) (rlist : BitVec 8) : (popRegs r rlist).Nodup := by
  cases r
  · simpa [popRegs] using listedRegs_nodup rlist
  · refine List.nodup_append.2 ⟨listedRegs_nodup rlist, by simp, ?_⟩
    intro a ha b hb e
    subst e
    exact not_mem_listedRegs rlist a (by rw [List.mem_singleton.1 hb]; decide) ha

/-! ### The stores of a push -/

theorem storeRegs_busOps (l : List Reg) : ∀ (a : Word) (s : State),
    (storeRegs l a s).busOps = s.busOps ++ l.mapIdx fun j q => BusOp.writeWord (wordAddr a j) (s.readReg q) := by
  induction l with
  | nil => intro a s; simp [storeRegs]
  | cons r l ih =>
    intro a s
    rw [storeRegs, ih]
    simp only [wordAddr_succ]
    simp [State.memWriteWord, wordAddr_zero]

theorem storeRegs_bytesKeptBut (l : List Reg) : ∀ (a : Word) (s : State),
    BytesKeptBut s (storeRegs l a s) (span a (4 * l.length)) := by
  induction l with
  | nil => intro a s; exact ⟨fun _ _ _ => rfl, rfl, rfl⟩
  | cons r l ih =>
    intro a s
    rw [List.length_cons, span_words]
    exact bytesKeptBut_trans (bytesKeptBut_memWriteWord s a (s.readReg r)) (ih (a + 4) _)

/-- The devices take a push's requests one after the other. -/
theorem storeRegs_busState (l : List Reg) : ∀ (a : Word) (s : State),
    (storeRegs l a s).busState =
      busStateAfter s (l.mapIdx fun j q => BusOp.writeWord (wordAddr a j) (s.readReg q)) := by
  induction l with
  | nil => intro a s; rfl
  | cons r l ih =>
    intro a s
    rw [storeRegs, ih, List.mapIdx_cons, busStateAfter_cons, wordAddr_zero]
    simp only [← wordAddr_succ]
    rw [busStateAfter_congr (s := s.request (.writeWord a (s.readReg r)))] <;> simp [State.memWriteWord]

/-- A part of writable bytes is writable. -/
theorem writableSpan_split {s : State} {a : Word} {n : Nat} (h : WritableSpan s a (4 * (n + 1))) :
    WritableSpan s a 4 ∧ WritableSpan s (a + 4) (4 * n) ∧
    ∀ c ∈ span a 4, ∀ b ∈ span (a + 4) (4 * n), ¬ SameCell s c b := by
  unfold WritableSpan at h
  rw [span_words] at h
  obtain ⟨hwr, hp⟩ := h
  obtain ⟨p1, p2, pc⟩ := List.pairwise_append.1 hp
  exact ⟨⟨fun b hb => hwr b (List.mem_append_left _ hb), p1⟩, ⟨fun b hb => hwr b (List.mem_append_right _ hb), p2⟩, pc⟩

/-- The `j`-th word of writable bytes is writable. -/
theorem writableSpan_wordAddr {s : State} (n : Nat) : ∀ (a : Word), WritableSpan s a (4 * n) → ∀ j < n,
    WritableSpan s (wordAddr a j) 4 := by
  induction n with
  | zero => intro a _ j hj; omega
  | succ n ih =>
    intro a h j hj
    obtain ⟨h4, hr, -⟩ := writableSpan_split h
    cases j with
    | zero => rwa [wordAddr_zero]
    | succ j => rw [← wordAddr_succ]; exact ih _ hr j (by omega)

/-- Every byte of every stored register is read back, where the bus maps the bytes writable, each to a cell of its own. -/
theorem storeRegs_byteAt (l : List Reg) : ∀ (a : Word) (s : State), s.mem.wf = true →
    WritableSpan s a (4 * l.length) → ∀ j q, l[j]? = some q → ∀ k < 4,
      (storeRegs l a s).byteAt (wordAddr a j + BitVec.ofNat 32 k) = (s.readReg q).extractLsb' (8 * k) 8 := by
  induction l with
  | nil => intro a s _ _ j q h; simp at h
  | cons r l ih =>
    intro a s hw hs j q h k hk
    have hm : (s.memWriteWord a (s.readReg r)).memMap = s.memMap := by simp [State.memWriteWord]
    obtain ⟨h4, hr, pc⟩ := writableSpan_split (by simpa using hs)
    cases j with
    | zero =>
      obtain rfl : r = q := by simpa using h
      have hc : a + BitVec.ofNat 32 k ∈ span a 4 := List.mem_map.2 ⟨k, List.mem_range.2 hk, rfl⟩
      rw [storeRegs, wordAddr_zero, byteAt_of_bytesKeptBut (storeRegs_bytesKeptBut l (a + 4) _)
        ((State.externalAt_congr hm _).trans (externalAt_of_writable (h4.1 _ hc)))
        fun b hb => by rw [sameCell_congr hm]; exact fun e => pc _ hc b hb (sameCell_symm e)]
      exact byteAt_memWriteWord s a (s.readReg r) hw h4 k hk
    | succ j =>
      have hw' : (s.memWriteWord a (s.readReg r)).mem.wf = true := State.putWord_mem_wf _ _ _ hw
      rw [storeRegs, ← wordAddr_succ, ih _ _ hw' ((writableSpan_congr hm _ _).2 hr) j q (by simpa using h) k hk]
      simp [State.memWriteWord]

theorem mem_span {a : Word} {n k : Nat} (h : k < n) : a + BitVec.ofNat 32 k ∈ span a n :=
  List.mem_map.2 ⟨k, List.mem_range.2 h, rfl⟩

/-- The `j`-th word of an access of plain memory is plain memory. -/
theorem external_wordAddr {s : State} {a : Word} {n j : Nat} (h : s.external a (4 * n) = false) (hj : j < n) :
    s.external (wordAddr a j) 4 = false := by
  refine State.external_of_externalAt fun b hb => State.externalAt_of_external h ?_
  obtain ⟨k, hk, rfl⟩ := List.mem_map.1 hb
  rw [wordAddr, BitVec.add_assoc, ← BitVec.ofNat_add]
  exact mem_span (by have := List.mem_range.1 hk; omega)

/-- Every stored register is read back, where the bus maps the bytes writable, each to a cell of its own. -/
theorem storeRegs_wordAt (l : List Reg) (a : Word) (s : State) (hw : s.mem.wf = true)
    (hs : WritableSpan s a (4 * l.length)) (j : Nat) (q : Reg) (h : l[j]? = some q) :
    (storeRegs l a s).wordAt (wordAddr a j) = s.readReg q := by
  have e := storeRegs_byteAt l a s hw hs j q h
  have hj : j < l.length := (List.getElem?_eq_some_iff.1 h).1
  have hm : (storeRegs l a s).memMap = s.memMap := (storeRegs_fields l a s).2.2.2.2.2.1
  have e0 := e 0 (by omega)
  rw [show wordAddr a j + BitVec.ofNat 32 0 = wordAddr a j from BitVec.add_zero _] at e0
  rw [State.wordAt_mem ((State.external_congr hm _ _).trans (external_wordAddr (external_of_writableSpan hs) hj)), e0,
    show (storeRegs l a s).byteAt (wordAddr a j + 1) = _ from e 1 (by omega),
    show (storeRegs l a s).byteAt (wordAddr a j + 2) = _ from e 2 (by omega),
    show (storeRegs l a s).byteAt (wordAddr a j + 3) = _ from e 3 (by omega), word_of_bytes]

/-! ### The loads of a pop -/

theorem loadRegs_fst (l : List Reg) : ∀ (a : Word) (s : State), (loadRegs l a s).1 = wordAddr a l.length := by
  induction l with
  | nil => intro a s; exact (wordAddr_zero a).symm
  | cons r l ih => intro a s; rw [loadRegs, List.length_cons, ← wordAddr_succ]; exact ih _ _

/-- What one load of a pop leaves for the next: the map, memory and the draw, and the devices after its request. -/
theorem afterWordReads_succ (s : State) (r : Reg) (v : Word) (a : Word) (j : Nat) :
    afterWordReads ((s.request (.readWord a v)).writeReg r v) (a + 4) j = afterWordReads s a (j + 1) := by
  induction j with
  | zero =>
    simp only [afterWordReads, wordAddr_zero, State.writeReg_busState, State.request_busState]
    rfl
  | succ j ih =>
    rw [afterWordReads, ih, afterWordReads, wordAddr_succ]
    exact State.busAfter_congr (s := { s with busState := afterWordReads s a (j + 1) })
      (t := { (s.request (.readWord a v)).writeReg r v with busState := afterWordReads s a (j + 1) }) (by simp) rfl _

theorem wordRead_succ (s : State) (r : Reg) (v : Word) (a : Word) (j : Nat) :
    wordRead ((s.request (.readWord a v)).writeReg r v) (a + 4) j = wordRead s a (j + 1) := by
  rw [wordRead, afterWordReads_succ, wordRead, wordAddr_succ]
  exact State.wordAt_congr (s := { s with busState := afterWordReads s a (j + 1) })
    (t := { (s.request (.readWord a v)).writeReg r v with busState := afterWordReads s a (j + 1) })
    (by simp) (by simp) (by simp) rfl _

theorem wordRead_zero (s : State) (a : Word) : wordRead s a 0 = s.wordAt a := by
  rw [wordRead, wordAddr_zero]; rfl

/-- Reads of plain memory leave the devices alone, and each returns the word there. -/
theorem afterWordReads_mem {s : State} {a : Word} {n : Nat} (h : s.external a (4 * n) = false) :
    ∀ j ≤ n, afterWordReads s a j = s.busState := by
  intro j
  induction j with
  | zero => intro _; rfl
  | succ j ih =>
    intro hj
    rw [afterWordReads, State.busAfter]
    simp only [ih (by omega), external_wordAddr h (show j < n by omega)]
    rfl

theorem wordRead_mem {s : State} {a : Word} {n j : Nat} (h : s.external a (4 * n) = false) (hj : j < n) :
    wordRead s a j = s.wordAt (wordAddr a j) := by
  rw [wordRead, afterWordReads_mem h j (by omega)]

theorem loadRegs_busOps (l : List Reg) : ∀ (a : Word) (s : State),
    (loadRegs l a s).2.busOps = s.busOps ++ l.mapIdx fun j _ => BusOp.readWord (wordAddr a j) (wordRead s a j) := by
  induction l with
  | nil => intro a s; simp [loadRegs]
  | cons r l ih =>
    intro a s
    show (loadRegs l (a + 4) ((s.request (.readWord a (s.wordAt a))).writeReg r (s.wordAt a))).2.busOps = _
    rw [ih]
    simp only [wordRead_succ, wordAddr_succ]
    simp [wordAddr_zero, wordRead_zero]

/-- The devices take a pop's requests one after the other. -/
theorem loadRegs_busState (l : List Reg) : ∀ (a : Word) (s : State),
    (loadRegs l a s).2.busState =
      busStateAfter s (l.mapIdx fun j _ => BusOp.readWord (wordAddr a j) (wordRead s a j)) := by
  induction l with
  | nil => intro a s; rfl
  | cons r l ih =>
    intro a s
    show (loadRegs l (a + 4) ((s.request (.readWord a (s.wordAt a))).writeReg r (s.wordAt a))).2.busState = _
    rw [ih, List.mapIdx_cons, busStateAfter_cons, wordAddr_zero, wordRead_zero]
    simp only [wordRead_succ, ← wordAddr_succ]
    exact busStateAfter_congr (by simp) (by simp) _

/-- Every loaded register holds the word its read returned. -/
theorem loadRegs_readReg (l : List Reg) : ∀ (a : Word) (s : State), l.Nodup → ∀ j q, l[j]? = some q → q ≠ PC →
    (loadRegs l a s).2.readReg q = wordRead s a j := by
  induction l with
  | nil => intro a s _ j q h; simp at h
  | cons r l ih =>
    intro a s hn j q h hq
    obtain ⟨hr, hn⟩ := List.nodup_cons.1 hn
    show (loadRegs l (a + 4) ((s.request (.readWord a (s.wordAt a))).writeReg r (s.wordAt a))).2.readReg q = _
    cases j with
    | zero =>
      obtain rfl : r = q := by simpa using h
      rw [loadRegs_regsKept l _ _ r hr, wordRead_zero]
      simp [hq]
    | succ j => rw [ih _ _ hn j q (by simpa using h) hq, wordRead_succ]

/-- A load of register 15 is the pending PC (R18); without it the pending PC stays. -/
theorem loadRegs_pcPending (l : List Reg) : ∀ (a : Word) (s : State), PC ∉ l →
    (loadRegs l a s).2.pcPending = s.pcPending ∧
    (loadRegs (l ++ [PC]) a s).2.pcPending = wordRead s a l.length := by
  induction l with
  | nil => intro a s _; simp [loadRegs, wordRead_zero]
  | cons r l ih =>
    intro a s h
    simp only [List.mem_cons, not_or] at h
    have := ih (a + 4) ((s.request (.readWord a (s.wordAt a))).writeReg r (s.wordAt a)) h.2
    rw [wordRead_succ] at this
    exact ⟨this.1.trans (State.writeReg_pcPending_stored _ _ _ (Ne.symm h.1)), this.2⟩

end Sys2Proof.Machine
end

