-- ==== Sys2Proof/Tests/Slice0.lean ====
section
/-!
SUPPORT. The model's own tests: ill-formed terms, a word for every row, one vector of spec/95_test_vectors.md per
instruction, and for every statement with hypotheses a witness that meets them. The expected values are the spec's, not the
model's.
-/

namespace Sys2Proof.Tests

open Sys2Proof.Machine

/-! ### Helpers -/

/-- The state a vector starts from: the conventions of spec/95_test_vectors.md, the reference bus, T = 1. -/
def start (ia : Word) (regs : List (Reg × Word)) (flags : Flags) (mem : Memory) : State :=
  let s := State.boot (Vector.replicate 15 0) flags ia referenceMap mem 0
  regs.foldl (fun u p => u.writeReg p.1 p.2) { s with pcRead := ia + 4, pcPending := ia + 2 }

/-- The step completes in the state a vector ends with; a register that is not listed is 0. -/
def gives (o : StepResult) (regs : List (Reg × Word)) (pending : Word) (flags : Flags) (t : Bool) (ops : List BusOp) : Bool :=
  match o with
  | .next s => s.regs == (start 0 regs flags []).regs && s.pcPending == pending && s.flags == flags && s.t == t &&
      s.busOps == ops
  | .fault _ => false
  | .refused _ => false

/-- The step raises the invalid-opcode signal with this word and reason. -/
def signals (o : StepResult) (word : Half) (reason : InvalidReason) : Bool :=
  match o with
  | .next _ => false
  | .fault f => f == .invalidOpcode word reason
  | .refused _ => false

/-- Whether the step completes. -/
def completes (o : StepResult) : Bool :=
  match o with
  | .next _ => true
  | .fault _ => false
  | .refused _ => false

/-- The match value and the highest word of each row meet the row's mask. -/
def meetsRows (l : List (Half × Half × Half)) : Bool :=
  l.all fun r => r.2.1 &&& r.1 == r.2.1 && r.2.2 &&& r.1 == r.2.1

/-! ### Ill-formed terms: a term of each invalid row with a word outside the row (R76, R77) -/

theorem test_wellFormed_refuses_invalid9000 : (Instr.invalid9000 0xA000).wellFormed = false := by decide
theorem test_wellFormed_refuses_invalidA000 : (Instr.invalidA000 0x9FFF).wellFormed = false := by decide
theorem test_wellFormed_refuses_invalidB000 : (Instr.invalidB000 0xB400).wellFormed = false := by decide
theorem test_wellFormed_refuses_invalidB200 : (Instr.invalidB200 0xB800).wellFormed = false := by decide
theorem test_wellFormed_refuses_invalidB600 : (Instr.invalidB600 0xB400).wellFormed = false := by decide
theorem test_wellFormed_refuses_invalidC000 : (Instr.invalidC000 0xD000).wellFormed = false := by decide
theorem test_wellFormed_refuses_invalidE000 : (Instr.invalidE000 0xE800).wellFormed = false := by decide
theorem test_wellFormed_refuses_invalidCond14 : (Instr.invalidCond14 0xDF00).wellFormed = false := by decide
theorem test_wellFormed_refuses_invalidSwi : (Instr.invalidSwi 0xDE00).wellFormed = false := by decide

/-! ### Decoding: a word of every row, written bit by bit from the row's fixed bits and fields -/

/-- Format 1 (R62), one word per row. -/
theorem test_decode_f1 :
    decodeWord 0b0000010011101010 = .lslImm 0x13 5 2 ∧
    decodeWord 0b0000110011101010 = .lsrImm 0x13 5 2 ∧
    decodeWord 0b0001010011101010 = .asrImm 0x13 5 2 := by decide

/-- Format 2 (R63), one word per row. -/
theorem test_decode_f2 :
    decodeWord 0b0001100110101010 = .addReg 6 5 2 ∧
    decodeWord 0b0001101110101010 = .subReg 6 5 2 ∧
    decodeWord 0b0001110100101010 = .addImm3 4 5 2 ∧
    decodeWord 0b0001111100101010 = .subImm3 4 5 2 := by decide

/-- Format 3 (R64), one word per row. -/
theorem test_decode_f3 :
    decodeWord 0b0010001010110001 = .movImm8 2 0xb1 ∧
    decodeWord 0b0010101010110001 = .cmpImm8 2 0xb1 ∧
    decodeWord 0b0011001010110001 = .addImm8 2 0xb1 ∧
    decodeWord 0b0011101010110001 = .subImm8 2 0xb1 := by decide

/-- Format 4 (R65), one word per row. -/
theorem test_decode_f4 :
    decodeWord 0b0100000000101010 = .and 5 2 ∧
    decodeWord 0b0100000001101010 = .eor 5 2 ∧
    decodeWord 0b0100000010101010 = .lslReg 5 2 ∧
    decodeWord 0b0100000011101010 = .lsrReg 5 2 ∧
    decodeWord 0b0100000100101010 = .asrReg 5 2 ∧
    decodeWord 0b0100000101101010 = .adc 5 2 ∧
    decodeWord 0b0100000110101010 = .sbc 5 2 ∧
    decodeWord 0b0100000111101010 = .ror 5 2 ∧
    decodeWord 0b0100001000101010 = .tst 5 2 ∧
    decodeWord 0b0100001001101010 = .neg 5 2 ∧
    decodeWord 0b0100001010101010 = .cmpReg 5 2 ∧
    decodeWord 0b0100001011101010 = .cmn 5 2 ∧
    decodeWord 0b0100001100101010 = .orr 5 2 ∧
    decodeWord 0b0100001101101010 = .mul 5 2 ∧
    decodeWord 0b0100001110101010 = .bic 5 2 ∧
    decodeWord 0b0100001111101010 = .mvn 5 2 := by decide

/-- Format 5 (R66), one word per row. -/
theorem test_decode_f5 :
    decodeWord 0b0100010010110011 = .addHi 6 11 ∧
    decodeWord 0b0100010110110011 = .cmpHi 6 11 ∧
    decodeWord 0b0100011010110011 = .movHi 6 11 ∧
    decodeWord 0b0100011100110101 = .bx 6 5 ∧
    decodeWord 0b0100011110110101 = .blxReg 6 5 := by decide

/-- Format 6 (R67), one word per row. -/
theorem test_decode_f6 :
    decodeWord 0b0100101010110001 = .ldrPc 2 0xb1 := by decide

/-- Format 7 (R68), one word per row. -/
theorem test_decode_f7 :
    decodeWord 0b0101000110101010 = .strReg 6 5 2 ∧
    decodeWord 0b0101010110101010 = .strbReg 6 5 2 ∧
    decodeWord 0b0101100110101010 = .ldrReg 6 5 2 ∧
    decodeWord 0b0101110110101010 = .ldrbReg 6 5 2 := by decide

/-- Format 8 (R69), one word per row. -/
theorem test_decode_f8 :
    decodeWord 0b0101001110101010 = .strhReg 6 5 2 ∧
    decodeWord 0b0101011110101010 = .ldsbReg 6 5 2 ∧
    decodeWord 0b0101101110101010 = .ldrhReg 6 5 2 ∧
    decodeWord 0b0101111110101010 = .ldshReg 6 5 2 := by decide

/-- Format 9 (R70), one word per row. -/
theorem test_decode_f9 :
    decodeWord 0b0110010011101010 = .strImm 0x13 5 2 ∧
    decodeWord 0b0110110011101010 = .ldrImm 0x13 5 2 ∧
    decodeWord 0b0111010011101010 = .strbImm 0x13 5 2 ∧
    decodeWord 0b0111110011101010 = .ldrbImm 0x13 5 2 := by decide

/-- Format 10 (R71), one word per row. -/
theorem test_decode_f10 :
    decodeWord 0b1000010011101010 = .strhImm 0x13 5 2 ∧
    decodeWord 0b1000110011101010 = .ldrhImm 0x13 5 2 := by decide

/-- Format 14 (R72), one word per row. -/
theorem test_decode_f14 :
    decodeWord 0b1011010110100110 = .push true 0xa6 ∧
    decodeWord 0b1011110110100110 = .pop true 0xa6 := by decide

/-- Format 16 (R73, R77), one word per row. -/
theorem test_decode_f16 :
    decodeWord 0b1101000010110001 = .beq 0xb1 ∧
    decodeWord 0b1101000110110001 = .bne 0xb1 ∧
    decodeWord 0b1101001010110001 = .bcs 0xb1 ∧
    decodeWord 0b1101001110110001 = .bcc 0xb1 ∧
    decodeWord 0b1101010010110001 = .bmi 0xb1 ∧
    decodeWord 0b1101010110110001 = .bpl 0xb1 ∧
    decodeWord 0b1101011010110001 = .bvs 0xb1 ∧
    decodeWord 0b1101011110110001 = .bvc 0xb1 ∧
    decodeWord 0b1101100010110001 = .bhi 0xb1 ∧
    decodeWord 0b1101100110110001 = .bls 0xb1 ∧
    decodeWord 0b1101101010110001 = .bge 0xb1 ∧
    decodeWord 0b1101101110110001 = .blt 0xb1 ∧
    decodeWord 0b1101110010110001 = .bgt 0xb1 ∧
    decodeWord 0b1101110110110001 = .ble 0xb1 ∧
    decodeWord 0b1101111001011010 = .invalidCond14 0xDE5A ∧
    decodeWord 0b1101111101011010 = .invalidSwi 0xDF5A := by decide

/-- Format 19a (R74), one word per row. -/
theorem test_decode_f19a :
    decodeWord 0b1111010110100011 = .blHi 0x5a3 := by decide

/-- Format 19b (R74), one word per row. -/
theorem test_decode_f19b :
    decodeWord 0b1111110110100011 = .blLo 0x5a3 ∧
    decodeWord 0b1110110110100011 = .blxLo 0x5a3 := by decide

/-- No format (R76), one word per row. -/
theorem test_decode_no_format :
    decodeWord 0b1001101001011010 = .invalid9000 0x9A5A ∧
    decodeWord 0b1010101001011010 = .invalidA000 0xAA5A ∧
    decodeWord 0b1011100001011010 = .invalidB000 0xB85A ∧
    decodeWord 0b1011101001011010 = .invalidB200 0xBA5A ∧
    decodeWord 0b1011111001011010 = .invalidB600 0xBE5A ∧
    decodeWord 0b1100101001011010 = .invalidC000 0xCA5A ∧
    decodeWord 0b1110001001011010 = .invalidE000 0xE25A := by decide

/-! ### One vector of spec/95_test_vectors.md for each instruction -/

theorem test_lslImm :
    gives (blockStep 0x0008 (start 0x1000 [(1, 0x80000000)] ⟨false, false, true, false⟩ []))
      [(0, 0x80000000), (1, 0x80000000)] 0x1002 ⟨true, false, true, false⟩ true [] = true := by decide
theorem test_lsrImm :
    gives (blockStep 0x0808 (start 0x1000 [(1, 0x80000001)] ⟨false, false, false, false⟩ []))
      [(0, 0x0), (1, 0x80000001)] 0x1002 ⟨false, true, true, false⟩ true [] = true := by decide
theorem test_asrImm :
    gives (blockStep 0x1008 (start 0x1000 [(1, 0x80000000)] ⟨false, false, false, false⟩ []))
      [(0, 0xFFFFFFFF), (1, 0x80000000)] 0x1002 ⟨true, false, true, false⟩ true [] = true := by decide
theorem test_addReg :
    gives (blockStep 0x1849 (start 0x1000 [(1, 0x80000000)] ⟨false, false, false, false⟩ []))
      [(1, 0x0)] 0x1002 ⟨false, true, true, true⟩ true [] = true := by decide
theorem test_subReg :
    gives (blockStep 0x1A48 (start 0x1000 [(1, 0x1234)] ⟨false, false, false, false⟩ []))
      [(0, 0x0), (1, 0x1234)] 0x1002 ⟨false, true, true, false⟩ true [] = true := by decide
theorem test_addImm3 :
    gives (blockStep 0x1C08 (start 0x1000 [(1, 0x80000000)] ⟨false, true, true, true⟩ []))
      [(0, 0x80000000), (1, 0x80000000)] 0x1002 ⟨true, false, false, false⟩ true [] = true := by decide
theorem test_subImm3 :
    gives (blockStep 0x1E48 (start 0x1000 [(1, 0x0)] ⟨false, false, false, false⟩ []))
      [(0, 0xFFFFFFFF), (1, 0x0)] 0x1002 ⟨true, false, false, false⟩ true [] = true := by decide
theorem test_movImm8 :
    gives (blockStep 0x27FF (start 0x1000 [] ⟨true, true, false, false⟩ []))
      [(7, 0xFF)] 0x1002 ⟨false, false, false, false⟩ true [] = true := by decide
theorem test_cmpImm8 :
    gives (blockStep 0x2805 (start 0x1000 [(0, 0x5)] ⟨false, false, false, false⟩ []))
      [(0, 0x5)] 0x1002 ⟨false, true, true, false⟩ true [] = true := by decide
theorem test_addImm8 :
    gives (blockStep 0x30FF (start 0x1000 [(0, 0xFFFFFF01)] ⟨false, false, false, false⟩ []))
      [(0, 0x0)] 0x1002 ⟨false, true, true, false⟩ true [] = true := by decide
theorem test_subImm8 :
    gives (blockStep 0x38FF (start 0x1000 [(0, 0x100)] ⟨false, false, false, false⟩ []))
      [(0, 0x1)] 0x1002 ⟨false, false, true, false⟩ true [] = true := by decide
theorem test_and :
    gives (blockStep 0x4008 (start 0x1000 [(0, 0xF0F0F0F0), (1, 0xFF00FF0)] ⟨false, false, true, true⟩ []))
      [(0, 0xF000F0), (1, 0xFF00FF0)] 0x1002 ⟨false, false, true, true⟩ true [] = true := by decide
theorem test_eor :
    gives (blockStep 0x4040 (start 0x1000 [(0, 0x12345678)] ⟨false, false, true, false⟩ []))
      [(0, 0x0)] 0x1002 ⟨false, true, true, false⟩ true [] = true := by decide
theorem test_lslReg :
    gives (blockStep 0x4088 (start 0x1000 [(0, 0x80000001), (1, 0x0)] ⟨false, false, true, false⟩ []))
      [(0, 0x80000001), (1, 0x0)] 0x1002 ⟨true, false, true, false⟩ true [] = true := by decide
theorem test_lsrReg :
    gives (blockStep 0x40C8 (start 0x1000 [(0, 0x2), (1, 0x0)] ⟨false, false, true, false⟩ []))
      [(0, 0x0), (1, 0x0)] 0x1002 ⟨false, true, false, false⟩ true [] = true := by decide
theorem test_asrReg :
    gives (blockStep 0x4108 (start 0x1000 [(0, 0x7FFFFFFF), (1, 0x100)] ⟨false, false, true, false⟩ []))
      [(0, 0x0), (1, 0x100)] 0x1002 ⟨false, true, false, false⟩ true [] = true := by decide
theorem test_adc :
    gives (blockStep 0x4148 (start 0x1000 [(0, 0xFFFFFFFF), (1, 0x0)] ⟨false, false, true, false⟩ []))
      [(0, 0x0), (1, 0x0)] 0x1002 ⟨false, true, false, false⟩ true [] = true := by decide
theorem test_sbc :
    gives (blockStep 0x4188 (start 0x1000 [(0, 0x5), (1, 0x5)] ⟨false, false, true, false⟩ []))
      [(0, 0xFFFFFFFF), (1, 0x5)] 0x1002 ⟨true, false, true, false⟩ true [] = true := by decide
theorem test_ror :
    gives (blockStep 0x41C8 (start 0x1000 [(0, 0x80000000), (1, 0x20)] ⟨false, false, false, false⟩ []))
      [(0, 0x80000000), (1, 0x20)] 0x1002 ⟨true, false, true, false⟩ true [] = true := by decide
theorem test_tst :
    gives (blockStep 0x4208 (start 0x1000 [(0, 0x80000000), (1, 0x80000000)] ⟨false, false, true, true⟩ []))
      [(0, 0x80000000), (1, 0x80000000)] 0x1002 ⟨true, false, true, true⟩ true [] = true := by decide
theorem test_neg :
    gives (blockStep 0x4248 (start 0x1000 [(0, 0x99), (1, 0x1)] ⟨false, false, false, false⟩ []))
      [(0, 0xFFFFFFFF), (1, 0x1)] 0x1002 ⟨true, false, true, false⟩ true [] = true := by decide
theorem test_cmpReg :
    gives (blockStep 0x4288 (start 0x1000 [(0, 0x2), (1, 0x3)] ⟨false, false, true, false⟩ []))
      [(0, 0x2), (1, 0x3)] 0x1002 ⟨true, false, false, false⟩ true [] = true := by decide
theorem test_cmn :
    gives (blockStep 0x42C8 (start 0x1000 [(0, 0x1), (1, 0xFFFFFFFF)] ⟨false, false, false, false⟩ []))
      [(0, 0x1), (1, 0xFFFFFFFF)] 0x1002 ⟨false, true, true, false⟩ true [] = true := by decide
theorem test_orr :
    gives (blockStep 0x4308 (start 0x1000 [(0, 0x80000000), (1, 0x1)] ⟨false, false, false, true⟩ []))
      [(0, 0x80000001), (1, 0x1)] 0x1002 ⟨true, false, false, true⟩ true [] = true := by decide
theorem test_mul :
    gives (blockStep 0x4348 (start 0x1000 [(0, 0xFFFFFFFF), (1, 0xFFFFFFFF)] ⟨false, false, false, false⟩ []))
      [(0, 0x1), (1, 0xFFFFFFFF)] 0x1002 ⟨false, false, false, false⟩ true [] = true := by decide
theorem test_bic :
    gives (blockStep 0x4388 (start 0x1000 [(0, 0xFFFFFFFF), (1, 0xFFFF)] ⟨false, false, true, true⟩ []))
      [(0, 0xFFFF0000), (1, 0xFFFF)] 0x1002 ⟨true, false, true, true⟩ true [] = true := by decide
theorem test_mvn :
    gives (blockStep 0x43C8 (start 0x1000 [(0, 0x1234), (1, 0x0)] ⟨false, false, true, true⟩ []))
      [(0, 0xFFFFFFFF), (1, 0x0)] 0x1002 ⟨true, false, true, true⟩ true [] = true := by decide
theorem test_addHi :
    gives (blockStep 0x448F (start 0x1000 [(1, 0x100)] ⟨false, false, false, false⟩ []))
      [(1, 0x100)] 0x1104 ⟨false, false, false, false⟩ true [] = true := by decide
theorem test_cmpHi :
    gives (blockStep 0x4587 (start 0x1000 [(0, 0x1004)] ⟨false, false, false, false⟩ []))
      [(0, 0x1004)] 0x1002 ⟨false, true, true, false⟩ true [] = true := by decide
theorem test_movHi :
    gives (blockStep 0x46F7 (start 0x1000 [(14, 0x2001)] ⟨false, false, false, false⟩ []))
      [(14, 0x2001)] 0x2001 ⟨false, false, false, false⟩ true [] = true := by decide
theorem test_bx :
    gives (blockStep 0x4708 (start 0x1000 [(1, 0x2002)] ⟨false, false, false, false⟩ []))
      [(1, 0x2002)] 0x2000 ⟨false, false, false, false⟩ false [] = true := by decide
theorem test_blxReg :
    gives (blockStep 0x47F0 (start 0x1000 [(14, 0x3001)] ⟨false, false, false, false⟩ []))
      [(14, 0x1002)] 0x3001 ⟨false, false, false, false⟩ true [] = true := by decide
theorem test_ldrPc :
    gives (blockStep 0x4801 (start 0x1002 [] ⟨false, false, false, false⟩ [(0x1008, 0xD), (0x1009, 0xF0), (0x100A, 0xFE), (0x100B, 0xCA)]))
      [(0, 0xCAFEF00D)] 0x1004 ⟨false, false, false, false⟩ true [.readWord 0x1008 0xCAFEF00D] = true := by decide
theorem test_strReg :
    gives (blockStep 0x5088 (start 0x1000 [(0, 0x11223344), (1, 0x2000), (2, 0x8)] ⟨false, false, false, false⟩ []))
      [(0, 0x11223344), (1, 0x2000), (2, 0x8)] 0x1002 ⟨false, false, false, false⟩ true [.writeWord 0x2008 0x11223344] = true := by decide
theorem test_strhReg :
    gives (blockStep 0x5288 (start 0x1000 [(0, 0x11223344), (1, 0x2000), (2, 0x2)] ⟨false, false, false, false⟩ []))
      [(0, 0x11223344), (1, 0x2000), (2, 0x2)] 0x1002 ⟨false, false, false, false⟩ true [.writeHalf 0x2002 0x3344] = true := by decide
theorem test_strbReg :
    gives (blockStep 0x5488 (start 0x1000 [(0, 0x11223344), (1, 0x2000), (2, 0x3)] ⟨false, false, false, false⟩ []))
      [(0, 0x11223344), (1, 0x2000), (2, 0x3)] 0x1002 ⟨false, false, false, false⟩ true [.writeByte 0x2003 0x44] = true := by decide
theorem test_ldsbReg :
    gives (blockStep 0x5688 (start 0x1000 [(1, 0x2000), (2, 0x0)] ⟨false, false, false, false⟩ [(0x2000, 0x80)]))
      [(0, 0xFFFFFF80), (1, 0x2000), (2, 0x0)] 0x1002 ⟨false, false, false, false⟩ true [.readByte 0x2000 0x80] = true := by decide
theorem test_ldrReg :
    gives (blockStep 0x5889 (start 0x1000 [(1, 0x2000), (2, 0x0)] ⟨false, false, false, false⟩ [(0x2000, 0x55)]))
      [(1, 0x55), (2, 0x0)] 0x1002 ⟨false, false, false, false⟩ true [.readWord 0x2000 0x55] = true := by decide
theorem test_ldrhReg :
    gives (blockStep 0x5A88 (start 0x1000 [(0, 0xFFFFFFFF), (1, 0x2000), (2, 0x2)] ⟨false, false, false, false⟩ [(0x2000, 0xEF), (0x2001, 0xCD), (0x2002, 0xAB), (0x2003, 0x89)]))
      [(0, 0x89AB), (1, 0x2000), (2, 0x2)] 0x1002 ⟨false, false, false, false⟩ true [.readHalf 0x2002 0x89AB] = true := by decide
theorem test_ldrbReg :
    gives (blockStep 0x5C88 (start 0x1000 [(0, 0xFFFFFFFF), (1, 0x2000), (2, 0x1)] ⟨false, false, false, false⟩ [(0x2000, 0xEF), (0x2001, 0xCD), (0x2002, 0xAB), (0x2003, 0x89)]))
      [(0, 0xCD), (1, 0x2000), (2, 0x1)] 0x1002 ⟨false, false, false, false⟩ true [.readByte 0x2001 0xCD] = true := by decide
theorem test_ldshReg :
    gives (blockStep 0x5E88 (start 0x1000 [(1, 0x2000), (2, 0x2)] ⟨false, false, false, false⟩ [(0x2000, 0xEF), (0x2001, 0xCD), (0x2002, 0xAB), (0x2003, 0x89)]))
      [(0, 0xFFFF89AB), (1, 0x2000), (2, 0x2)] 0x1002 ⟨false, false, false, false⟩ true [.readHalf 0x2002 0x89AB] = true := by decide
theorem test_strImm :
    gives (blockStep 0x6008 (start 0x1000 [(0, 0xAABBCCDD), (1, 0x2003)] ⟨false, false, false, false⟩ []))
      [(0, 0xAABBCCDD), (1, 0x2003)] 0x1002 ⟨false, false, false, false⟩ true [.writeWord 0x2003 0xAABBCCDD] = true := by decide
theorem test_ldrImm :
    gives (blockStep 0x6808 (start 0x1000 [(1, 0x2001)] ⟨false, false, false, false⟩ [(0x2000, 0x11), (0x2001, 0x22), (0x2002, 0x33), (0x2003, 0x44), (0x2004, 0x55), (0x2005, 0x66), (0x2006, 0x77), (0x2007, 0x88)]))
      [(0, 0x55443322), (1, 0x2001)] 0x1002 ⟨false, false, false, false⟩ true [.readWord 0x2001 0x55443322] = true := by decide
theorem test_strbImm :
    gives (blockStep 0x77C8 (start 0x1000 [(0, 0x1FF), (1, 0x2000)] ⟨false, false, false, false⟩ []))
      [(0, 0x1FF), (1, 0x2000)] 0x1002 ⟨false, false, false, false⟩ true [.writeByte 0x201F 0xFF] = true := by decide
theorem test_ldrbImm :
    gives (blockStep 0x78C8 (start 0x1000 [(1, 0x2000)] ⟨false, false, false, false⟩ [(0x2000, 0xEF), (0x2001, 0xCD), (0x2002, 0xAB), (0x2003, 0x89)]))
      [(0, 0x89), (1, 0x2000)] 0x1002 ⟨false, false, false, false⟩ true [.readByte 0x2003 0x89] = true := by decide
theorem test_strhImm :
    gives (blockStep 0x87C8 (start 0x1000 [(0, 0xCAFEBABE), (1, 0x2000)] ⟨false, false, false, false⟩ []))
      [(0, 0xCAFEBABE), (1, 0x2000)] 0x1002 ⟨false, false, false, false⟩ true [.writeHalf 0x203E 0xBABE] = true := by decide
theorem test_ldrhImm :
    gives (blockStep 0x8808 (start 0x1000 [(1, 0x2001)] ⟨false, false, false, false⟩ [(0x2000, 0x11), (0x2001, 0x22), (0x2002, 0x33), (0x2003, 0x44)]))
      [(0, 0x3322), (1, 0x2001)] 0x1002 ⟨false, false, false, false⟩ true [.readHalf 0x2001 0x3322] = true := by decide
theorem test_push :
    gives (blockStep 0xB4F0 (start 0x1000 [(4, 0x44), (5, 0x55), (6, 0x66), (7, 0x77), (13, 0x3000)] ⟨false, false, false, false⟩ []))
      [(4, 0x44), (5, 0x55), (6, 0x66), (7, 0x77), (13, 0x2FF0)] 0x1002 ⟨false, false, false, false⟩ true [.writeWord 0x2FF0 0x44, .writeWord 0x2FF4 0x55, .writeWord 0x2FF8 0x66, .writeWord 0x2FFC 0x77] = true := by decide
theorem test_pop :
    gives (blockStep 0xBD03 (start 0x1000 [(0, 0xAAAAAAAA), (1, 0xBBBBBBBB), (13, 0x2FF4)] ⟨false, false, false, false⟩ [(0x2FF4, 0x11), (0x2FF5, 0x11), (0x2FF6, 0x11), (0x2FF7, 0x11), (0x2FF8, 0x22), (0x2FF9, 0x22), (0x2FFA, 0x22), (0x2FFB, 0x22), (0x2FFC, 0x23), (0x2FFD, 0x1), (0x2FFF, 0x8)]))
      [(0, 0x11111111), (1, 0x22222222), (13, 0x3000)] 0x8000123 ⟨false, false, false, false⟩ true [.readWord 0x2FF4 0x11111111, .readWord 0x2FF8 0x22222222, .readWord 0x2FFC 0x08000123] = true := by decide
theorem test_beq :
    gives (blockStep 0xD000 (start 0x1000 [] ⟨false, true, false, false⟩ []))
      [] 0x1004 ⟨false, true, false, false⟩ true [] = true := by decide
theorem test_blHi :
    gives (blockStep 0xF001 (start 0x1000 [] ⟨true, true, true, true⟩ []))
      [(14, 0x2004)] 0x1002 ⟨true, true, true, true⟩ true [] = true := by decide
theorem test_blLo :
    gives (blockStep 0xF800 (start 0x1002 [(14, 0x1004)] ⟨false, false, false, false⟩ []))
      [(14, 0x1005)] 0x1004 ⟨false, false, false, false⟩ true [] = true := by decide
theorem test_blxLo :
    gives (blockStep 0xE800 (start 0x1000 [(14, 0x2004)] ⟨false, false, false, false⟩ []))
      [(14, 0x1003)] 0x2004 ⟨false, false, false, false⟩ false [] = true := by decide
theorem test_invalidCond14 :
    signals (blockStep 0xDE10 (start 0x1000 [] ⟨false, false, false, false⟩ [])) 0xDE10 .reservedCondition = true := by decide

/-- R76, R179: a word of each of the seven patterns that match no format. -/
theorem test_no_format_signals :
    ([0x9000, 0xA123, 0xB000, 0xB2FF, 0xBE00, 0xCFFF, 0xE7FF].all fun w =>
      signals (blockStep w (start 0x1000 [] ⟨false, false, false, false⟩ [])) w .noFormat) = true := by decide

/-- R172, R179: the software interrupt. -/
theorem test_invalidSwi :
    signals (blockStep 0xDF05 (start 0x1000 [] ⟨false, false, false, false⟩ [])) 0xDF05 .unimplementedSwi = true := by decide

/-! ### The conditional branches, one passing and one failing flag combination each (spec/95_test_vectors.md, S4) -/

theorem test_beq_taken_and_not :
    gives (blockStep 0xD010 (start 0x1000 [] ⟨true, true, true, true⟩ [])) [] 0x1024 ⟨true, true, true, true⟩ true [] = true ∧
    gives (blockStep 0xD010 (start 0x1000 [] ⟨true, false, true, true⟩ [])) [] 0x1002 ⟨true, false, true, true⟩ true [] = true := by decide
theorem test_bne_taken_and_not :
    gives (blockStep 0xD110 (start 0x1000 [] ⟨true, false, true, true⟩ [])) [] 0x1024 ⟨true, false, true, true⟩ true [] = true ∧
    gives (blockStep 0xD110 (start 0x1000 [] ⟨true, true, true, true⟩ [])) [] 0x1002 ⟨true, true, true, true⟩ true [] = true := by decide
theorem test_bcs_taken_and_not :
    gives (blockStep 0xD210 (start 0x1000 [] ⟨true, true, true, true⟩ [])) [] 0x1024 ⟨true, true, true, true⟩ true [] = true ∧
    gives (blockStep 0xD210 (start 0x1000 [] ⟨true, true, false, true⟩ [])) [] 0x1002 ⟨true, true, false, true⟩ true [] = true := by decide
theorem test_bcc_taken_and_not :
    gives (blockStep 0xD310 (start 0x1000 [] ⟨true, true, false, true⟩ [])) [] 0x1024 ⟨true, true, false, true⟩ true [] = true ∧
    gives (blockStep 0xD310 (start 0x1000 [] ⟨true, true, true, true⟩ [])) [] 0x1002 ⟨true, true, true, true⟩ true [] = true := by decide
theorem test_bmi_taken_and_not :
    gives (blockStep 0xD410 (start 0x1000 [] ⟨true, true, true, true⟩ [])) [] 0x1024 ⟨true, true, true, true⟩ true [] = true ∧
    gives (blockStep 0xD410 (start 0x1000 [] ⟨false, true, true, true⟩ [])) [] 0x1002 ⟨false, true, true, true⟩ true [] = true := by decide
theorem test_bpl_taken_and_not :
    gives (blockStep 0xD510 (start 0x1000 [] ⟨false, true, true, true⟩ [])) [] 0x1024 ⟨false, true, true, true⟩ true [] = true ∧
    gives (blockStep 0xD510 (start 0x1000 [] ⟨true, true, true, true⟩ [])) [] 0x1002 ⟨true, true, true, true⟩ true [] = true := by decide
theorem test_bvs_taken_and_not :
    gives (blockStep 0xD610 (start 0x1000 [] ⟨true, true, true, true⟩ [])) [] 0x1024 ⟨true, true, true, true⟩ true [] = true ∧
    gives (blockStep 0xD610 (start 0x1000 [] ⟨true, true, true, false⟩ [])) [] 0x1002 ⟨true, true, true, false⟩ true [] = true := by decide
theorem test_bvc_taken_and_not :
    gives (blockStep 0xD710 (start 0x1000 [] ⟨true, true, true, false⟩ [])) [] 0x1024 ⟨true, true, true, false⟩ true [] = true ∧
    gives (blockStep 0xD710 (start 0x1000 [] ⟨true, true, true, true⟩ [])) [] 0x1002 ⟨true, true, true, true⟩ true [] = true := by decide
theorem test_bhi_taken_and_not :
    gives (blockStep 0xD810 (start 0x1000 [] ⟨true, false, true, true⟩ [])) [] 0x1024 ⟨true, false, true, true⟩ true [] = true ∧
    gives (blockStep 0xD810 (start 0x1000 [] ⟨true, true, true, true⟩ [])) [] 0x1002 ⟨true, true, true, true⟩ true [] = true := by decide
theorem test_bls_taken_and_not :
    gives (blockStep 0xD910 (start 0x1000 [] ⟨true, true, true, true⟩ [])) [] 0x1024 ⟨true, true, true, true⟩ true [] = true ∧
    gives (blockStep 0xD910 (start 0x1000 [] ⟨true, false, true, true⟩ [])) [] 0x1002 ⟨true, false, true, true⟩ true [] = true := by decide
theorem test_bge_taken_and_not :
    gives (blockStep 0xDA10 (start 0x1000 [] ⟨true, true, true, true⟩ [])) [] 0x1024 ⟨true, true, true, true⟩ true [] = true ∧
    gives (blockStep 0xDA10 (start 0x1000 [] ⟨true, true, true, false⟩ [])) [] 0x1002 ⟨true, true, true, false⟩ true [] = true := by decide
theorem test_blt_taken_and_not :
    gives (blockStep 0xDB10 (start 0x1000 [] ⟨true, true, true, false⟩ [])) [] 0x1024 ⟨true, true, true, false⟩ true [] = true ∧
    gives (blockStep 0xDB10 (start 0x1000 [] ⟨true, true, true, true⟩ [])) [] 0x1002 ⟨true, true, true, true⟩ true [] = true := by decide
theorem test_bgt_taken_and_not :
    gives (blockStep 0xDC10 (start 0x1000 [] ⟨true, false, true, true⟩ [])) [] 0x1024 ⟨true, false, true, true⟩ true [] = true ∧
    gives (blockStep 0xDC10 (start 0x1000 [] ⟨true, true, true, true⟩ [])) [] 0x1002 ⟨true, true, true, true⟩ true [] = true := by decide
theorem test_ble_taken_and_not :
    gives (blockStep 0xDD10 (start 0x1000 [] ⟨true, true, true, true⟩ [])) [] 0x1024 ⟨true, true, true, true⟩ true [] = true ∧
    gives (blockStep 0xDD10 (start 0x1000 [] ⟨true, false, true, true⟩ [])) [] 0x1002 ⟨true, false, true, true⟩ true [] = true := by decide

/-! ### Witnesses: for every statement with hypotheses, operands and states that meet them -/

theorem witness_DecodeEncodeAgree :
    (Instr.push true 0xFF).wellFormed = true ∧ (Instr.invalidSwi 0xDFFF).wellFormed = true := by decide

/-- The lowest and the highest word of every row of Formats 1 to 5. -/
theorem witness_RowsOfFormats1To5Decode :
    meetsRows ([(0xF800, 0x0000, 0x07FF), (0xF800, 0x0800, 0x0FFF), (0xF800, 0x1000, 0x17FF), (0xFE00, 0x1800, 0x19FF), (0xFE00, 0x1A00, 0x1BFF),
        (0xFE00, 0x1C00, 0x1DFF), (0xFE00, 0x1E00, 0x1FFF), (0xF800, 0x2000, 0x27FF), (0xF800, 0x2800, 0x2FFF), (0xF800, 0x3000, 0x37FF),
        (0xF800, 0x3800, 0x3FFF), (0xFFC0, 0x4000, 0x403F), (0xFFC0, 0x4040, 0x407F), (0xFFC0, 0x4080, 0x40BF), (0xFFC0, 0x40C0, 0x40FF),
        (0xFFC0, 0x4100, 0x413F), (0xFFC0, 0x4140, 0x417F), (0xFFC0, 0x4180, 0x41BF), (0xFFC0, 0x41C0, 0x41FF), (0xFFC0, 0x4200, 0x423F)] ++
      [(0xFFC0, 0x4240, 0x427F), (0xFFC0, 0x4280, 0x42BF), (0xFFC0, 0x42C0, 0x42FF), (0xFFC0, 0x4300, 0x433F), (0xFFC0, 0x4340, 0x437F),
        (0xFFC0, 0x4380, 0x43BF), (0xFFC0, 0x43C0, 0x43FF), (0xFF00, 0x4400, 0x44FF), (0xFF00, 0x4500, 0x45FF), (0xFF00, 0x4600, 0x46FF),
        (0xFF80, 0x4700, 0x477F), (0xFF80, 0x4780, 0x47FF)]) = true := by decide

/-- The lowest and the highest word of every row of Formats 6 to 14. -/
theorem witness_RowsOfFormats6To14Decode :
    meetsRows ([(0xF800, 0x4800, 0x4FFF), (0xFE00, 0x5000, 0x51FF), (0xFE00, 0x5200, 0x53FF), (0xFE00, 0x5400, 0x55FF), (0xFE00, 0x5600, 0x57FF),
        (0xFE00, 0x5800, 0x59FF), (0xFE00, 0x5A00, 0x5BFF), (0xFE00, 0x5C00, 0x5DFF), (0xFE00, 0x5E00, 0x5FFF), (0xF800, 0x6000, 0x67FF),
        (0xF800, 0x6800, 0x6FFF), (0xF800, 0x7000, 0x77FF), (0xF800, 0x7800, 0x7FFF), (0xF800, 0x8000, 0x87FF), (0xF800, 0x8800, 0x8FFF),
        (0xFE00, 0xB400, 0xB5FF), (0xFE00, 0xBC00, 0xBDFF)]) = true := by decide

/-- The lowest and the highest word of every row of Formats 16 and 19 and of the invalid rows. -/
theorem witness_RowsOfFormats16And19AndInvalidDecode :
    meetsRows ([(0xFF00, 0xD000, 0xD0FF), (0xFF00, 0xD100, 0xD1FF), (0xFF00, 0xD200, 0xD2FF), (0xFF00, 0xD300, 0xD3FF), (0xFF00, 0xD400, 0xD4FF),
        (0xFF00, 0xD500, 0xD5FF), (0xFF00, 0xD600, 0xD6FF), (0xFF00, 0xD700, 0xD7FF), (0xFF00, 0xD800, 0xD8FF), (0xFF00, 0xD900, 0xD9FF),
        (0xFF00, 0xDA00, 0xDAFF), (0xFF00, 0xDB00, 0xDBFF), (0xFF00, 0xDC00, 0xDCFF), (0xFF00, 0xDD00, 0xDDFF), (0xF800, 0xF000, 0xF7FF),
        (0xF800, 0xF800, 0xFFFF), (0xF800, 0xE800, 0xEFFF), (0xF000, 0x9000, 0x9FFF), (0xF000, 0xA000, 0xAFFF), (0xF600, 0xB000, 0xB9FF)] ++
      [(0xF600, 0xB200, 0xBBFF), (0xF600, 0xB600, 0xBFFF), (0xF000, 0xC000, 0xCFFF), (0xF800, 0xE000, 0xE7FF), (0xFF00, 0xDE00, 0xDEFF),
        (0xFF00, 0xDF00, 0xDFFF)]) = true := by decide

theorem witness_ClassifierPredicatesDisjoint :
    Format.f1.admits 0x17FF = true ∧ Format.f19b.admits 0xE800 = true ∧ classify 0x9000 = none ∧
      classify 0xE7FF = none := by decide

theorem witness_RaisesExactlyInvalidWords :
    (classify 0x9000 = none ∨ (0x9000 : Half) &&& 0xFE00 = 0xDE00) ∧
    (classify 0xDFFF = none ∨ (0xDFFF : Half) &&& 0xFE00 = 0xDE00) ∧
    ¬ (classify 0xDDFF = none ∨ (0xDDFF : Half) &&& 0xFE00 = 0xDE00) ∧
    ¬ (classify 0xE800 = none ∨ (0xE800 : Half) &&& 0xFE00 = 0xDE00) := by decide

theorem witness_SignalCarriesWordAndReason :
    (Instr.invalidCond14 0xDE00).isInvalidRow = true ∧ (Instr.invalidCond14 0xDE00).wellFormed = true ∧
    (Instr.invalidB600 0xBFFF).isInvalidRow = true ∧ (Instr.invalidB600 0xBFFF).wellFormed = true ∧
    (Instr.ble 0xFF).isInvalidRow = false := by decide

/-- Reset with the word 0xDF05 at `ENTRY`. -/
def atInvalid : State := { State.reset with mem := [(0, 0x05), (1, 0xDF)] }

/-- Reset with `ADD R3, R0, R1` (0x1843) at `ENTRY`. -/
def atAdd : State := { State.reset with mem := [(0, 0x43), (1, 0x18)] }

theorem witness_SignalChangesNothing :
    atInvalid.t = true ∧ (decodeWord atInvalid.fetchWord).isInvalidRow = true := by decide

theorem witness_StepRunsDecodedInstruction :
    atAdd.t = true ∧ decode (bytesOfHalf (atAdd.nextDraw.halfAt atAdd.fetchAddr)) = .ok (.addReg 1 0 3, []) ∧
    atAdd.external atAdd.fetchAddr 2 = false ∧ decode [atAdd.nextDraw.byteAt atAdd.fetchAddr, atAdd.nextDraw.byteAt (atAdd.fetchAddr + 1)] =
      .ok (.addReg 1 0 3, []) := ⟨rfl, rfl, by decide, rfl⟩

theorem witness_StepStopsOutsideCompactMode : (State.reset.setT false).t = false ∧ State.reset.t = true := ⟨rfl, rfl⟩

theorem witness_BlockStepPreconditions :
    (atAdd.beginStep.t = true ∧ atAdd.beginStep.pcRead.toNat % 2 = 0 ∧
      atAdd.beginStep.pcPending = atAdd.beginStep.pcRead - 2) ∧
    ¬ (State.reset.t = true ∧ State.reset.pcRead.toNat % 2 = 0 ∧ State.reset.pcPending = State.reset.pcRead - 2) ∧
    State.reset.t = true := by decide

theorem witness_StepCompletesOrSignals : atAdd.beginStep.stepReady = true ∧ atInvalid.t = true := by decide

theorem witness_ReferenceLoopAgreesWithRun :
    (∃ t, Host.Core.run core 1 atAdd = .next t) ∧ (∃ f, Host.Core.run core 1 atInvalid = .fault f) ∧
    Host.Core.run core 1 (State.reset.setT false) = .refused .leftCompactMode := ⟨⟨_, rfl⟩, ⟨_, rfl⟩, rfl⟩

theorem witness_ReferenceLoopStops :
    (State.reset.setT false).t = false ∧ (atAdd.t = true ∧ atAdd.fetchAddr = 0) ∧
    (∃ t, atAdd.t = true ∧ atAdd.fetchAddr ≠ 2 ∧ step atAdd = .next t) ∧
    (∃ f, atInvalid.t = true ∧ atInvalid.fetchAddr ≠ 2 ∧ step atInvalid = .fault f) :=
  ⟨rfl, ⟨rfl, rfl⟩, ⟨_, rfl, by decide, rfl⟩, ⟨_, rfl, by decide, rfl⟩⟩

theorem witness_LoadedWordRunsNext : atAdd.mem.wf = true := by decide

theorem witness_BootStepFetchesEntry :
    State.reset = State.boot (Vector.replicate 15 0) ⟨false, false, false, false⟩ 0 referenceMap [] 0 ∧
    (0xFFFFFFFE : Word).getLsbD 0 = false ∧ (0 : Word).getLsbD 0 = false := ⟨rfl, by decide⟩

theorem witness_ShifterBits : 1 ≤ 1 ∧ 1 ≤ 32 ∧ 1 ≤ 255 := by decide

theorem witness_ImmediateShifts :
    32 = (if (0 : BitVec 5).toNat = 0 then 32 else (0 : BitVec 5).toNat) ∧
    31 = (if (31 : BitVec 5).toNat = 0 then 32 else (31 : BitVec 5).toNat) := by decide

theorem witness_LogicAndMultiply :
    (Instr.bic 1 2 = .and 1 2 ∧ (fun a b => a && !b) = fun a b : Bool => a && b) ∨
      (Instr.bic 1 2 = .bic 1 2 ∧ (fun a b => a && !b) = fun a b : Bool => a && !b) ∧
      (Instr.mul 1 1 = Instr.mul 1 1 ∧ Instr.bic 1 2 ≠ .mul 1 2) := .inr ⟨⟨rfl, rfl⟩, rfl, by decide⟩

/-- Counts 0, 255 and, from bits above the low 8, 0 again. -/
theorem witness_RegisterShifts :
    0 = ((start 0 [(1, 0x100)] ⟨false, false, true, false⟩ []).readReg (low 1)).toNat % 256 ∧
    32 = (if (0 : Nat) = 0 then 32 else 0) ∧
    255 = ((start 0 [(1, 0xFF)] ⟨false, false, true, false⟩ []).readReg (low 1)).toNat % 256 ∧
    255 = (if (255 : Nat) = 0 then 32 else 255) := by decide

theorem witness_HiRegisterAddMove :
    (Instr.movHi 14 15 = .movHi 14 15 ∧
      State.reset.readReg 14 = (if (14 : Reg) = PC then State.reset.pcRead else State.reset.readReg 14)) ∧
    (Instr.addHi 15 14 = .addHi 15 14 ∧ State.reset.readReg 14 + State.reset.pcRead =
      (if (14 : Reg) = PC then State.reset.pcRead else State.reset.readReg 14) +
        (if (15 : Reg) = PC then State.reset.pcRead else State.reset.readReg 15)) ∧
    (14 : Reg) ≠ PC ∧ (15 : Reg) = PC := by decide

theorem witness_BranchExchange :
    ((start 0 [(3, 0x2001)] ⟨false, false, false, false⟩ []).readReg 3).toNat % 2 = 1 ∧
    ((start 0 [(3, 0xFFFFFFFE)] ⟨false, false, false, false⟩ []).readReg 3).toNat % 2 = 0 := by decide

theorem witness_PcRelativeLoad :
    (0x13FC : Word) = ((start 0xFFE [] ⟨false, false, false, false⟩ []).pcRead &&& 0xFFFFFFFD) +
      BitVec.ofNat 32 (4 * (0xFF : BitVec 8).toNat) ∧
    (start 0xFFE [] ⟨false, false, false, false⟩ []).pcRead.toNat % 2 = 0 := by decide

/-- The address wraps at the top. -/
theorem witness_RegisterOffsetLoads :
    (1 : Word) = (start 0 [(1, 0xFFFFFFFF), (2, 2)] ⟨false, false, false, false⟩ []).readReg (low 1) +
      (start 0 [(1, 0xFFFFFFFF), (2, 2)] ⟨false, false, false, false⟩ []).readReg (low 2) := by decide

theorem witness_ImmediateOffsetLoads :
    ∃ ea : Nat → Word, ∀ k, ea k = (start 0 [(1, 0xFFFFFFF0)] ⟨false, false, false, false⟩ []).readReg (low 1) +
      BitVec.ofNat 32 (k * (31 : BitVec 5).toNat) := ⟨_, fun _ => rfl⟩

/-- On the reference map any bytes at distinct addresses are writable, each in a cell of its own. -/
theorem writableSpan_of_nodup (s : State) (h : s.memMap = referenceMap) (a : Word) (n : Nat) (hd : (span a n).Nodup) :
    WritableSpan s a n :=
  ⟨fun b _ => writable_reference s h b, hd.imp fun hne e => hne ((sameCell_reference s h _ _).1 e)⟩

/-- The stored bytes go round the top of the address space. -/
theorem witness_RegisterOffsetStores :
    ∃ (s : State) (ea v : Word), ea = regAddr s 2 1 ∧ v = s.readReg (low 0) ∧ s.mem.wf = true ∧ WritableSpan s ea 4 ∧
      WritableSpan s ea 2 ∧ WritableSpan s ea 1 :=
  ⟨start 0 [(0, 0x11223344), (1, 0xFFFFFFFF)] ⟨false, false, false, false⟩ [], 0xFFFFFFFF, 0x11223344, by decide, by decide,
    rfl, writableSpan_of_nodup _ rfl _ _ (by decide), writableSpan_of_nodup _ rfl _ _ (by decide),
    writableSpan_of_nodup _ rfl _ _ (by decide)⟩

theorem witness_ImmediateOffsetStores :
    ∃ (s : State) (v : Word), v = s.readReg (low 0) ∧ s.mem.wf = true ∧ WritableSpan s (immAddr s 31 4 1) 4 ∧
      WritableSpan s (immAddr s 31 2 1) 2 ∧ WritableSpan s (immAddr s 31 1 1) 1 :=
  ⟨start 0 [(0, 0x11223344), (1, 0xFFFFFFFF)] ⟨false, false, false, false⟩ [], 0x11223344, by decide, rfl,
    writableSpan_of_nodup _ rfl _ _ (by decide), writableSpan_of_nodup _ rfl _ _ (by decide),
    writableSpan_of_nodup _ rfl _ _ (by decide)⟩

/-- The longest list, nine registers, and the empty one. -/
theorem witness_PushStores :
    ∃ (s : State) (regs : List Reg) (sp : Word), regs = movedRegs 0xFF (if true then [LR] else []) ∧
      sp = s.readReg SP - BitVec.ofNat 32 (4 * regs.length) ∧ s.mem.wf = true ∧ WritableSpan s sp (4 * regs.length) ∧
      regs[8]? = some LR ∧ movedRegs 0 [] = [] :=
  ⟨start 0 [(13, 0x3000)] ⟨false, false, false, false⟩ [], [0, 1, 2, 3, 4, 5, 6, 7, 14], 0x2FDC, by decide, by decide, rfl,
    writableSpan_of_nodup _ rfl _ _ (by decide), by decide, by decide⟩

theorem witness_PopLoads :
    State.reset.external (State.reset.readReg SP) (4 * ([0, 7, 15] : List Reg).length) = false ∧
    movedRegs 0x81 (if true then [PC] else []) = [0, 7, 15] ∧ ([0, 7, 15] : List Reg)[1]? = some 7 ∧ (7 : Reg) ≠ PC := by
  decide

theorem witness_PushPopRoundTrip :
    ∃ s : State, s.mem.wf = true ∧ WritableSpan s (pushBase s true 0x03) (4 * transferCount true 0x03) ∧
      (∃ t, exec (.push true 0x03) s = .next t ∧
        ∃ u : State, u.mem = t.mem ∧ u.memMap = t.memMap ∧ u.readReg SP = t.readReg SP) ∧
      (0x03 : BitVec 8).getLsbD (1 : LowReg).val = true :=
  ⟨start 0 [(13, 0x3000)] ⟨false, false, false, false⟩ [], rfl, writableSpan_of_nodup _ rfl _ _ (by decide),
    ⟨_, rfl, _, rfl, rfl, rfl⟩, by decide⟩

/-- `BL` step 1 with immediate 1 (0xF001) at 0, then `BL` step 2 with 0x7FF (0xFFFF) at 2. -/
def atCall : State := { State.reset with mem := [(0, 0x01), (1, 0xF0), (2, 0xFF), (3, 0xFF)] }

/-- `BL` step 1 with the most negative immediate (0xF400) at 0, then `BLX` step 2 with 0x7FF (0xEFFF) at 2. -/
def atCallExchange : State := { State.reset with mem := [(1, 0xF4), (2, 0xFF), (3, 0xEF)] }

theorem witness_LongBranchPairTarget :
    (atCall.t = true ∧ atCall.fetchWord = encode (.blHi 1) ∧
      ∃ s1, step atCall = .next s1 ∧ s1.fetchWord = encode (.blLo 0x7FF)) ∧
    (atCallExchange.t = true ∧ atCallExchange.fetchWord = encode (.blHi 0x400) ∧
      ∃ s1, step atCallExchange = .next s1 ∧ s1.fetchWord = encode (.blxLo 0x7FF)) :=
  ⟨⟨rfl, by decide, _, rfl, by decide⟩, rfl, by decide, _, rfl, by decide⟩

theorem witness_FlagWritersTable :
    (∃ t, exec (.addReg 0 1 2) State.reset = .next t) ∧ flagUseNZ (.addReg 0 1 2) = .written ∧
    flagUseC State.reset (.addReg 0 1 2) = .written ∧ flagUseV (.addReg 0 1 2) = .written ∧
    (∃ t, exec (.ror 0 1) State.reset = .next t) ∧ flagUseC State.reset (.ror 0 1) = .kept ∧
    flagUseV (.ror 0 1) = .kept ∧ (∃ t, exec (.push true 0) State.reset = .next t) ∧
    flagUseNZ (.push true 0) = .kept ∧ (∃ t, exec (.movImm8 7 0xFF) State.reset = .next t) ∧
    (∃ rd imm8, Instr.movImm8 7 0xFF = .movImm8 rd imm8) :=
  ⟨⟨_, rfl⟩, rfl, rfl, rfl, ⟨_, rfl⟩, by decide, rfl, ⟨_, rfl⟩, rfl, ⟨_, rfl⟩, ⟨_, _, rfl⟩⟩

theorem witness_ModeBitOnlyCleared : ∃ t, exec (.bx 0 0) State.reset = .next t ∧ t.t ≠ State.reset.t :=
  ⟨_, rfl, by decide⟩

theorem witness_PendingPcWriters :
    (∃ t, exec (.addHi 15 14) State.reset = .next t) ∧ mayWritePending (.addHi 15 14) = false := ⟨⟨_, rfl⟩, by decide⟩

theorem witness_RegisterFrameOfEveryInstruction : ∃ t, exec (.pop false 0xFF) State.reset = .next t := ⟨_, rfl⟩

theorem witness_MemoryFrameOfEveryInstruction : ∃ t, exec (.push true 0xFF) State.reset = .next t := ⟨_, rfl⟩

theorem witness_BusRequestsOfEveryInstruction : ∃ t, exec (.strhImm 31 0 1) State.reset = .next t := ⟨_, rfl⟩

theorem witness_StepKeepsInvariant : Inv atAdd ∧ ∃ t, step atAdd = .next t := ⟨⟨by decide, by decide, by decide⟩, _, rfl⟩

theorem witness_InvariantAtReset : (0xFFFFFFFE : Word).getLsbD 0 = false ∧ Memory.wf [(3, 0x12), (4, 0xFF)] = true := by decide

theorem witness_CanonicalMemoryUnique :
    Memory.wf (Memory.set [(4, 0xFF)] 3 0x12) = true ∧ Memory.wf [(3, 0x12), (4, 0xFF)] = true ∧
    ∀ k, (Memory.set [(4, 0xFF)] 3 0x12).get k = Memory.get [(3, 0x12), (4, 0xFF)] k := ⟨by decide, by decide, fun _ => rfl⟩

theorem witness_LittleEndianBytes :
    ∃ s : State, s.mem.wf = true ∧ WritableSpan s 0xFFFFFFFF 2 ∧ WritableSpan s 0xFFFFFFFD 4 ∧ 1 < 2 ∧ 3 < 4 ∧
      s.external 0xFFFFFFFF 2 = false ∧ s.external s.fetchAddr 2 = false ∧ s.external 0xFFFFFFFD 4 = false :=
  ⟨State.reset, rfl, writableSpan_of_nodup _ rfl _ _ (by decide), writableSpan_of_nodup _ rfl _ _ (by decide), by decide,
    by decide, by decide, by decide, by decide⟩

/-- Before an instruction at 0x1000 that stores to the very next one: R1 = 0x1000, R2 = 2, R0 = 0x1002, SP = 0x1008. -/
def atStore : State :=
  start 0x1000 [(1, 0x1000), (2, 2), (0, 0x1002), (13, 0x1008)] ⟨false, false, false, false⟩ []

/-- Every form's stored bytes reach the fetched halfword: its first byte, its second byte from a word two below, and the
first word a push of two registers stores. -/
theorem witness_StoreSeenByNextFetch :
    atStore.mem.wf = true ∧ atStore.external atStore.fetchAddr 2 = false ∧
    (regAddr atStore 2 1 = atStore.fetchAddr ∧ WritableSpan atStore (regAddr atStore 2 1) 4 ∧
      WritableSpan atStore (regAddr atStore 2 1) 2 ∧ WritableSpan atStore (regAddr atStore 2 1) 1) ∧
    (WritableSpan atStore (immAddr atStore 0 4 1) 4 ∧
      atStore.fetchAddr + BitVec.ofNat 32 1 = immAddr atStore 0 4 1 + BitVec.ofNat 32 3) ∧
    (WritableSpan atStore (immAddr atStore 1 2 1) 2 ∧ atStore.fetchAddr = immAddr atStore 1 2 1) ∧
    (WritableSpan atStore (immAddr atStore 3 1 1) 1 ∧ atStore.fetchAddr + BitVec.ofNat 32 1 = immAddr atStore 3 1 1) ∧
    (([0, 1] : List Reg) = movedRegs 0x03 (if false then [LR] else []) ∧
      WritableSpan atStore (pushBase atStore false 0x03) (4 * ([0, 1] : List Reg).length) ∧
      ([0, 1] : List Reg)[0]? = some 0 ∧
      atStore.fetchAddr = wordAddr (pushBase atStore false 0x03) 0 + BitVec.ofNat 32 2) :=
  have w : ∀ a n, (span a n).Nodup → WritableSpan atStore a n := writableSpan_of_nodup atStore rfl
  ⟨by decide, by decide, ⟨by decide, w _ _ (by decide), w _ _ (by decide), w _ _ (by decide)⟩, ⟨w _ _ (by decide), by decide⟩,
    ⟨w _ _ (by decide), by decide⟩, ⟨w _ _ (by decide), by decide⟩, by decide, w _ _ (by decide), by decide, by decide⟩

theorem witness_ReferenceBusIsTotal : State.reset.memMap = referenceMap ∧ 4 ≤ 2 ^ 32 ∧ State.reset.mem.wf = true := by decide

/-- A map with one read-only region: its addresses are not writable, the others have no region. -/
def atRom : State := { State.reset with memMap := [⟨0x100, 8, 0, true, false⟩] }

theorem witness_AccessesOutsideWritableMemory :
    (¬ Writable atRom 0x104 ∧ atRom.externalAt 0x104 = false) ∧
    ((∀ b ∈ span 0x107 2, ¬ Writable atRom b) ∧ atRom.external 0x107 2 = false) ∧
    ((∀ b ∈ span 0x106 4, ¬ Writable atRom b) ∧ atRom.external 0x106 4 = false) ∧ atRom.regionAt 0x108 = none := by
  have h : ∀ b, ¬ Writable atRom b := by
    intro b
    rintro ⟨r, hr, ho, _⟩
    have hm : r ∈ ([⟨0x100, 8, 0, true, false⟩] : List Region) := List.mem_of_find?_eq_some hr
    rw [List.mem_singleton.1 hm] at ho
    exact absurd ho (by decide)
  exact ⟨⟨h _, by decide⟩, ⟨fun b _ => h b, by decide⟩, ⟨fun b _ => h b, by decide⟩, by decide⟩

/-- Plain memory with a device region of 16 bytes at 0x4000 in front of it, R1 at the device, the device state 7. -/
def atDevice : State :=
  { start 0x1000 [(1, 0x4000)] ⟨false, false, false, false⟩ [] with
    memMap := ⟨0x4000, 16, 0, false, true⟩ :: referenceMap, busState := 7 }

/-- A word that only its last byte puts into the device region is the device's as a whole. -/
theorem witness_ExternalAccessIsOneBusCall :
    atDevice.externalAt 0x400F = true ∧ atDevice.external 0x3FFF 2 = true ∧ atDevice.external 0x3FFD 4 = true ∧
    atDevice.externalAt 0x4010 = false ∧ atDevice.external 0x3FFE 2 = false ∧ atDevice.external 0x3FFC 4 = false := by
  decide

/-- A load from a device answers what `Bus` answers in its state, and moves the device on (R42, D18). -/
theorem test_load_from_device :
    ∃ t, exec (.ldrImm 1 1 0) atDevice = .next t ∧ t.readReg 0 = (Config.bus.readWord 7 0x4004).1 ∧
      t.busState = (Config.bus.readWord 7 0x4004).2 ∧
      t.busOps = [.readWord 0x4004 (Config.bus.readWord 7 0x4004).1] := ⟨_, rfl, rfl, rfl, rfl⟩

/-- A store to a device is one call of `Bus` with the value, and leaves memory as it was (R42, D18). -/
theorem test_store_to_device :
    ∃ t, exec (.strhImm 1 1 1) atDevice = .next t ∧ t.mem = [] ∧
      t.busState = Config.bus.writeHalf 7 0x4002 0x4000 ∧ t.busOps = [.writeHalf 0x4002 0x4000] := ⟨_, rfl, rfl, rfl, rfl⟩

end Sys2Proof.Tests
end

section
/-!
What a step at T = 1 can end in (10_state.md R32, R33). An instruction completes or, in the nine invalid rows, raises
the signal with the word it carries; a word that decodes to an invalid row is the word carried; and the fetch loop meets
the preconditions of the entry point.
-/

namespace Sys2Proof.Machine

/-! ### One instruction -/

/-- R181: every row but the nine invalid ones completes, in every state. -/
theorem exec_next_of_not_isInvalidRow {i : Instr} (h : i.isInvalidRow = false) (s : State) :
    ∃ t, exec i s = .next t := by
  cases i with
  | invalid9000 | invalidA000 | invalidB000 | invalidB200 | invalidB600 | invalidC000 | invalidE000
  | invalidCond14 | invalidSwi => cases h
  | bx rs _ => exact ⟨_, branchExchange_next s (s.readReg rs)⟩
  | blxReg rs _ => exact ⟨_, branchExchange_next (s.writeReg LR (s.pcRead - 2)) (s.readReg rs)⟩
  | beq imm8 | bne imm8 | bcs imm8 | bcc imm8 | bmi imm8 | bpl imm8 | bvs imm8 | bvc imm8
  | bhi imm8 | bls imm8 | bge imm8 | blt imm8 | bgt imm8 | ble imm8 => exact ⟨_, branchIf_next _ imm8 s⟩
  | _ => exact ⟨_, rfl⟩

/-- R179, R180: the nine invalid rows raise the signal with the word they encode to. -/
theorem exec_fault_of_isInvalidRow {i : Instr} (h : i.isInvalidRow = true) (s : State) :
    ∃ reason, exec i s = .fault (.invalidOpcode (encode i) reason) := by
  cases i with
  | invalid9000 | invalidA000 | invalidB000 | invalidB200 | invalidB600 | invalidC000 | invalidE000
  | invalidCond14 | invalidSwi => exact ⟨_, rfl⟩
  | _ => cases h

/-! ### The invalid rows of the decoder -/

/-- Only Format 16 and the words of no format decode to an invalid row (R76, R77). -/
theorem decodeWord_of_isInvalidRow {w : Half} (h : (decodeWord w).isInvalidRow = true) :
    decodeWord w = decodeF16 w ∨ decodeWord w = decodeNoFormat w := by
  unfold decodeWord at h ⊢
  generalize classify w = format at h ⊢
  cases format with
  | none => exact .inr rfl
  | some f =>
    cases f with
    | f16 => exact .inl rfl
    | f6 | f19a => cases h
    | f4 => simp only [decodeF4] at h; split at h <;> cases h
    | f1 | f2 | f3 | f5 | f7 | f8 | f9 | f10 | f14 | f19b =>
      simp only [decodeF1, decodeF2, decodeF3, decodeF5, decodeF7, decodeF8, decodeF9, decodeF10, decodeF14,
        decodeF19b] at h
      split_ifs at h <;> cases h

/-- The condition fields 14 and 15 keep the word; the others name a branch (R77). -/
theorem encode_decodeF16_of_isInvalidRow {w : Half} (h : (decodeF16 w).isInvalidRow = true) :
    encode (decodeF16 w) = w := by
  unfold decodeF16 at h ⊢
  split at h
  case h_15 | h_16 => rfl
  all_goals cases h

/-- Each pattern of no format keeps the word (R76). -/
theorem encode_decodeNoFormat (w : Half) : encode (decodeNoFormat w) = w := by
  unfold decodeNoFormat; split_ifs <;> rfl

/-- An invalid row that a word decodes to carries that word. -/
theorem encode_decodeWord_of_isInvalidRow {w : Half} (h : (decodeWord w).isInvalidRow = true) :
    encode (decodeWord w) = w := by
  obtain hd | hd := decodeWord_of_isInvalidRow h
  · rw [hd] at h ⊢
    exact encode_decodeF16_of_isInvalidRow h
  · rw [hd]
    exact encode_decodeNoFormat w

/-- The instruction of a word completes or raises the signal with that word, in every state. -/
theorem exec_decodeWord_next_or_fault (w : Half) (s : State) :
    (∃ t, exec (decodeWord w) s = .next t) ∨ ∃ reason, exec (decodeWord w) s = .fault (.invalidOpcode w reason) := by
  cases h : (decodeWord w).isInvalidRow with
  | false => exact .inl (exec_next_of_not_isInvalidRow h s)
  | true =>
    obtain ⟨reason, hf⟩ := exec_fault_of_isInvalidRow h s
    rw [encode_decodeWord_of_isInvalidRow h] at hf
    exact .inr ⟨reason, hf⟩

/-! ### The preconditions of the entry point -/

theorem blockStep_of_stepReady {s : State} (h : s.stepReady = true) (w : Half) :
    blockStep w s = exec (decodeWord w) s := if_pos h

/-- A fetch address is even (R20). -/
theorem State.fetchAddr_getLsbD_zero (s : State) : s.fetchAddr.getLsbD 0 = false := by
  simp [State.fetchAddr]

/-- The fetch loop hands the block a state that meets R32's preconditions. -/
theorem State.stepReady_beginStep {s : State} (h : s.t = true) : s.beginStep.stepReady = true := by
  have heven : (s.fetchAddr + 4).getLsbD 0 = false := by
    rw [BitVec.getLsbD_add (by decide), s.fetchAddr_getLsbD_zero, BitVec.carry_zero]
    rfl
  have hpending : s.fetchAddr + 2 = s.fetchAddr + 4 - 2 := by bv_omega
  rw [State.stepReady, State.beginStep_t, State.beginStep_pcRead, State.beginStep_pcPending, h, heven, hpending,
    beq_self_eq_true]
  rfl

/-- At T = 1 a step is the block's step on the fetched word. -/
theorem step_eq_exec_of_t {s : State} (h : s.t = true) : step s = exec (decodeWord s.fetchWord) s.beginStep :=
  (if_pos h).trans (blockStep_of_stepReady (State.stepReady_beginStep h) _)

/-- Settles O15: under R32's preconditions both the entry point and the loop's step are `exec` of the decoded word. -/
theorem stepCompletesOrSignals : Obligations.StepCompletesOrSignals := by
  refine ⟨fun w s h => ?_, fun s h => ?_⟩
  · rw [blockStep_of_stepReady h]
    exact exec_decodeWord_next_or_fault w s
  · rw [step_eq_exec_of_t h]
    exact exec_decodeWord_next_or_fault s.fetchWord s.beginStep

end Sys2Proof.Machine
end

section
/-!
The classifier of R60 and the decoder that follows it (30_encoding.md R58 to R77). A field of a word is what the word's
masked bits say; two formats whose match values differ under both masks have no word in common; the classifier is the
search of the 14 predicates; the high byte decides it; and the word of an instruction decodes to the instruction, format
by format.
-/

namespace Sys2Proof

/-! ### Fields and masks -/

theorem field_and (a b : Half) (lo n : Nat) : field (a &&& b) lo n = field a lo n &&& field b lo n :=
  BitVec.extractLsb'_and

/-- A field put back at its place is the word under the field's mask. -/
theorem put_field (w : Half) (lo n : Nat) : put lo (field w lo n) = w &&& put lo (BitVec.allOnes n) := by
  apply BitVec.eq_of_getLsbD_eq
  intro i hi
  by_cases h : lo ≤ i
  · simp [put, field, hi, Nat.add_sub_cancel' h, Nat.not_lt.2 h, Bool.and_comm]
  · simp [put, Nat.lt_of_not_le h]

/-- A field has a value if and only if the word meets that mask and match. -/
theorem field_eq_iff_and (w : Half) {lo n : Nat} (v : BitVec n) (h : lo + n ≤ 16) :
    field w lo n = v ↔ w &&& put lo (BitVec.allOnes n) = put lo v := by
  rw [← put_field]
  refine ⟨congrArg (put lo), fun e => ?_⟩
  rw [← field_put_same (field w lo n) lo h, e, field_put_same v lo h]

/-- A mask and match fix every field that the mask covers. -/
theorem field_of_and_eq {w m p : Half} {lo n : Nat} (h : w &&& m = p) (hm : field m lo n = BitVec.allOnes n) :
    field w lo n = field p lo n := by
  rw [← h, field_and, hm, BitVec.and_allOnes]

/-- Two fields that do not overlap have two values if and only if the word meets the joined mask and match. -/
theorem fields_eq_iff_and (w : Half) {lo n lo' n' : Nat} (v : BitVec n) (v' : BitVec n') (h : lo + n ≤ 16)
    (hap : lo' + n' ≤ lo) :
    field w lo n = v ∧ field w lo' n' = v' ↔
      w &&& (put lo (BitVec.allOnes n) ||| put lo' (BitVec.allOnes n')) = put lo v ||| put lo' v' := by
  constructor
  · rintro ⟨rfl, rfl⟩
    rw [put_field, put_field, BitVec.and_or_distrib_left]
  · intro e
    have h' : lo' + n' ≤ 16 := by omega
    constructor
    · rw [field_of_and_eq e (by simp [h, hap])]
      simp [h, hap]
    · rw [field_of_and_eq e (by simp [h', hap])]
      simp [h', hap]

/-- Two masks and matches that one word meets agree where the masks overlap. -/
theorem and_eq_and_of_common {w m p m' p' : Half} (h : w &&& m = p) (h' : w &&& m' = p') : p &&& m' = p' &&& m := by
  rw [← h, ← h', BitVec.and_assoc, BitVec.and_assoc, BitVec.and_comm m]

/-! ### The 14 predicates (R60) -/

/-- R60's third column is its mask and match, with the exclusion of Format 2 in the row of Format 1. -/
theorem Format.admits_iff_and (f : Format) (w : Half) :
    f.admits w = true ↔ w &&& (formatMask f).1 = (formatMask f).2 ∧ (f = .f1 → w &&& 0x1800 ≠ 0x1800) := by
  cases f with
  | f7 | f8 | f14 | f19b => simp [Format.admits, formatMask, fields_eq_iff_and, put]
  | f1 | f2 | f3 | f4 | f5 | f6 | f9 | f10 | f16 | f19a => simp [Format.admits, formatMask, field_eq_iff_and, put]

/-- The predicates in the order of R60's table. -/
def formats : List Format := [.f1, .f2, .f3, .f4, .f5, .f6, .f7, .f8, .f9, .f10, .f14, .f16, .f19a, .f19b]

theorem mem_formats (f : Format) : f ∈ formats := by cases f <;> decide

/-- Two formats agree where their masks overlap only if they are one, or Formats 1 and 2. -/
theorem formatMask_clash : ∀ f ∈ formats, ∀ g ∈ formats,
    (formatMask f).2 &&& (formatMask g).1 = (formatMask g).2 &&& (formatMask f).1 →
      f = g ∨ f = .f1 ∧ g = .f2 ∨ f = .f2 ∧ g = .f1 := by decide

/-- The word of Format 2 has the bits that the row of Format 1 excludes. -/
theorem Format.not_f1_admits_of_f2 {w : Half} (h : Format.f2.admits w = true) : ¬ Format.f1.admits w = true := by
  have hop : field w 11 2 = 3 := field_of_and_eq ((Format.admits_iff_and .f2 w).1 h).1 (by decide)
  simp [Format.admits, hop]

/-- The predicates of R60 are pairwise disjoint. -/
theorem Format.eq_of_admits {f g : Format} {w : Half} (hf : f.admits w = true) (hg : g.admits w = true) : f = g := by
  have hcommon := and_eq_and_of_common ((f.admits_iff_and w).1 hf).1 ((g.admits_iff_and w).1 hg).1
  obtain h | ⟨rfl, rfl⟩ | ⟨rfl, rfl⟩ := formatMask_clash f (mem_formats f) g (mem_formats g) hcommon
  · exact h
  · exact absurd hf (Format.not_f1_admits_of_f2 hg)
  · exact absurd hg (Format.not_f1_admits_of_f2 hf)

/-! ### The classifier (R60, R61) -/

theorem find?_cons_eq_ite {α : Type} (p : α → Bool) (a : α) (l : List α) :
    (a :: l).find? p = if p a then some a else l.find? p := by
  by_cases h : p a <;> simp [h]

theorem classify_eq_find? (w : Half) : classify w = formats.find? (Format.admits · w) := by
  simp only [formats, find?_cons_eq_ite]
  rfl

/-- The classifier answers the format whose predicate the word meets. -/
theorem classify_eq_some_iff {f : Format} {w : Half} : classify w = some f ↔ f.admits w = true := by
  rw [classify_eq_find?]
  refine ⟨List.find?_some (p := (Format.admits · w)), fun hf => ?_⟩
  have hsome : (formats.find? (Format.admits · w)).isSome = true := List.find?_isSome.2 ⟨f, mem_formats f, hf⟩
  obtain ⟨g, hg⟩ := Option.isSome_iff_exists.1 hsome
  rw [hg, Format.eq_of_admits hf (List.find?_some (p := (Format.admits · w)) hg)]

/-- A field of the high byte, put back in its place, is the field of the word. -/
theorem field_put_highByte (w : Half) {lo n : Nat} (h8 : 8 ≤ lo) (h16 : lo + n ≤ 16) :
    field (put 8 (field w 8 8)) lo n = field w lo n := by
  apply BitVec.eq_of_getLsbD_eq
  intro i hi
  have hlt : lo + i < 16 := by omega
  have hge : ¬ lo + i < 8 := by omega
  have hplace : 8 + (lo + i - 8) = lo + i := by omega
  simp [field, put, hi, hlt, hge, hplace, show lo + i - 8 < 8 by omega]

/-- No predicate reads a bit below the high byte. -/
theorem classify_put_highByte (w : Half) : classify (put 8 (field w 8 8)) = classify w := by
  simp [classify, Format.admits, field_put_highByte]

/-- R61's table, byte by byte. -/
theorem classify_put_eq_formatOfHighByte : ∀ hb : Byte, classify (put 8 hb) = formatOfHighByte hb := by decide

/-- Settles O8: a word is classified as its high byte alone, and R61's table lists the high bytes. -/
theorem highByteMapAgrees : Obligations.HighByteMapAgrees := fun w =>
  (classify_put_highByte w).symm.trans (classify_put_eq_formatOfHighByte (field w 8 8))

/-! ### The decoder -/

/-- The decoder of each format's rows. -/
def Format.decoder : Format → Half → Instr
  | .f1 => decodeF1
  | .f2 => decodeF2
  | .f3 => decodeF3
  | .f4 => decodeF4
  | .f5 => decodeF5
  | .f6 => decodeF6
  | .f7 => decodeF7
  | .f8 => decodeF8
  | .f9 => decodeF9
  | .f10 => decodeF10
  | .f14 => decodeF14
  | .f16 => decodeF16
  | .f19a => decodeF19a
  | .f19b => decodeF19b

/-- A word that meets a predicate is decoded by that format's layout. -/
theorem decodeWord_of_admits {f : Format} {w : Half} (h : f.admits w = true) : decodeWord w = f.decoder w := by
  rw [decodeWord, classify_eq_some_iff.2 h]
  cases f <;> rfl

theorem decodeWord_of_classify_none {w : Half} (h : classify w = none) : decodeWord w = decodeNoFormat w := by
  rw [decodeWord, h]

/-- A word of a row that clashes with every format's mask and match is decoded by the patterns of no format. -/
theorem decodeWord_of_clash {w m p : Half} (h : w &&& m = p)
    (hclash : ∀ f ∈ formats, (formatMask f).2 &&& m ≠ p &&& (formatMask f).1) : decodeWord w = decodeNoFormat w := by
  refine decodeWord_of_classify_none ?_
  rw [classify_eq_find?, List.find?_eq_none]
  intro f hf hadmits
  exact hclash f hf (and_eq_and_of_common ((f.admits_iff_and w).1 hadmits).1 h)

/-- The seven patterns of no format raise the signal with the word (R76, R179). -/
theorem exec_decodeNoFormat (w : Half) (s : Machine.State) :
    Machine.exec (decodeNoFormat w) s = .fault (.invalidOpcode w .noFormat) := by
  unfold decodeNoFormat
  split_ifs <;> rfl

/-- Settles O7: masks and matches that clash make the predicates disjoint, so the classifier's search finds the only one
that a word meets. -/
theorem classifierPredicatesDisjoint : Obligations.ClassifierPredicatesDisjoint := by
  refine ⟨Format.admits_iff_and, fun _ _ _ => Format.eq_of_admits, fun _ _ => classify_eq_some_iff, fun w s h => ?_⟩
  rw [decodeWord_of_classify_none h]
  exact exec_decodeNoFormat w s

/-! ### Decode of encode -/

/-- The word of an executing row meets the predicate of the row's format, and the format's layout gives back the
operands (R62 to R74). -/
theorem exists_format_of_encode {i : Instr} (h : i.isInvalidRow = false) :
    ∃ f : Format, f.admits (encode i) = true ∧ f.decoder (encode i) = i := by
  cases i with
  | lslImm | lsrImm | asrImm =>
    exact ⟨.f1, by simp [Format.admits, encode], by simp [Format.decoder, decodeF1, encode]⟩
  | addReg | subReg | addImm3 | subImm3 =>
    exact ⟨.f2, by simp [Format.admits, encode], by simp [Format.decoder, decodeF2, encode]⟩
  | movImm8 | cmpImm8 | addImm8 | subImm8 =>
    exact ⟨.f3, by simp [Format.admits, encode], by simp [Format.decoder, decodeF3, encode]⟩
  | and | eor | lslReg | lsrReg | asrReg | adc | sbc | ror | tst | neg | cmpReg | cmn | orr | mul | bic | mvn =>
    exact ⟨.f4, by simp [Format.admits, encode], by simp [Format.decoder, decodeF4, encode]⟩
  | addHi | cmpHi | movHi | bx | blxReg =>
    exact ⟨.f5, by simp [Format.admits, encode], by simp [Format.decoder, decodeF5, encode]⟩
  | ldrPc =>
    exact ⟨.f6, by simp [Format.admits, encode], by simp [Format.decoder, decodeF6, encode]⟩
  | strReg | strbReg | ldrReg | ldrbReg =>
    exact ⟨.f7, by simp [Format.admits, encode], by simp [Format.decoder, decodeF7, encode]⟩
  | strhReg | ldsbReg | ldrhReg | ldshReg =>
    exact ⟨.f8, by simp [Format.admits, encode], by simp [Format.decoder, decodeF8, encode]⟩
  | strImm | ldrImm | strbImm | ldrbImm =>
    exact ⟨.f9, by simp [Format.admits, encode], by simp [Format.decoder, decodeF9, encode]⟩
  | strhImm | ldrhImm =>
    exact ⟨.f10, by simp [Format.admits, encode], by simp [Format.decoder, decodeF10, encode]⟩
  | push r | pop r =>
    exact ⟨.f14, by simp [Format.admits, encode], by cases r <;> simp [Format.decoder, decodeF14, encode]⟩
  | beq | bne | bcs | bcc | bmi | bpl | bvs | bvc | bhi | bls | bge | blt | bgt | ble =>
    exact ⟨.f16, by simp [Format.admits, encode], by simp [Format.decoder, decodeF16, encode]⟩
  | blHi =>
    exact ⟨.f19a, by simp [Format.admits, encode], by simp [Format.decoder, decodeF19a, encode]⟩
  | blLo | blxLo =>
    exact ⟨.f19b, by simp [Format.admits, encode], by simp [Format.decoder, decodeF19b, encode]⟩
  | _ => cases h

/-- The word of an invalid row decodes to the row that carries it: the row's mask fixes the fields that the decoder
tests, and every format but 16 clashes with it (R76, R77). -/
theorem decodeWord_encode_of_isInvalidRow {i : Instr} (hi : i.isInvalidRow = true) (h : i.wellFormed = true) :
    decodeWord (encode i) = i := by
  cases i with
  | invalid9000 w =>
    have hrow : w &&& 0xF000 = 0x9000 := Laws.RowMatch.invalid9000 w h
    have htop : field w 12 4 = 0b1001 := field_of_and_eq hrow (by decide)
    simp [encode, decodeWord_of_clash hrow (by decide), decodeNoFormat, htop]
  | invalidA000 w =>
    have hrow : w &&& 0xF000 = 0xA000 := Laws.RowMatch.invalidA000 w h
    have htop : field w 12 4 = 0b1010 := field_of_and_eq hrow (by decide)
    simp [encode, decodeWord_of_clash hrow (by decide), decodeNoFormat, htop]
  | invalidB000 w =>
    have hrow : w &&& 0xF600 = 0xB000 := Laws.RowMatch.invalidB000 w h
    have htop : field w 12 4 = 0b1011 := field_of_and_eq hrow (by decide)
    have hsub : field w 9 2 = 0b00 := field_of_and_eq hrow (by decide)
    simp [encode, decodeWord_of_clash hrow (by decide), decodeNoFormat, htop, hsub]
  | invalidB200 w =>
    have hrow : w &&& 0xF600 = 0xB200 := Laws.RowMatch.invalidB200 w h
    have htop : field w 12 4 = 0b1011 := field_of_and_eq hrow (by decide)
    have hsub : field w 9 2 = 0b01 := field_of_and_eq hrow (by decide)
    simp [encode, decodeWord_of_clash hrow (by decide), decodeNoFormat, htop, hsub]
  | invalidB600 w =>
    have hrow : w &&& 0xF600 = 0xB600 := Laws.RowMatch.invalidB600 w h
    have htop : field w 12 4 = 0b1011 := field_of_and_eq hrow (by decide)
    have hsub : field w 9 2 = 0b11 := field_of_and_eq hrow (by decide)
    simp [encode, decodeWord_of_clash hrow (by decide), decodeNoFormat, htop, hsub]
  | invalidC000 w =>
    have hrow : w &&& 0xF000 = 0xC000 := Laws.RowMatch.invalidC000 w h
    have htop : field w 12 4 = 0b1100 := field_of_and_eq hrow (by decide)
    simp [encode, decodeWord_of_clash hrow (by decide), decodeNoFormat, htop]
  | invalidE000 w =>
    have hrow : w &&& 0xF800 = 0xE000 := Laws.RowMatch.invalidE000 w h
    have htop : field w 12 4 = 0b1110 := field_of_and_eq hrow (by decide)
    simp [encode, decodeWord_of_clash hrow (by decide), decodeNoFormat, htop]
  | invalidCond14 w =>
    have hrow : w &&& 0xFF00 = 0xDE00 := Laws.RowMatch.invalidCond14 w h
    have hf : Format.f16.admits w = true := beq_iff_eq.2 (field_of_and_eq hrow (by decide))
    have hcond : field w 8 4 = 14 := field_of_and_eq hrow (by decide)
    simp [encode, decodeWord_of_admits hf, Format.decoder, decodeF16, hcond]
  | invalidSwi w =>
    have hrow : w &&& 0xFF00 = 0xDF00 := Laws.RowMatch.invalidSwi w h
    have hf : Format.f16.admits w = true := beq_iff_eq.2 (field_of_and_eq hrow (by decide))
    have hcond : field w 8 4 = 15 := field_of_and_eq hrow (by decide)
    simp [encode, decodeWord_of_admits hf, Format.decoder, decodeF16, hcond]
  | _ => cases hi

/-- The word of a well-formed instruction decodes to it. -/
theorem decodeWord_encode {i : Instr} (h : i.wellFormed = true) : decodeWord (encode i) = i := by
  cases hi : i.isInvalidRow with
  | true => exact decodeWord_encode_of_isInvalidRow hi h
  | false =>
    obtain ⟨f, hadmits, hlayout⟩ := exists_format_of_encode hi
    rw [decodeWord_of_admits hadmits, hlayout]

/-- Settles O1: the bytes give back the word, and the word the instruction. -/
theorem decodeEncodeAgree : Obligations.DecodeEncodeAgree := fun i rest h => by
  rw [decode_bytesOfHalf, decodeWord_encode h]

end Sys2Proof
end

section
/-!
The flag unit's N, Z, C and V in the spec's words (40_flag_unit.md R81, R83, R84, R87). The sign tests of R83 and R84
are comparisons of bit 31; of the wrapped sum and difference they are the library's signed overflow. C of `AddFlags`,
the comparison `result <u a`, is the carry out.
-/

namespace Sys2Proof.Machine

variable (f : Flags) (a b r : Word)

/-! ### N and Z (R81) -/

theorem Flags.setNZ_z_iff : (f.setNZ r).z = true ↔ r.toNat = 0 :=
  beq_iff_eq.trans (BitVec.toNat_eq (y := 0))

theorem Flags.setNZ_n_iff : (f.setNZ r).n = true ↔ 2 ^ 31 ≤ r.toNat := by
  rw [Flags.setNZ_n, BitVec.msb_eq_decide, decide_eq_true_iff]

/-- Settles O20: a value with bit 31 set is not 0. -/
theorem setNZDescribesValue : Obligations.SetNZDescribesValue := by
  intro f r
  have hz := f.setNZ_z_iff r
  have hn := f.setNZ_n_iff r
  refine ⟨hz, hn, fun ⟨hneg, hzero⟩ => ?_, rfl, rfl⟩
  have hlow := hn.1 hneg
  rw [hz.1 hzero] at hlow
  exact absurd hlow (by decide)

/-! ### The sign tests (R83, R84) -/

/-- `setVAdd` compares signs: V is set when the operands agree in bit 31 and the result does not. -/
theorem Flags.setVAdd_v_eq_msb : (f.setVAdd a b r).v = (a.msb == b.msb && a.msb != r.msb) := by
  rw [Flags.setVAdd_v, BitVec.msb_and, BitVec.msb_not, BitVec.msb_xor, BitVec.msb_xor, Bool.xor, bne, Bool.not_not]
  rfl

/-- `setVSub` compares signs: V is set when the operands differ in bit 31 and the result differs from the first. -/
theorem Flags.setVSub_v_eq_msb : (f.setVSub a b r).v = (a.msb != b.msb && a.msb != r.msb) := by
  rw [Flags.setVSub_v, BitVec.msb_and, BitVec.msb_xor, BitVec.msb_xor]

theorem Flags.setVAdd_v_iff_bit31 :
    (f.setVAdd a b r).v = true ↔ a.getLsbD 31 = b.getLsbD 31 ∧ r.getLsbD 31 ≠ a.getLsbD 31 := by
  rw [Flags.setVAdd_v_eq_msb, Bool.and_eq_true, beq_iff_eq, bne_iff_ne, ne_comm]
  simp only [BitVec.msb_eq_getLsbD_last]

theorem Flags.setVSub_v_iff_bit31 :
    (f.setVSub a b r).v = true ↔ a.getLsbD 31 ≠ b.getLsbD 31 ∧ r.getLsbD 31 ≠ a.getLsbD 31 := by
  rw [Flags.setVSub_v_eq_msb, Bool.and_eq_true, bne_iff_ne, bne_iff_ne, ne_comm (a := r.getLsbD 31)]
  simp only [BitVec.msb_eq_getLsbD_last]

/-! ### Signed overflow of the wrapped results -/

theorem Flags.setVAdd_v_add : (f.setVAdd a b (a + b)).v = a.saddOverflow b := by
  rw [Flags.setVAdd_v_eq_msb, BitVec.saddOverflow_eq, bne, Bool.beq_comm (a := a.msb) (b := (a + b).msb)]

theorem Flags.setVSub_v_sub : (f.setVSub a b (a - b)).v = a.ssubOverflow b := by
  rw [Flags.setVSub_v_eq_msb, BitVec.ssubOverflow_eq]
  cases a.msb <;> cases b.msb <;> cases (a - b).msb <;> rfl

/-- R83: V of a wrapped sum says that the true signed sum does not fit. -/
theorem Flags.setVAdd_v_add_iff :
    (f.setVAdd a b (a + b)).v = true ↔ a.toInt + b.toInt < -2 ^ 31 ∨ 2 ^ 31 ≤ a.toInt + b.toInt := by
  rw [Flags.setVAdd_v_add, BitVec.saddOverflow, Bool.or_eq_true, decide_eq_true_iff, decide_eq_true_iff, or_comm]

/-- R84: V of a wrapped difference says that the true signed difference does not fit. -/
theorem Flags.setVSub_v_sub_iff :
    (f.setVSub a b (a - b)).v = true ↔ a.toInt - b.toInt < -2 ^ 31 ∨ 2 ^ 31 ≤ a.toInt - b.toInt := by
  rw [Flags.setVSub_v_sub, BitVec.ssubOverflow, Bool.or_eq_true, decide_eq_true_iff, decide_eq_true_iff, or_comm]

/-- Settles O23: the sign tests compare bits 31, and of the wrapped results they are signed overflow. -/
theorem overflowFunctions : Obligations.OverflowFunctions := by
  intro f a b
  refine ⟨f.setVAdd_v_add_iff a b, f.setVSub_v_sub_iff a b, fun r => ⟨?_, ?_, rfl, rfl⟩⟩
  · exact f.setVAdd_v_iff_bit31 a b r
  · exact f.setVSub_v_iff_bit31 a b r

/-! ### The flag set of addition (R87) -/

theorem addFlags_c_iff_toNat : (addFlags f a b).2.c = true ↔ (a + b).toNat < a.toNat :=
  decide_eq_true_iff

/-- A wrapped sum is below its first operand if and only if the addition carries out of bit 31. -/
theorem toNat_add_lt_left_iff : (a + b).toNat < a.toNat ↔ 2 ^ 32 ≤ a.toNat + b.toNat := by
  have ha := a.isLt
  have hb := b.isLt
  rw [BitVec.toNat_add]
  omega

theorem cvOfAdd_addFlags : CVofAdd (addFlags f a b).2 a b := by
  constructor
  · rw [Bool.eq_iff_iff, decide_eq_true_iff, addFlags_c_iff_toNat, toNat_add_lt_left_iff]
  · rw [Bool.eq_iff_iff, decide_eq_true_iff, addFlags_v, Flags.setVAdd_v_add_iff]

theorem nzOf_addFlags : NZof (addFlags f a b).2 (a + b) :=
  nzOf_setNZ _ _

/-- Settles O21: C is the comparison with the first operand, which detects the carry, and V is that of `setVAdd`. -/
theorem additionFlagSet : Obligations.AdditionFlagSet := fun f a b =>
  ⟨BitVec.toNat_add a b, cvOfAdd_addFlags f a b, nzOf_addFlags f a b, addFlags_c_iff_toNat f a b⟩

end Sys2Proof.Machine
end

section
/-!
The immediate shifts and MOV of 41_shift_addsub_imm.md (R97 to R99, R104). For every amount the shifter's result is the
library's shift, so its bits are the library's, and its carry-out is the last bit shifted out (R90 to R92); the meanings
then follow from what `shiftResult` and `arithResult` do.
-/

namespace Sys2Proof.Machine

/-! ### The shifter for every amount (R90 to R92) -/

/-- R90 lists the amounts from 32 on apart; the library's shift by them is 0 as well. -/
theorem lslC_fst (v : Word) (n : Nat) (c : Bool) : (lslC v n c).1 = v <<< n := by
  unfold lslC
  split_ifs with h0 h31 h32
  · rw [h0, BitVec.shiftLeft_zero]
  · rfl
  · exact (BitVec.shiftLeft_eq_zero (by omega)).symm
  · exact (BitVec.shiftLeft_eq_zero (by omega)).symm

theorem lslC_snd (v : Word) (n : Nat) (c : Bool) : (lslC v n c).2 = lslCarry v n c := by
  unfold lslC lslCarry
  split_ifs with h0 h31 h32 h32
  · rfl
  · rfl
  · omega
  · rw [h32]
  · omega
  · omega
  · rfl

/-- R91 lists the amounts from 32 on apart; the library's shift by them is 0 as well. -/
theorem lsrC_fst (v : Word) (n : Nat) : (lsrC v n).1 = v >>> n := by
  unfold lsrC
  split_ifs with h31 h32
  · rfl
  · exact (BitVec.ushiftRight_eq_zero (by omega)).symm
  · exact (BitVec.ushiftRight_eq_zero (by omega)).symm

/-- A bit beyond 31 is false, so the carry-out of every amount is the bit below it. -/
theorem lsrC_snd (v : Word) (n : Nat) : (lsrC v n).2 = v.getLsbD (n - 1) := by
  unfold lsrC
  split_ifs with h31 h32
  · rfl
  · rw [h32]
  · exact (BitVec.getLsbD_of_ge v (n - 1) (by omega)).symm

/-- From 32 on every bit of the arithmetic shift is the sign bit. -/
theorem sshiftRight_of_width_le (v : Word) {n : Nat} (h : 32 ≤ n) :
    v.sshiftRight n = if v.getLsbD 31 = true then 0xFFFFFFFF else 0 := by
  have hbits : v.sshiftRight n = BitVec.fill 32 v.msb := by
    apply BitVec.eq_of_getLsbD_eq
    intro k hk
    rw [BitVec.getLsbD_sshiftRight, if_neg (by omega)]
    simp [hk]
  rw [hbits, BitVec.msb_eq_getLsbD_last]
  cases v.getLsbD 31 <;> rfl

theorem asrC_fst (v : Word) (n : Nat) : (asrC v n).1 = v.sshiftRight n := by
  by_cases h31 : n ≤ 31
  · rw [asrC, if_pos h31]
  · rw [asrC, if_neg h31, sshiftRight_of_width_le v (by omega)]

theorem asrC_snd (v : Word) (n : Nat) : (asrC v n).2 = v.getLsbD (min (n - 1) 31) := by
  by_cases h31 : n ≤ 31
  · rw [asrC, if_pos h31, Nat.min_eq_left (by omega)]
  · rw [asrC, if_neg h31, Nat.min_eq_right (by omega)]

theorem isLsl_lslC (v : Word) (n : Nat) (c : Bool) : IsLsl (lslC v n c).1 v n := by
  intro k hk
  rw [lslC_fst, BitVec.getLsbD_shiftLeft, decide_eq_true hk, Bool.true_and, ← decide_not,
    decide_eq_decide.2 Nat.not_lt]

theorem isLsr_lsrC (v : Word) (n : Nat) : IsLsr (lsrC v n).1 v n := by
  intro k _
  rw [lsrC_fst, BitVec.getLsbD_ushiftRight, Nat.add_comm]

theorem isAsr_asrC (v : Word) (n : Nat) : IsAsr (asrC v n).1 v n := by
  intro k hk
  rw [asrC_fst, BitVec.getLsbD_sshiftRight, Nat.add_comm n k, decide_eq_false (Nat.not_le.2 hk), Bool.not_false,
    Bool.true_and]
  split_ifs with hin
  · rw [Nat.min_eq_left (by omega)]
  · rw [Nat.min_eq_right (by omega), BitVec.msb_eq_getLsbD_last]

/-! ### The immediate shifts (R97 to R99) -/

/-- What holds of a shift's result and carry-out holds of the register and of C after it; the rest of R97's effect is that
of every shift. -/
theorem shiftResult_next_of (s : State) (rd : LowReg) (IsShift : Word → Prop) {p : Word × Bool} {c : Bool}
    (hres : IsShift p.1) (hcarry : p.2 = c) :
    ∃ t, shiftResult s rd p = .next t ∧ IsShift (t.readReg (low rd)) ∧ NZof t.flags (t.readReg (low rd)) ∧
      t.flags.c = c ∧ t.flags.v = s.flags.v ∧ OnlyRegs s t [low rd] := by
  obtain ⟨t, hnext, hread, hnz, hc, hv, hframe⟩ := shiftResult_next s rd p
  rw [← hread] at hres hnz
  exact ⟨t, hnext, hres, hnz, hc.trans hcarry, hv, hframe⟩

/-- The amount of an immediate right shift is at most 32. -/
theorem rightAmount_imm5_le (imm5 : BitVec 5) : rightAmount imm5.toNat ≤ 32 := by
  have := imm5.isLt
  unfold rightAmount
  split <;> omega

/-- Settles O26: each immediate shift writes the shifter's result, and an arithmetic shift by at most 32 takes its carry
from the bit below the amount. -/
theorem immediateShifts : Obligations.ImmediateShifts := by
  rintro s imm5 rs rd _ rfl
  have hlast : min (rightAmount imm5.toNat - 1) 31 = rightAmount imm5.toNat - 1 :=
    Nat.min_eq_left (Nat.sub_le_sub_right (rightAmount_imm5_le imm5) 1)
  refine ⟨?_, ?_, ?_⟩
  · exact shiftResult_next_of s rd (IsLsl · (s.readReg (low rs)) imm5.toNat)
      (isLsl_lslC _ _ _) (lslC_snd _ _ _)
  · exact shiftResult_next_of s rd (IsLsr · (s.readReg (low rs)) (rightAmount imm5.toNat))
      (isLsr_lsrC _ _) (lsrC_snd _ _)
  · exact shiftResult_next_of s rd (IsAsr · (s.readReg (low rs)) (rightAmount imm5.toNat))
      (isAsr_asrC _ _) ((asrC_snd _ _).trans (congrArg _ hlast))

/-! ### MOV (R104) -/

theorem toNat_zext {n : Nat} (v : BitVec n) (h : n ≤ 32) : (zext v).toNat = v.toNat :=
  BitVec.toNat_setWidth_of_le h

/-- Settles O28: the zero-extended byte is below 2^31, so `setNZ` clears N. -/
theorem moveImmediate : Obligations.MoveImmediate := by
  intro s rd imm8
  have hval : (zext imm8).toNat = imm8.toNat := toNat_zext imm8 (by decide)
  obtain ⟨t, hexec, hres, hflags, hframe⟩ := arithResult_next s rd (zext imm8, s.flags.setNZ (zext imm8))
  refine ⟨t, hexec, by rw [hres, hval], ?_, ?_, by rw [hflags]; rfl, by rw [hflags]; rfl, hframe⟩
  · have hbyte := imm8.isLt
    rw [hflags, Bool.eq_false_iff, ne_eq, Flags.setNZ_n_iff, hval]
    omega
  · rw [hflags, Flags.setNZ_z_iff, hval]

end Sys2Proof.Machine
end

section
/-!
The register shifts of 42_alu_register.md (R112 to R114, R117). LSL, LSR and ASR use the shifter's bits and carry-outs
proved for the immediate shifts; the rotate (R93) is the library's, and its carry-out is bit 31 of the result.
-/

namespace Sys2Proof.Machine

/-! ### The rotate for every amount (R93) -/

theorem rotateRight_of_mod_eq_zero (v : Word) {n : Nat} (h : n % 32 = 0) : v.rotateRight n = v := by
  rw [BitVec.rotateRight_def, h, BitVec.ushiftRight_zero, BitVec.shiftLeft_eq_zero (Nat.le_refl _), BitVec.or_zero]

/-- R93 sets the multiples of 32 apart; the library's rotate by them leaves the value as well. -/
theorem rorC_fst (v : Word) (n : Nat) (c : Bool) : (rorC v n c).1 = v.rotateRight n := by
  by_cases h0 : n = 0
  · rw [rorC, if_pos h0, rotateRight_of_mod_eq_zero v (by rw [h0])]
  · rw [rorC, if_neg h0]
    by_cases hk : n % 32 = 0
    · exact (if_pos hk).trans (rotateRight_of_mod_eq_zero v hk).symm
    · exact (if_neg hk).trans BitVec.rotateRight_def.symm

theorem isRor_rorC (v : Word) (n : Nat) (c : Bool) : IsRor (rorC v n c).1 v n := by
  intro k hk
  rw [rorC_fst, BitVec.getLsbD_rotateRight]
  by_cases hwrap : k < 32 - n % 32
  · rw [decide_eq_true hwrap, cond_true]
    congr 1
    omega
  · rw [decide_eq_false hwrap, cond_false, decide_eq_true hk, Bool.true_and]
    congr 1
    omega

/-- Bit 31 of the rotated value is the bit that was rotated out last. -/
theorem rorC_snd (v : Word) (n : Nat) (c : Bool) : (rorC v n c).2 = rorCarry v n c := by
  by_cases h0 : n = 0
  · rw [rorC, rorCarry, if_pos h0, if_pos h0]
  · calc (rorC v n c).2 = (rorC v n c).1.getLsbD 31 := by rw [rorC, if_neg h0]
      _ = v.getLsbD ((31 + n) % 32) := isRor_rorC v n c 31 (by decide)
      _ = rorCarry v n c := by rw [rorCarry, if_neg h0]; congr 1; omega

/-! ### The register shifts (R112 to R114, R117) -/

/-- Settles O31: each register shift writes the shifter's result for the count in the low 8 bits of the source, where LSR
and ASR take 0 as 32. -/
theorem registerShifts : Obligations.RegisterShifts := by
  rintro s rs rd _ _ rfl rfl
  refine ⟨?_, ?_, ?_, ?_⟩
  · exact shiftResult_next_of s rd (IsLsl · (s.readReg (low rd)) (shiftCount s rs))
      (isLsl_lslC _ _ _) (lslC_snd _ _ _)
  · exact shiftResult_next_of s rd (IsLsr · (s.readReg (low rd)) (rightAmount (shiftCount s rs)))
      (isLsr_lsrC _ _) (lsrC_snd _ _)
  · exact shiftResult_next_of s rd (IsAsr · (s.readReg (low rd)) (rightAmount (shiftCount s rs)))
      (isAsr_asrC _ _) (asrC_snd _ _)
  · exact shiftResult_next_of s rd (IsRor · (s.readReg (low rd)) (shiftCount s rs))
      (isRor_rorC _ _ _) (rorC_snd _ _ _)

end Sys2Proof.Machine
end

section
/-!
The loads of 44_load_store.md (R134, R137, R138, R140 to R142, R144, R146, R148). An immediate offset, scaled as a word,
is the scaled number of the statements; each load is one of the three shared load operations at its effective address,
with the widening that keeps the read value as a number (zero-extension) or as an integer (sign-extension).
-/

namespace Sys2Proof.Machine

/-! ### Effective addresses -/

/-- A scaled immediate is the scaled number of its bits. -/
theorem zext_mul_ofNat {n : Nat} (v : BitVec n) (k : Nat) :
    zext v * BitVec.ofNat 32 k = BitVec.ofNat 32 (k * v.toNat) := by
  rw [zext, ← BitVec.ofNat_toNat, ← BitVec.ofNat_mul, Nat.mul_comm]

theorem pcRelAddr_eq (s : State) (imm8 : BitVec 8) :
    pcRelAddr s imm8 = (s.pcRead &&& 0xFFFFFFFD) + BitVec.ofNat 32 (4 * imm8.toNat) :=
  congrArg (_ + ·) (zext_mul_ofNat imm8 4)

theorem immAddr_ofNat (s : State) (imm5 : BitVec 5) (k : Nat) (rb : LowReg) :
    immAddr s imm5 (BitVec.ofNat 32 k) rb = s.readReg (low rb) + BitVec.ofNat 32 (k * imm5.toNat) :=
  congrArg (_ + ·) (zext_mul_ofNat imm5 k)

/-- An even value with bit 1 cleared is a multiple of 4 (R20, R134). -/
theorem toNat_clearBit1_mod_four {v : Word} (h : v.toNat % 2 = 0) : (v &&& 0xFFFFFFFD).toNat % 4 = 0 := by
  have hlow : (v &&& 0xFFFFFFFD).toNat % 2 ^ 2 = v.toNat % 2 ^ 2 &&& 1 := by
    rw [BitVec.toNat_and, Nat.and_mod_two_pow]
    rfl
  rw [show 4 = 2 ^ 2 from rfl, hlow, Nat.and_one_is_mod]
  omega

/-- A multiple of 4 moved by a multiple of 4 is one, also where the address wraps. -/
theorem toNat_add_ofNat_mod_four {v : Word} (h : v.toNat % 4 = 0) (n : Nat) :
    (v + BitVec.ofNat 32 (4 * n)).toNat % 4 = 0 := by
  rw [BitVec.toNat_add, BitVec.toNat_ofNat]
  omega

/-! ### The loads -/

theorem toInt_sext {n : Nat} (v : BitVec n) (h : n ≤ 32) : (sext v).toInt = v.toInt :=
  BitVec.toInt_signExtend_of_le h

/-- What holds of the widened byte holds of the loaded value. -/
theorem loadByte_next_of (s : State) (rd : LowReg) (ea : Word) {widen : Byte → Word} {IsWidened : Word → Prop}
    (hwiden : IsWidened (widen (s.byteAt ea))) :
    ∃ t v, loadByte widen s rd ea = .next t ∧ IsWidened v ∧ LoadsAs s t rd (.readByte ea (s.byteAt ea)) v := by
  obtain ⟨t, hnext, hloads, -⟩ := loadByte_next widen s rd ea
  exact ⟨t, _, hnext, hwiden, hloads⟩

/-- What holds of the widened halfword holds of the loaded value. -/
theorem loadHalf_next_of (s : State) (rd : LowReg) (ea : Word) {widen : Half → Word} {IsWidened : Word → Prop}
    (hwiden : IsWidened (widen (s.halfAt ea))) :
    ∃ t v, loadHalf widen s rd ea = .next t ∧ IsWidened v ∧ LoadsAs s t rd (.readHalf ea (s.halfAt ea)) v := by
  obtain ⟨t, hnext, hloads, -⟩ := loadHalf_next widen s rd ea
  exact ⟨t, _, hnext, hwiden, hloads⟩

/-- A word is loaded as it is. -/
theorem loadWord_next_loadsAs (s : State) (rd : LowReg) (ea : Word) :
    ∃ t, loadWord s rd ea = .next t ∧ LoadsAs s t rd (.readWord ea (s.wordAt ea)) (s.wordAt ea) := by
  obtain ⟨t, hnext, hloads, -⟩ := loadWord_next s rd ea
  exact ⟨t, hnext, hloads⟩

/-- Settles O35: the address is a word load's, and both its parts are multiples of 4 where `pc_read` is even. -/
theorem pcRelativeLoad : Obligations.PcRelativeLoad := by
  rintro s rd imm8 _ rfl
  refine ⟨?_, fun heven => toNat_add_ofNat_mod_four (toNat_clearBit1_mod_four heven) imm8.toNat⟩
  rw [← pcRelAddr_eq]
  exact loadWord_next_loadsAs s rd (pcRelAddr s imm8)

/-- Settles O36: each row is its load at `regAddr`, and the widening keeps the number or the integer read. -/
theorem registerOffsetLoads : Obligations.RegisterOffsetLoads := by
  rintro s ro rb rd _ rfl
  refine ⟨?_, ?_, ?_, ?_, ?_⟩
  · exact loadWord_next_loadsAs s rd (regAddr s ro rb)
  · exact loadByte_next_of s rd (regAddr s ro rb) (toNat_zext _ (by decide))
  · exact loadByte_next_of s rd (regAddr s ro rb) (toInt_sext _ (by decide))
  · exact loadHalf_next_of s rd (regAddr s ro rb) (toNat_zext _ (by decide))
  · exact loadHalf_next_of s rd (regAddr s ro rb) (toInt_sext _ (by decide))

/-- Settles O37: each row is its load at `immAddr` with its scale, and the widening keeps the number read. -/
theorem immediateOffsetLoads : Obligations.ImmediateOffsetLoads := by
  intro s imm5 rb rd ea hea
  have haddr : ∀ k, ea k = immAddr s imm5 (BitVec.ofNat 32 k) rb := fun k =>
    (hea k).trans (immAddr_ofNat s imm5 k rb).symm
  rw [haddr 4, haddr 1, haddr 2]
  refine ⟨?_, ?_, ?_⟩
  · exact loadWord_next_loadsAs s rd (immAddr s imm5 4 rb)
  · exact loadByte_next_of s rd (immAddr s imm5 1 rb) (toNat_zext _ (by decide))
  · exact loadHalf_next_of s rd (immAddr s imm5 2 rb) (toNat_zext _ (by decide))

end Sys2Proof.Machine
end

section
/-!
The register frame of every instruction (10_state.md, sections 1 and 4). Each shared operation of the meanings keeps
every register but the one it is given; push and pop change SP and what pop loads, where a load of register 15 changes
no register that a read sees (R16, R18); an instruction has the frame of the operation it is made of.
-/

namespace Sys2Proof.Machine

variable {s t : State}

/-! ### The frame through an outcome -/

/-- What is said of the state an operation answers holds of any state it answers. -/
theorem of_eq_next {P : State → Prop} {r : StepResult} (hP : ∃ u, r = .next u ∧ P u) (h : r = .next t) : P t := by
  obtain ⟨u, rfl, hu⟩ := hP
  cases h
  exact hu

/-- Register 15 may be left out of a frame that keeps `pc_read`: reads of it see `pc_read` (R16, R18). -/
theorem regsKept_of_regsKept_PC {dst : List Reg} (h : RegsKept s t (dst ++ [PC])) (hpc : t.pcRead = s.pcRead) :
    RegsKept s t dst := by
  intro q hq
  by_cases hqpc : q = PC
  · rw [hqpc, State.readReg_PC, State.readReg_PC, hpc]
  · exact h q (by simp [hq, hqpc])

/-! ### The shared operations -/

theorem regsKept_arithResult {rd : LowReg} {p : Word × Flags} (h : arithResult s rd p = .next t) :
    RegsKept s t [low rd] := by
  obtain ⟨-, -, hregs, -⟩ := of_eq_next (arithResult_next s rd p) h
  exact hregs

theorem regsKept_shiftResult {rd : LowReg} {p : Word × Bool} (h : shiftResult s rd p = .next t) :
    RegsKept s t [low rd] := by
  obtain ⟨-, -, -, -, hregs, -⟩ := of_eq_next (shiftResult_next s rd p) h
  exact hregs

theorem regsKept_compareResult {p : Word × Flags} (h : compareResult s p = .next t) : RegsKept s t [] := by
  obtain ⟨-, hregs, -⟩ := of_eq_next (compareResult_next s p) h
  exact hregs

theorem regsKept_branchIf {cond : Cond} {imm8 : BitVec 8} (h : branchIf cond imm8 s = .next t) : RegsKept s t [] := by
  rw [branchIf_next] at h
  cases h
  split
  · exact regsKept_of_regs rfl rfl
  · exact regsKept_refl s []

theorem regsKept_branchExchange {v : Word} (h : branchExchange s v = .next t) : RegsKept s t [] := by
  rw [branchExchange_next] at h
  cases h
  split
  · exact regsKept_of_regs rfl rfl
  · exact regsKept_of_regs rfl rfl

theorem regsKept_of_loadsAs {rd : LowReg} {op : BusOp} {v : Word} (h : LoadsAs s t rd op v) :
    RegsKept s t [low rd] := by
  obtain ⟨-, -, hregs, -⟩ := h
  exact hregs

theorem regsKept_loadWord {rd : LowReg} {ea : Word} (h : loadWord s rd ea = .next t) : RegsKept s t [low rd] :=
  regsKept_of_loadsAs (of_eq_next (loadWord_next s rd ea) h).1

theorem regsKept_loadHalf {widen : Half → Word} {rd : LowReg} {ea : Word} (h : loadHalf widen s rd ea = .next t) :
    RegsKept s t [low rd] :=
  regsKept_of_loadsAs (of_eq_next (loadHalf_next widen s rd ea) h).1

theorem regsKept_loadByte {widen : Byte → Word} {rd : LowReg} {ea : Word} (h : loadByte widen s rd ea = .next t) :
    RegsKept s t [low rd] :=
  regsKept_of_loadsAs (of_eq_next (loadByte_next widen s rd ea) h).1

theorem regsKept_of_storesAs {ea : Word} {n : Nat} {op : BusOp} (h : StoresAs s t ea n op) : RegsKept s t [] := by
  obtain ⟨-, hregs, -⟩ := h
  exact hregs

theorem regsKept_storeWord {rd : LowReg} {ea : Word} (h : storeWord s rd ea = .next t) : RegsKept s t [] :=
  regsKept_of_storesAs (of_eq_next (storeWord_next s rd ea) h).1

theorem regsKept_storeHalf {rd : LowReg} {ea : Word} (h : storeHalf s rd ea = .next t) : RegsKept s t [] :=
  regsKept_of_storesAs (of_eq_next (storeHalf_next s rd ea) h).1

theorem regsKept_storeByte {rd : LowReg} {ea : Word} (h : storeByte s rd ea = .next t) : RegsKept s t [] :=
  regsKept_of_storesAs (of_eq_next (storeByte_next s rd ea) h).1

/-! ### Push, pop and the linking branches -/

/-- A push's stores read registers, so SP alone changes (R152). -/
theorem regsKept_execPush {r : Bool} {rlist : BitVec 8} (h : execPush r rlist s = .next t) : RegsKept s t [SP] := by
  cases h
  intro q hq
  rw [storeRegs_readReg]
  exact regsKept_writeReg s SP _ q hq

/-- A pop's loads change the listed registers; the load of register 15 is the pending PC (R150, R153). -/
theorem regsKept_loadRegs_popRegs (r : Bool) (rlist : BitVec 8) (a : Word) (s : State) :
    RegsKept s (loadRegs (popRegs r rlist) a s).2 (listedRegs rlist) := by
  obtain ⟨hpc, -⟩ := loadRegs_fields (popRegs r rlist) a s
  refine regsKept_of_regsKept_PC (regsKept_mono (loadRegs_regsKept (popRegs r rlist) a s) fun q hq => ?_) hpc
  cases r with
  | true => exact hq
  | false => exact List.mem_append_left [PC] (by simpa [popRegs] using hq)

theorem regsKept_execPop {r : Bool} {rlist : BitVec 8} (h : execPop r rlist s = .next t) :
    RegsKept s t (SP :: listedRegs rlist) := by
  cases h
  refine regsKept_trans (regsKept_mono (regsKept_loadRegs_popRegs r rlist (s.readReg SP) s) ?_)
    (regsKept_mono (regsKept_writeReg _ SP _) ?_)
  · exact fun q => List.mem_cons_of_mem SP
  · simp

theorem regsKept_execBlxReg {rs : Reg} (h : execBlxReg rs s = .next t) : RegsKept s t [LR] :=
  regsKept_trans (regsKept_writeReg s LR _) (regsKept_mono (regsKept_branchExchange h) (by simp))

theorem regsKept_longBranchStep2 (imm11 : BitVec 11) (s : State) : RegsKept s (longBranchStep2 imm11 s) [LR] :=
  regsKept_writeReg s LR (longBranchReturn s)

/-! ### The whole instruction set -/

/-- Settles O50: each instruction has the frame of the operation it is made of, and an invalid row answers no state. -/
theorem registerFrameOfEveryInstruction : Obligations.RegisterFrameOfEveryInstruction := by
  intro i s t h
  cases i with
  | lslImm | lsrImm | asrImm | lslReg | lsrReg | asrReg | ror => exact regsKept_shiftResult h
  | addReg | subReg | addImm3 | subImm3 | movImm8 | addImm8 | subImm8
  | and | eor | adc | sbc | neg | orr | mul | bic | mvn => exact regsKept_arithResult h
  | cmpImm8 | tst | cmpReg | cmn | cmpHi => exact regsKept_compareResult h
  | addHi _ rd | movHi _ rd => cases h; exact regsKept_writeReg s rd _
  | bx => exact regsKept_branchExchange h
  | blxReg => exact regsKept_execBlxReg h
  | ldrPc | ldrReg | ldrImm => exact regsKept_loadWord h
  | ldrhReg | ldshReg | ldrhImm => exact regsKept_loadHalf h
  | ldrbReg | ldsbReg | ldrbImm => exact regsKept_loadByte h
  | strReg | strImm => exact regsKept_storeWord h
  | strhReg | strhImm => exact regsKept_storeHalf h
  | strbReg | strbImm => exact regsKept_storeByte h
  | push => exact regsKept_execPush h
  | pop => exact regsKept_execPop h
  | beq | bne | bcs | bcc | bmi | bpl | bvs | bvc | bhi | bls | bge | blt | bgt | ble => exact regsKept_branchIf h
  | blHi imm11 => cases h; exact regsKept_writeReg s LR (longBranchBase s imm11)
  | blLo imm11 | blxLo imm11 => cases h; exact regsKept_longBranchStep2 imm11 s
  | invalid9000 | invalidA000 | invalidB000 | invalidB200 | invalidB600 | invalidC000 | invalidE000
  | invalidCond14 | invalidSwi => cases h

end Sys2Proof.Machine
end

section
/-!
Push and pop of 45_push_pop.md (R150 to R154). The register lists of the meanings are those of the statements, and none
holds SP, so what the stores and loads do to any list (Sys2Proof/Laws/PushPop.lean) is what push and pop do. A pushed word
lies in plain memory, so the pop's read of it depends on the map and memory alone.
-/

namespace Sys2Proof.Machine

/-! ### The moved registers (R150) -/

theorem movedRegs_eq_pushRegs (r : Bool) (rlist : BitVec 8) :
    movedRegs rlist (if r then [LR] else []) = pushRegs r rlist :=
  movedRegs_eq rlist _

theorem movedRegs_eq_popRegs (r : Bool) (rlist : BitVec 8) :
    movedRegs rlist (if r then [PC] else []) = popRegs r rlist :=
  movedRegs_eq rlist _

theorem movedRegs_nil (rlist : BitVec 8) : movedRegs rlist [] = listedRegs rlist :=
  (movedRegs_eq rlist []).trans (List.append_nil _)

theorem SP_not_mem_listedRegs (rlist : BitVec 8) : SP ∉ listedRegs rlist :=
  not_mem_listedRegs rlist SP (by decide)

theorem PC_not_mem_listedRegs (rlist : BitVec 8) : PC ∉ listedRegs rlist :=
  not_mem_listedRegs rlist PC (by decide)

theorem SP_not_mem_pushRegs (r : Bool) (rlist : BitVec 8) : SP ∉ pushRegs r rlist := by
  cases r <;> simp [pushRegs, SP_not_mem_listedRegs]

theorem SP_not_mem_popRegs (r : Bool) (rlist : BitVec 8) : SP ∉ popRegs r rlist := by
  cases r <;> simp [popRegs, SP_not_mem_listedRegs]

theorem low_mem_listedRegs {rlist : BitVec 8} {i : LowReg} (h : rlist.getLsbD i.val = true) :
    low i ∈ listedRegs rlist :=
  (mem_listedRegs rlist (low i)).2 ⟨i.isLt, h⟩

/-- A listed register has one place in the lists of push and pop. -/
theorem getElem?_moved_of_mem_listedRegs {rlist : BitVec 8} {q : Reg} (h : q ∈ listedRegs rlist) (r : Bool) :
    ∃ j : Nat, (pushRegs r rlist)[j]? = some q ∧ (popRegs r rlist)[j]? = some q := by
  obtain ⟨j, hj⟩ := List.mem_iff_getElem?.1 h
  have hlt : j < (listedRegs rlist).length := (List.getElem?_eq_some_iff.1 hj).1
  exact ⟨j, (List.getElem?_append_left hlt).trans hj, (List.getElem?_append_left hlt).trans hj⟩

/-! ### Push (R151, R152) -/

theorem pushBase_eq_sub (s : State) (r : Bool) (rlist : BitVec 8) :
    pushBase s r rlist = s.readReg SP - BitVec.ofNat 32 (4 * (pushRegs r rlist).length) := by
  rw [pushBase, length_pushRegs, BitVec.ofNat_mul]
  rfl

/-- SP is lowered before the stores, and no store is of SP (R152). -/
theorem readReg_writeReg_SP_of_mem_pushRegs {r : Bool} {rlist : BitVec 8} {q : Reg} (h : q ∈ pushRegs r rlist)
    (s : State) (v : Word) : (s.writeReg SP v).readReg q = s.readReg q :=
  State.readReg_writeReg_other s SP q v (ne_of_mem_of_not_mem h (SP_not_mem_pushRegs r rlist))

/-- Settles O40: the stores of the register list, from the state whose SP is lowered. -/
theorem pushStores : Obligations.PushStores := by
  rintro s r rlist _ _ rfl rfl
  rw [movedRegs_eq_pushRegs, ← pushBase_eq_sub]
  obtain ⟨-, hpc, hpending, hflags, ht, -⟩ :=
    storeRegs_fields (pushRegs r rlist) (pushBase s r rlist) (s.writeReg SP (pushBase s r rlist))
  refine ⟨rfl, _, rfl, by simp, regsKept_execPush rfl, by simp [hflags], ⟨?_, ?_, ?_⟩, ?_, ?_, ?_⟩
  · simp [hpc]
  · rw [hpending, State.writeReg_pcPending_stored _ _ _ SP_ne_PC]
  · simp [ht]
  · rw [storeRegs_busOps, State.writeReg_busOps]
    congr 1
    apply List.ext_getElem (by simp)
    intro j _ _
    rw [List.getElem_mapIdx, List.getElem_mapIdx, readReg_writeReg_SP_of_mem_pushRegs (List.getElem_mem _)]
  · exact bytesKeptBut_trans (bytesKept_but (noBus_writeReg s SP _).1 []) (storeRegs_bytesKeptBut _ _ _)
  · intro hwf hwr j q hj
    rw [storeRegs_wordAt _ _ _ (by simpa using hwf) ((writableSpan_congr (by simp) _ _).2 hwr) j q hj,
      readReg_writeReg_SP_of_mem_pushRegs (List.mem_of_getElem? hj)]

/-! ### Pop (R153) -/

/-- The word of register 15 is read last, and goes to the pending PC (R18, R153). -/
theorem loadRegs_popRegs_pcPending (r : Bool) (rlist : BitVec 8) (a : Word) (s : State) :
    (loadRegs (popRegs r rlist) a s).2.pcPending =
      if r then wordRead s a ((popRegs r rlist).length - 1) else s.pcPending := by
  obtain ⟨hkept, hloaded⟩ := loadRegs_pcPending (listedRegs rlist) a s (PC_not_mem_listedRegs rlist)
  cases r with
  | false => simpa [popRegs] using hkept
  | true => simpa [popRegs] using hloaded

/-- Settles O41: the loads of the register list, then the raised SP. -/
theorem popLoads : Obligations.PopLoads := by
  rintro s r rlist _ _ rfl rfl
  rw [movedRegs_eq_popRegs]
  obtain ⟨hpc, hflags, ht, hmap, hmem, hdraw⟩ := loadRegs_fields (popRegs r rlist) (s.readReg SP) s
  refine ⟨fun hplain j hj => wordRead_mem hplain hj, _, rfl, ?_, ?_, ?_, ?_, by simp [hflags], by simp [ht],
    by simp [hpc], bytesKept_of_fields (by simp [hmap]) (by simp [hmem]) (by simp [hdraw]), ?_⟩
  · rw [State.readReg_writeReg_same _ _ _ SP_ne_PC, loadRegs_fst]
  · intro j q hj hq
    rw [State.readReg_writeReg_other _ _ _ _
      (ne_of_mem_of_not_mem (List.mem_of_getElem? hj) (SP_not_mem_popRegs r rlist))]
    exact loadRegs_readReg _ _ s (popRegs_nodup r rlist) j q hj hq
  · rw [State.writeReg_pcPending_stored _ _ _ SP_ne_PC, loadRegs_popRegs_pcPending]
  · rw [movedRegs_nil]
    exact regsKept_execPop rfl
  · rw [State.writeReg_busOps, loadRegs_busOps]

/-! ### The round trip (R154) -/

/-- A word whose bytes have cells of plain memory is a function of the map and memory alone. -/
theorem State.wordAt_of_writableSpan {s t : State} (hmap : t.memMap = s.memMap) (hmem : t.mem = s.mem) {a : Word}
    (h : WritableSpan s a 4) : t.wordAt a = s.wordAt a := by
  have hbyte : ∀ b ∈ span a 4, t.byteAt b = s.byteAt b := fun b hb =>
    let ⟨_, hcell⟩ := cellAt_of_writable (h.1 b hb)
    State.byteAt_cell hmap hmem hcell
  have hplain := external_of_writableSpan h
  rw [State.wordAt_mem hplain, State.wordAt_mem ((State.external_congr hmap a 4).trans hplain)]
  simp [hbyte, span_four]

/-- The word reads of writable bytes return the words that any state with that map and memory holds there. -/
theorem wordRead_of_writableSpan {s t : State} (hmap : t.memMap = s.memMap) (hmem : t.mem = s.mem) {a : Word} {n j : Nat}
    (h : WritableSpan s a (4 * n)) (hj : j < n) : wordRead t a j = s.wordAt (wordAddr a j) := by
  rw [wordRead_mem ((State.external_congr hmap a (4 * n)).trans (external_of_writableSpan h)) hj]
  exact State.wordAt_of_writableSpan hmap hmem (writableSpan_wordAddr n a h j hj)

/-- Settles O42: the pop reads, from the address where the push stored, the words that it stored. -/
theorem pushPopRoundTrip : Obligations.PushPopRoundTrip := by
  intro s r rlist hwf hwr
  obtain ⟨-, t, hpush, htSP, -, -, -, -, ⟨-, htmap, -⟩, hstored⟩ := pushStores s r rlist _ _ rfl rfl
  rw [movedRegs_eq_pushRegs, ← pushBase_eq_sub] at htSP hstored
  rw [← length_pushRegs] at hwr
  refine ⟨t, hpush, fun u humem humap huSP => ?_⟩
  obtain ⟨-, w, hpop, hwSP, hloaded, hpending, -⟩ := popLoads u r rlist _ _ rfl rfl
  rw [movedRegs_eq_popRegs, huSP, htSP] at hloaded hpending hwSP
  have hread : ∀ (j : Nat) (q : Reg), (pushRegs r rlist)[j]? = some q →
      wordRead u (pushBase s r rlist) j = s.readReg q := fun j q hj => by
    rw [wordRead_of_writableSpan humap humem ((writableSpan_congr htmap _ _).2 hwr)
      (List.getElem?_eq_some_iff.1 hj).1]
    exact hstored hwf hwr j q hj
  refine ⟨w, hpop, fun i hi => ?_, fun hr => ?_, ?_⟩
  · obtain ⟨j, hjpush, hjpop⟩ := getElem?_moved_of_mem_listedRegs (low_mem_listedRegs hi) r
    rw [hloaded j (low i) hjpop (low_ne_PC i), hread j (low i) hjpush]
  · subst hr
    rw [hpending, if_pos rfl]
    exact hread _ LR (by simp [pushRegs, popRegs])
  · rw [hwSP, length_popRegs, wordAddr, pushBase_eq_sub, length_pushRegs, BitVec.sub_add_cancel]

end Sys2Proof.Machine
end

section
/-!
Format 16 of 46_branches.md (R155 to R163). A conditional branch is `branchIf` of its condition, so the condition's
formula over the flags alone tells the branches apart.
-/

namespace Sys2Proof.Machine

variable {s : State}

/-- The doubled sign-extended immediate is that of the integers, modulo 2^32 (R155). -/
theorem sext_mul_two {n : Nat} (v : BitVec n) : sext v * 2 = BitVec.ofInt 32 (2 * v.toInt) := by
  rw [mul_comm 2 v.toInt, BitVec.ofInt_mul]
  rfl

theorem setPending_branchTarget (s : State) (imm8 : BitVec 8) :
    s.setPending (branchTarget s imm8) = branched s imm8 := by
  rw [branchTarget, sext_mul_two]
  rfl

/-- A conditional branch whose condition is the formula `P` over the flags (R155). -/
theorem branchIf_of_condPassed_iff {cond : Cond} {P : Prop} [Decidable P] (h : condPassed cond s.flags = true ↔ P)
    (imm8 : BitVec 8) : branchIf cond imm8 s = .next (if P then branched s imm8 else s) := by
  rw [branchIf_next, setPending_branchTarget]
  simp only [h]

/-- A branch on a flag that is set: EQ, CS, MI and VS. -/
theorem branchIf_of_flag_set {cond : Cond} {flag : Bool} (h : condPassed cond s.flags = flag) (imm8 : BitVec 8) :
    branchIf cond imm8 s = .next (if flag = true then branched s imm8 else s) :=
  branchIf_of_condPassed_iff (by rw [h]) imm8

/-- A branch on a flag that is clear: NE, CC, PL and VC. -/
theorem branchIf_of_flag_clear {cond : Cond} {flag : Bool} (h : condPassed cond s.flags = !flag) (imm8 : BitVec 8) :
    branchIf cond imm8 s = .next (if flag = false then branched s imm8 else s) :=
  branchIf_of_condPassed_iff (by rw [h, Bool.not_eq_true']) imm8

/-- Settles O43: each of the eight conditions is a flag or its negation. -/
theorem branchesOnOneFlag : Obligations.BranchesOnOneFlag := fun _ imm8 =>
  ⟨branchIf_of_flag_set rfl imm8, branchIf_of_flag_clear rfl imm8, branchIf_of_flag_set rfl imm8,
    branchIf_of_flag_clear rfl imm8, branchIf_of_flag_set rfl imm8, branchIf_of_flag_clear rfl imm8,
    branchIf_of_flag_set rfl imm8, branchIf_of_flag_clear rfl imm8⟩

end Sys2Proof.Machine
end

section
/-!
The words that raise the invalid-opcode signal (60_exceptions.md R181). A word of no format decodes to an invalid row,
a word of Format 16 does so when the upper three bits of its condition are set, and no other format has an invalid row.
-/

namespace Sys2Proof

theorem isInvalidRow_decodeNoFormat (w : Half) : (decodeNoFormat w).isInvalidRow = true := by
  unfold decodeNoFormat
  split_ifs <;> rfl

/-- No layout but that of Format 16 has an invalid row (R62 to R74). -/
theorem Format.isInvalidRow_decoder_of_ne_f16 {f : Format} (h : f ≠ .f16) (w : Half) :
    (f.decoder w).isInvalidRow = false := by
  cases f with
  | f16 => exact absurd rfl h
  | f6 | f19a => rfl
  | f4 => simp only [Format.decoder, decodeF4]; split <;> rfl
  | f1 | f2 | f3 | f5 | f7 | f8 | f9 | f10 | f14 | f19b =>
    simp only [Format.decoder, decodeF1, decodeF2, decodeF3, decodeF5, decodeF7, decodeF8, decodeF9, decodeF10,
      decodeF14, decodeF19b]
    split_ifs <;> rfl

/-- The invalid conditions of Format 16 are 14 and 15 (R171, R172). -/
theorem isInvalidRow_decodeF16_iff (w : Half) :
    (decodeF16 w).isInvalidRow = true ↔ 14 ≤ (field w 8 4).toNat := by
  unfold decodeF16
  split
  case h_16 => simp only [imp_false, Instr.isInvalidRow, true_iff] at *; omega
  all_goals simp [Instr.isInvalidRow, *]

/-- A condition of Format 16 is 14 or 15 if and only if its upper three bits are set. -/
theorem fourteen_le_cond_iff (w : Half) : 14 ≤ (field w 8 4).toNat ↔ field w 9 3 = 0b111 := by
  have hbits : ∀ c : BitVec 4, 14 ≤ c.toNat ↔ c.extractLsb' 1 3 = 0b111 := by decide
  rw [hbits, extractLsb'_field w 8 4 1 3 (by decide)]

/-- R181's mask and match are those of Format 16 with an invalid condition. -/
theorem f16_admits_and_invalid_cond_iff (w : Half) :
    Format.f16.admits w = true ∧ (decodeF16 w).isInvalidRow = true ↔ w &&& 0xFE00 = 0xDE00 := by
  rw [isInvalidRow_decodeF16_iff, fourteen_le_cond_iff, Format.admits, beq_iff_eq]
  exact fields_eq_iff_and w 0b1101 0b111 (by decide) (by decide)

/-- The words of the invalid rows: those of no format and `0xDExx`, `0xDFxx` (R181). -/
theorem isInvalidRow_decodeWord_iff (w : Half) :
    (decodeWord w).isInvalidRow = true ↔ classify w = none ∨ w &&& 0xFE00 = 0xDE00 := by
  rw [← f16_admits_and_invalid_cond_iff]
  cases h : classify w with
  | none => simp [decodeWord_of_classify_none h, isInvalidRow_decodeNoFormat]
  | some f =>
    have hf : f.admits w = true := classify_eq_some_iff.1 h
    rw [decodeWord_of_admits hf]
    obtain rfl | h16 := eq_or_ne f .f16
    · simp [hf, Format.decoder]
    · have hnot : ¬ Format.f16.admits w = true := fun h' => h16 (Format.eq_of_admits hf h')
      simp [hnot, Format.isInvalidRow_decoder_of_ne_f16 h16]

end Sys2Proof

namespace Sys2Proof.Machine

/-- Settles O9: the words named are those that decode to an invalid row, and an invalid row raises the signal with the
word that decoded to it while every other row completes. -/
theorem raisesExactlyInvalidWords : Obligations.RaisesExactlyInvalidWords := by
  intro w s
  rw [← isInvalidRow_decodeWord_iff]
  refine ⟨fun h => ?_, fun h => exec_next_of_not_isInvalidRow (Bool.eq_false_of_not_eq_true h) s⟩
  obtain ⟨reason, hfault⟩ := exec_fault_of_isInvalidRow h s
  rw [encode_decodeWord_of_isInvalidRow h] at hfault
  exact ⟨reason, hfault⟩

end Sys2Proof.Machine
end

section
/-!
What any instruction does to memory, to the bus and to `pc_read` (10_state.md, section 2; 20_memory.md, sections 5 and 6).
One relation says it for every row: the bytes stored, the requests made with the devices' steps, the canonical form of
memory kept, `pc_read` kept. The frame on memory, the bus table of R46 and the invariant of every step follow from it.
-/

namespace Sys2Proof.Machine

variable {s t u : State}

/-! ### The relation -/

/-- From `s` to `t` the bytes `stored` were written and the requests `ops` made, and nothing else happened to memory, to
the bus or to `pc_read`. -/
structure BusEffect (s t : State) (stored : List Word) (ops : List BusOp) : Prop where
  pcRead : t.pcRead = s.pcRead
  memWf : s.mem.wf = true → t.mem.wf = true
  bytes : BytesKeptBut s t stored
  busOps : t.busOps = s.busOps ++ ops
  busState : t.busState = busStateAfter s ops

theorem busStateAfter_append (s : State) (ops ops' : List BusOp) :
    busStateAfter s (ops ++ ops') = busStateAfter { s with busState := busStateAfter s ops } ops' :=
  List.foldl_append

theorem BusEffect.trans {l m : List Word} {ops ops' : List BusOp} (h : BusEffect s t l ops) (k : BusEffect t u m ops') :
    BusEffect s u (l ++ m) (ops ++ ops') where
  pcRead := k.pcRead.trans h.pcRead
  memWf := k.memWf ∘ h.memWf
  bytes := bytesKeptBut_trans h.bytes k.bytes
  busOps := by rw [k.busOps, h.busOps, List.append_assoc]
  busState := by
    obtain ⟨-, hmap, -⟩ := h.bytes
    rw [busStateAfter_append, k.busState]
    exact busStateAfter_congr (s := { s with busState := busStateAfter s ops }) hmap h.busState ops'

/-- An update of registers, flags, T or `pc_pending` does nothing to memory or the bus. -/
theorem busEffect_of_fields (hpc : t.pcRead = s.pcRead) (hmap : t.memMap = s.memMap) (hmem : t.mem = s.mem)
    (hdraw : t.draw = s.draw) (hops : t.busOps = s.busOps) (hbus : t.busState = s.busState) : BusEffect s t [] [] where
  pcRead := hpc
  memWf h := hmem ▸ h
  bytes := bytesKept_but (bytesKept_of_fields hmap hmem hdraw) []
  busOps := by rw [hops, List.append_nil]
  busState := hbus

theorem busEffect_writeReg (s : State) (r : Reg) (v : Word) : BusEffect s (s.writeReg r v) [] [] :=
  busEffect_of_fields (by simp) (by simp) (by simp) (by simp) (by simp) (by simp)

theorem busEffect_setFlags (s : State) (f : Flags) : BusEffect s (s.setFlags f) [] [] :=
  busEffect_of_fields rfl rfl rfl rfl rfl rfl

theorem busEffect_setPending (s : State) (a : Word) : BusEffect s (s.setPending a) [] [] :=
  busEffect_of_fields rfl rfl rfl rfl rfl rfl

theorem busEffect_setT (s : State) (b : Bool) : BusEffect s (s.setT b) [] [] :=
  busEffect_of_fields rfl rfl rfl rfl rfl rfl

/-- A request alone: the record and the devices' step. -/
theorem busEffect_request (s : State) (op : BusOp) : BusEffect s (s.request op) [] [op] where
  pcRead := rfl
  memWf h := h
  bytes := bytesKept_but (bytesKept_of_fields (s := s) (t := s.request op) rfl rfl rfl) []
  busOps := rfl
  busState := rfl

/-! ### The shared operations -/

theorem busEffect_arithResult {rd : LowReg} {p : Word × Flags} (h : arithResult s rd p = .next t) :
    BusEffect s t [] [] := by
  cases h
  exact (busEffect_setFlags s p.2).trans (busEffect_writeReg _ (low rd) p.1)

theorem busEffect_shiftResult {rd : LowReg} {p : Word × Bool} (h : shiftResult s rd p = .next t) :
    BusEffect s t [] [] := by
  cases h
  exact (busEffect_setFlags s _).trans (busEffect_writeReg _ (low rd) p.1)

theorem busEffect_compareResult {p : Word × Flags} (h : compareResult s p = .next t) : BusEffect s t [] [] := by
  cases h
  exact busEffect_setFlags s p.2

theorem busEffect_branchIf {cond : Cond} {imm8 : BitVec 8} (h : branchIf cond imm8 s = .next t) :
    BusEffect s t [] [] := by
  rw [branchIf_next] at h
  cases h
  split
  · exact busEffect_setPending s _
  · exact busEffect_of_fields rfl rfl rfl rfl rfl rfl

theorem busEffect_branchExchange {v : Word} (h : branchExchange s v = .next t) : BusEffect s t [] [] := by
  rw [branchExchange_next] at h
  cases h
  split
  · exact busEffect_setPending s v
  · exact (busEffect_setT s false).trans (busEffect_setPending _ _)

theorem busEffect_longBranchStep2 (imm11 : BitVec 11) (s : State) : BusEffect s (longBranchStep2 imm11 s) [] [] :=
  (busEffect_writeReg s LR _).trans (busEffect_setPending _ _)

theorem busEffect_loadWord {rd : LowReg} {ea : Word} (h : loadWord s rd ea = .next t) :
    BusEffect s t [] [.readWord ea (s.wordAt ea)] := by
  cases h
  exact (busEffect_request s _).trans (busEffect_writeReg _ (low rd) _)

theorem busEffect_loadHalf {widen : Half → Word} {rd : LowReg} {ea : Word} (h : loadHalf widen s rd ea = .next t) :
    BusEffect s t [] [.readHalf ea (s.halfAt ea)] := by
  cases h
  exact (busEffect_request s _).trans (busEffect_writeReg _ (low rd) _)

theorem busEffect_loadByte {widen : Byte → Word} {rd : LowReg} {ea : Word} (h : loadByte widen s rd ea = .next t) :
    BusEffect s t [] [.readByte ea (s.byteAt ea)] := by
  cases h
  exact (busEffect_request s _).trans (busEffect_writeReg _ (low rd) _)

theorem busEffect_storeWord {rd : LowReg} {ea : Word} (h : storeWord s rd ea = .next t) :
    BusEffect s t (span ea 4) [.writeWord ea (s.readReg (low rd))] := by
  cases h
  exact ⟨by simp [State.memWriteWord_eq], State.putWord_mem_wf s ea _, bytesKeptBut_memWriteWord s ea _,
    by simp [State.memWriteWord_eq], by simp [State.memWriteWord_eq, busStateAfter_one]⟩

theorem busEffect_storeHalf {rd : LowReg} {ea : Word} (h : storeHalf s rd ea = .next t) :
    BusEffect s t (span ea 2) [.writeHalf ea ((s.readReg (low rd)).extractLsb' 0 16)] := by
  cases h
  exact ⟨by simp [State.memWriteHalf_eq], State.putHalf_mem_wf s ea _, bytesKeptBut_memWriteHalf s ea _,
    by simp [State.memWriteHalf_eq], by simp [State.memWriteHalf_eq, busStateAfter_one]⟩

theorem busEffect_storeByte {rd : LowReg} {ea : Word} (h : storeByte s rd ea = .next t) :
    BusEffect s t (span ea 1) [.writeByte ea ((s.readReg (low rd)).extractLsb' 0 8)] := by
  cases h
  exact ⟨by simp [State.memWriteByte_eq], State.putByte_mem_wf s ea _, bytesKeptBut_memWriteByte s ea _,
    by simp [State.memWriteByte_eq], by simp [State.memWriteByte_eq, busStateAfter_one]⟩

/-! ### Push and pop -/

theorem busEffect_storeRegs (l : List Reg) (a : Word) (s : State) :
    BusEffect s (storeRegs l a s) (span a (4 * l.length))
      (l.mapIdx fun j q => BusOp.writeWord (wordAddr a j) (s.readReg q)) := by
  obtain ⟨-, hpc, -⟩ := storeRegs_fields l a s
  exact ⟨hpc, storeRegs_mem_wf l a s, storeRegs_bytesKeptBut l a s, storeRegs_busOps l a s, storeRegs_busState l a s⟩

theorem busEffect_loadRegs (l : List Reg) (a : Word) (s : State) :
    BusEffect s (loadRegs l a s).2 [] (l.mapIdx fun j _ => BusOp.readWord (wordAddr a j) (wordRead s a j)) := by
  obtain ⟨hpc, -, -, hmap, hmem, hdraw⟩ := loadRegs_fields l a s
  exact ⟨hpc, fun h => hmem ▸ h, bytesKept_but (bytesKept_of_fields hmap hmem hdraw) [], loadRegs_busOps l a s,
    loadRegs_busState l a s⟩

/-- Requests of one kind, one for each register. -/
theorem map_of_mapIdx_eq_replicate {l : List Reg} {request : Nat → Reg → BusOp} {kind : BusKind}
    (h : ∀ j q, BusKind.of (request j q) = kind) :
    (l.mapIdx request).map BusKind.of = List.replicate l.length kind := by
  refine List.eq_replicate_iff.2 ⟨by simp, fun k hk => ?_⟩
  obtain ⟨op, hop, rfl⟩ := List.mem_map.1 hk
  obtain ⟨j, hj, rfl⟩ := List.mem_mapIdx.1 hop
  exact h j _

theorem busEffect_execPush {r : Bool} {rlist : BitVec 8} (h : execPush r rlist s = .next t) :
    ∃ ops, BusEffect s t (span (pushBase s r rlist) (4 * transferCount r rlist)) ops ∧
      ops.map BusKind.of = List.replicate (transferCount r rlist) .writeWord := by
  cases h
  rw [← length_pushRegs]
  exact ⟨_, (busEffect_writeReg s SP _).trans (busEffect_storeRegs _ _ _), map_of_mapIdx_eq_replicate fun _ _ => rfl⟩

theorem busEffect_execPop {r : Bool} {rlist : BitVec 8} (h : execPop r rlist s = .next t) :
    ∃ ops, BusEffect s t [] ops ∧ ops.map BusKind.of = List.replicate (transferCount r rlist) .readWord := by
  cases h
  rw [← length_popRegs]
  refine ⟨_, (busEffect_loadRegs _ _ s).trans (busEffect_writeReg _ SP _), ?_⟩
  rw [List.append_nil]
  exact map_of_mapIdx_eq_replicate fun _ _ => rfl

/-! ### The whole instruction set -/

/-- Every instruction stores the bytes of `storedBytes` alone and makes the requests of R46's table. -/
theorem busEffect_exec {i : Instr} (h : exec i s = .next t) :
    ∃ ops, BusEffect s t (storedBytes s i) ops ∧ ops.map BusKind.of = busKinds i := by
  cases i with
  | lslImm | lsrImm | asrImm | lslReg | lsrReg | asrReg | ror => exact ⟨[], busEffect_shiftResult h, rfl⟩
  | addReg | subReg | addImm3 | subImm3 | movImm8 | addImm8 | subImm8
  | and | eor | adc | sbc | neg | orr | mul | bic | mvn => exact ⟨[], busEffect_arithResult h, rfl⟩
  | cmpImm8 | tst | cmpReg | cmn | cmpHi => exact ⟨[], busEffect_compareResult h, rfl⟩
  | addHi _ rd | movHi _ rd => cases h; exact ⟨[], busEffect_writeReg s rd _, rfl⟩
  | bx => exact ⟨[], busEffect_branchExchange h, rfl⟩
  | blxReg => exact ⟨[], (busEffect_writeReg s LR _).trans (busEffect_branchExchange h), rfl⟩
  | ldrPc | ldrReg | ldrImm => exact ⟨_, busEffect_loadWord h, rfl⟩
  | ldrhReg | ldshReg | ldrhImm => exact ⟨_, busEffect_loadHalf h, rfl⟩
  | ldrbReg | ldsbReg | ldrbImm => exact ⟨_, busEffect_loadByte h, rfl⟩
  | strReg | strImm => exact ⟨_, busEffect_storeWord h, rfl⟩
  | strhReg | strhImm => exact ⟨_, busEffect_storeHalf h, rfl⟩
  | strbReg | strbImm => exact ⟨_, busEffect_storeByte h, rfl⟩
  | push => exact busEffect_execPush h
  | pop => exact busEffect_execPop h
  | beq | bne | bcs | bcc | bmi | bpl | bvs | bvc | bhi | bls | bge | blt | bgt | ble =>
    exact ⟨[], busEffect_branchIf h, rfl⟩
  | blHi => cases h; exact ⟨[], busEffect_writeReg s LR _, rfl⟩
  | blLo imm11 => cases h; exact ⟨[], busEffect_longBranchStep2 imm11 s, rfl⟩
  | blxLo imm11 =>
    cases h
    exact ⟨[], (busEffect_longBranchStep2 imm11 s).trans (busEffect_setT _ false), rfl⟩
  | invalid9000 | invalidA000 | invalidB000 | invalidB200 | invalidB600 | invalidC000 | invalidE000
  | invalidCond14 | invalidSwi => cases h

/-- Push and pop move at most the eight low registers and the ninth (R150). -/
theorem transferCount_le_nine (r : Bool) (rlist : BitVec 8) : transferCount r rlist ≤ 9 := by
  have hlow : popcount rlist ≤ 8 := length_listedRegs rlist ▸ List.length_filter_le _ _
  have hninth : r.toNat ≤ 1 := Bool.toNat_le r
  exact Nat.add_le_add hlow hninth

theorem length_busKinds_le_nine (i : Instr) : (busKinds i).length ≤ 9 := by
  cases i with
  | push r rlist | pop r rlist => simpa [busKinds] using transferCount_le_nine r rlist
  | _ => simp [busKinds]

theorem length_le_nine_of_busKinds {i : Instr} {ops : List BusOp} (h : ops.map BusKind.of = busKinds i) :
    ops.length ≤ 9 := by
  rw [← List.length_map (f := BusKind.of), h]
  exact length_busKinds_le_nine i

/-- Settles O51: the bytes part of every instruction's effect. -/
theorem memoryFrameOfEveryInstruction : Obligations.MemoryFrameOfEveryInstruction := by
  intro i s t h
  obtain ⟨ops, heffect, -⟩ := busEffect_exec h
  exact heffect.bytes

/-- Settles O52: the requests of every instruction's effect, at most nine because push and pop move at most nine
registers. -/
theorem busRequestsOfEveryInstruction : Obligations.BusRequestsOfEveryInstruction := by
  intro i s t h
  obtain ⟨ops, heffect, hkinds⟩ := busEffect_exec h
  exact ⟨ops, heffect.busOps, hkinds, length_le_nine_of_busKinds hkinds, heffect.busState⟩

/-! ### The invariant -/

/-- A step that completes found T = 1 and ran the fetched instruction. -/
theorem exec_of_step_next (h : step s = .next t) : exec (decodeWord s.fetchWord) s.beginStep = .next t := by
  cases ht : s.t with
  | true => rw [← step_eq_exec_of_t ht, h]
  | false => rw [step, fetchStep, ht] at h; cases h

/-- The sum of two even words is even, also where it wraps. -/
theorem getLsbD_zero_add {a b : Word} (ha : a.getLsbD 0 = false) (hb : b.getLsbD 0 = false) :
    (a + b).getLsbD 0 = false := by
  rw [BitVec.getLsbD_add (by decide), ha, hb, BitVec.carry_zero]
  rfl

/-- Settles O53: the fetch loop makes `pc_read` even and drops the old requests, and the instruction's effect keeps
memory's form and `pc_read` and makes at most nine requests. -/
theorem stepKeepsInvariant : Obligations.StepKeepsInvariant := by
  intro s t hinv h
  obtain ⟨ops, heffect, hkinds⟩ := busEffect_exec (exec_of_step_next h)
  refine ⟨heffect.memWf hinv.mem, ?_, ?_⟩
  · rw [heffect.pcRead]
    exact getLsbD_zero_add s.fetchAddr_getLsbD_zero rfl
  · rw [heffect.busOps, State.beginStep_busOps, List.nil_append]
    exact length_le_nine_of_busKinds hkinds

/-- Settles O54: an empty list of requests, and `pc_read` four above an even `ENTRY`. -/
theorem invariantAtReset : Obligations.InvariantAtReset := by
  refine ⟨⟨State.reset_mem_wf, by decide, by decide⟩, ?_⟩
  exact fun regs flags entry memMap mem bus heven hwf => ⟨hwf, getLsbD_zero_add heven rfl, Nat.zero_le 9⟩

end Sys2Proof.Machine
end

section
/-!
What any instruction does to `pc_pending` and T (10_state.md R16, R17, R26). Outside the closed list of R178 each shared
operation keeps both; of the closed list only branch-exchange and the exchange variant of the long branch write T, and
they clear it.
-/

namespace Sys2Proof.Machine

variable {s t : State}

/-! ### The shared operations -/

theorem flowKept_of_onlyRegs {dst : List Reg} (h : OnlyRegs s t dst) : FlowKept s t := by
  obtain ⟨-, hflow, -⟩ := h
  exact hflow

theorem flowKept_of_loadsAs {rd : LowReg} {op : BusOp} {v : Word} (h : LoadsAs s t rd op v) : FlowKept s t := by
  obtain ⟨-, -, -, -, hflow, -⟩ := h
  exact hflow

theorem flowKept_of_storesAs {ea : Word} {n : Nat} {op : BusOp} (h : StoresAs s t ea n op) : FlowKept s t := by
  obtain ⟨-, -, -, hflow, -⟩ := h
  exact hflow

theorem flowKept_arithResult {rd : LowReg} {p : Word × Flags} (h : arithResult s rd p = .next t) : FlowKept s t := by
  obtain ⟨-, -, hframe⟩ := of_eq_next (arithResult_next s rd p) h
  exact flowKept_of_onlyRegs hframe

theorem flowKept_shiftResult {rd : LowReg} {p : Word × Bool} (h : shiftResult s rd p = .next t) : FlowKept s t := by
  obtain ⟨-, -, -, -, hframe⟩ := of_eq_next (shiftResult_next s rd p) h
  exact flowKept_of_onlyRegs hframe

theorem flowKept_compareResult {p : Word × Flags} (h : compareResult s p = .next t) : FlowKept s t := by
  obtain ⟨-, hframe⟩ := of_eq_next (compareResult_next s p) h
  exact flowKept_of_onlyRegs hframe

theorem flowKept_loadWord {rd : LowReg} {ea : Word} (h : loadWord s rd ea = .next t) : FlowKept s t :=
  flowKept_of_loadsAs (of_eq_next (loadWord_next s rd ea) h).1

theorem flowKept_loadHalf {widen : Half → Word} {rd : LowReg} {ea : Word} (h : loadHalf widen s rd ea = .next t) :
    FlowKept s t :=
  flowKept_of_loadsAs (of_eq_next (loadHalf_next widen s rd ea) h).1

theorem flowKept_loadByte {widen : Byte → Word} {rd : LowReg} {ea : Word} (h : loadByte widen s rd ea = .next t) :
    FlowKept s t :=
  flowKept_of_loadsAs (of_eq_next (loadByte_next widen s rd ea) h).1

theorem flowKept_storeWord {rd : LowReg} {ea : Word} (h : storeWord s rd ea = .next t) : FlowKept s t :=
  flowKept_of_storesAs (of_eq_next (storeWord_next s rd ea) h).1

theorem flowKept_storeHalf {rd : LowReg} {ea : Word} (h : storeHalf s rd ea = .next t) : FlowKept s t :=
  flowKept_of_storesAs (of_eq_next (storeHalf_next s rd ea) h).1

theorem flowKept_storeByte {rd : LowReg} {ea : Word} (h : storeByte s rd ea = .next t) : FlowKept s t :=
  flowKept_of_storesAs (of_eq_next (storeByte_next s rd ea) h).1

/-- A write of a stored register is no write of `pc_pending` (R18). -/
theorem flowKept_writeReg (s : State) {r : Reg} (v : Word) (h : r ≠ PC) : FlowKept s (s.writeReg r v) :=
  flowKept_of_onlyRegs (onlyRegs_writeReg s r v h)

theorem flowKept_execPush {r : Bool} {rlist : BitVec 8} (h : execPush r rlist s = .next t) : FlowKept s t := by
  obtain ⟨-, hpush⟩ := pushStores s r rlist _ _ rfl rfl
  obtain ⟨-, -, -, hflow, -⟩ := of_eq_next hpush h
  exact hflow

/-- A pop keeps T; without `R` it keeps `pc_pending` (R153). -/
theorem flow_execPop {r : Bool} {rlist : BitVec 8} (h : execPop r rlist s = .next t) :
    t.t = s.t ∧ (r = false → FlowKept s t) := by
  obtain ⟨-, hpop⟩ := popLoads s r rlist _ _ rfl rfl
  obtain ⟨-, -, hpending, -, -, ht, hpc, -⟩ := of_eq_next hpop h
  refine ⟨ht, fun hr => ⟨hpc, ?_, ht⟩⟩
  rw [hpending, hr]
  rfl

theorem t_of_branchIf {cond : Cond} {imm8 : BitVec 8} (h : branchIf cond imm8 s = .next t) : t.t = s.t := by
  rw [branchIf_next] at h
  cases h
  split <;> rfl

/-- Branch-exchange keeps T or clears it (R131). -/
theorem t_of_branchExchange {v : Word} (h : branchExchange s v = .next t) : t.t = s.t ∨ t.t = false := by
  rw [branchExchange_next] at h
  cases h
  split
  · exact .inl rfl
  · exact .inr rfl

/-! ### The whole instruction set -/

/-- An instruction outside the closed list keeps `pc_pending` and T. -/
theorem flowKept_of_not_mayWritePending {i : Instr} (h : exec i s = .next t) (hi : mayWritePending i = false) :
    FlowKept s t := by
  cases i with
  | lslImm | lsrImm | asrImm | lslReg | lsrReg | asrReg | ror => exact flowKept_shiftResult h
  | addReg | subReg | addImm3 | subImm3 | movImm8 | addImm8 | subImm8
  | and | eor | adc | sbc | neg | orr | mul | bic | mvn => exact flowKept_arithResult h
  | cmpImm8 | tst | cmpReg | cmn | cmpHi => exact flowKept_compareResult h
  | addHi | movHi => cases h; exact flowKept_writeReg s _ (beq_eq_false_iff_ne.1 hi)
  | ldrPc | ldrReg | ldrImm => exact flowKept_loadWord h
  | ldrhReg | ldshReg | ldrhImm => exact flowKept_loadHalf h
  | ldrbReg | ldsbReg | ldrbImm => exact flowKept_loadByte h
  | strReg | strImm => exact flowKept_storeWord h
  | strhReg | strhImm => exact flowKept_storeHalf h
  | strbReg | strbImm => exact flowKept_storeByte h
  | push => exact flowKept_execPush h
  | pop => exact (flow_execPop h).2 hi
  | blHi => cases h; exact flowKept_writeReg s _ LR_ne_PC
  | bx | blxReg | blLo | blxLo
  | beq | bne | bcs | bcc | bmi | bpl | bvs | bvc | bhi | bls | bge | blt | bgt | ble => cases hi
  | invalid9000 | invalidA000 | invalidB000 | invalidB200 | invalidB600 | invalidC000 | invalidE000
  | invalidCond14 | invalidSwi => cases h

/-- Settles O49: `pc_read` is kept by every instruction's effect, and `pc_pending` outside the closed list. -/
theorem pendingPcWriters : Obligations.PendingPcWriters := by
  intro i s t h
  obtain ⟨ops, heffect, -⟩ := busEffect_exec h
  exact ⟨heffect.pcRead, fun hi => (flowKept_of_not_mayWritePending h hi).2.1⟩

/-- An instruction keeps T, or is of R26's list and clears it. -/
theorem t_of_exec {i : Instr} (h : exec i s = .next t) :
    t.t = s.t ∨
      t.t = false ∧ ((∃ rs g, i = .bx rs g) ∨ (∃ rs g, i = .blxReg rs g) ∨ ∃ imm11, i = .blxLo imm11) := by
  cases i with
  | bx rs g => exact (t_of_branchExchange h).imp_right fun hclear => ⟨hclear, .inl ⟨rs, g, rfl⟩⟩
  | blxReg rs g =>
    obtain hkeep | hclear := t_of_branchExchange h
    · exact .inl (hkeep.trans (State.writeReg_t s LR _))
    · exact .inr ⟨hclear, .inr (.inl ⟨rs, g, rfl⟩)⟩
  | blxLo imm11 => cases h; exact .inr ⟨rfl, .inr (.inr ⟨imm11, rfl⟩)⟩
  | blLo => cases h; exact .inl (State.writeReg_t s LR (longBranchReturn s))
  | addHi | movHi => cases h; exact .inl (State.writeReg_t s _ _)
  | pop => exact .inl (flow_execPop h).1
  | beq | bne | bcs | bcc | bmi | bpl | bvs | bvc | bhi | bls | bge | blt | bgt | ble => exact .inl (t_of_branchIf h)
  | _ => exact .inl (flowKept_of_not_mayWritePending h rfl).2.2

/-- The loop does not fetch at T = 0 (R35). -/
theorem step_eq_refused_of_not_t (h : s.t = false) : step s = .refused .leftCompactMode :=
  if_neg (Bool.eq_false_iff.1 h)

/-- Settles O48: an instruction that does not keep T is of R26's list and clears it, and the next turn stops there. -/
theorem modeBitOnlyCleared : Obligations.ModeBitOnlyCleared := by
  intro i s t h hchange
  obtain hkeep | ⟨hclear, hlist⟩ := t_of_exec h
  · exact absurd hkeep hchange
  · exact ⟨hclear, hlist, step_eq_refused_of_not_t hclear⟩

end Sys2Proof.Machine
end

section
/-!
The flag set of subtraction (40_flag_unit.md R88), the whole shifter (R90 to R93) and the conditions' truth table (R94,
R170). C of `SubFlags` is the literal comparison with the subtrahend, V that of `setVSub`.
-/

namespace Sys2Proof.Machine

variable (f : Flags) (a b : Word)

theorem cvOfSub_subFlags : CVofSub (subFlags f a b).2 a b := by
  refine ⟨rfl, ?_⟩
  rw [Bool.eq_iff_iff, decide_eq_true_iff, subFlags_v, Flags.setVSub_v_sub_iff]

theorem nzOf_subFlags : NZof (subFlags f a b).2 (a - b) :=
  nzOf_setNZ _ _

theorem subFlags_c_iff_toNat : (subFlags f a b).2.c = true ↔ (a - b).toNat < b.toNat :=
  decide_eq_true_iff

/-- Settles O22: the difference plus the subtrahend is the source, and R88's cases are cases of the comparison. -/
theorem subtractionFlagSet : Obligations.SubtractionFlagSet := by
  refine ⟨fun f a b => ⟨?_, cvOfSub_subFlags f a b, nzOf_subFlags f a b⟩, fun f a => ⟨?_, ?_⟩, fun f => ?_⟩
  · rw [addFlags_fst, subFlags_fst, BitVec.sub_add_cancel]
  · rw [Bool.eq_false_iff, ne_eq, subFlags_c_iff_toNat]
    exact Nat.not_lt_zero _
  · rw [subFlags_c_iff_toNat, BitVec.sub_self, ne_eq, BitVec.toNat_eq]
    exact Nat.pos_iff_ne_zero
  · refine ⟨?_, ?_, ?_⟩ <;> rfl

/-- Settles O24: the bits and carry-outs of the four shifts. -/
theorem shifterBits : Obligations.ShifterBits := fun v n c =>
  ⟨⟨isLsl_lslC v n c, lslC_snd v n c⟩, fun _ => ⟨isLsr_lsrC v n, lsrC_snd v n⟩,
    fun _ => ⟨isAsr_asrC v n, asrC_snd v n⟩, isRor_rorC v n c, rorC_snd v n c⟩

/-- Settles O25: row by row of R170's table. -/
theorem conditionTruthTable : Obligations.ConditionTruthTable := by
  rintro cond ⟨n, z, c, v⟩
  cases cond with
  | eq | ne | cs | cc | mi | pl | vs | vc | hi | ls | ge | lt | gt | le => revert n z c v; decide

end Sys2Proof.Machine
end

section
/-!
The additions, subtractions and compares of Formats 2 to 5 and the rest of Format 4 (41_shift_addsub_imm.md,
42_alu_register.md, 43_hi_register_bx.md R129). Each is one of the shared results with the flag set of its operands.
-/

namespace Sys2Proof.Machine

/-! ### Addition and subtraction (R100 to R103, R106, R107) -/

/-- A result with N and Z of its own: C and V are those of the flags it is written with. -/
theorem arithResult_setNZ_next (s : State) (rd : LowReg) (g : Flags) (v : Word) :
    ∃ t, arithResult s rd (v, g.setNZ v) = .next t ∧ t.readReg (low rd) = v ∧ t.flags.c = g.c ∧ t.flags.v = g.v ∧
      NZof t.flags (t.readReg (low rd)) ∧ OnlyRegs s t [low rd] := by
  obtain ⟨t, hnext, hres, hflags, hframe⟩ := arithResult_next s rd (v, g.setNZ v)
  refine ⟨t, hnext, hres, by rw [hflags]; rfl, by rw [hflags]; rfl, ?_, hframe⟩
  rw [hres, hflags]
  exact nzOf_setNZ g v

/-- A result with C and V of a sum: the sum itself, or ADC's, which adds the carry (R87, R115). -/
theorem arithResult_cvOfAdd_next (s : State) (rd : LowReg) {g : Flags} {a b : Word} (hcv : CVofAdd g a b) (v : Word) :
    ∃ t, arithResult s rd (v, g.setNZ v) = .next t ∧ t.readReg (low rd) = v ∧ CVofAdd t.flags a b ∧
      NZof t.flags (t.readReg (low rd)) ∧ OnlyRegs s t [low rd] := by
  obtain ⟨t, hnext, hres, hc, hv, hframe⟩ := arithResult_setNZ_next s rd g v
  exact ⟨t, hnext, hres, (cvOfAdd_congr a b hc hv).2 hcv, hframe⟩

/-- A result with C and V of a difference: the difference itself, or SBC's, which subtracts the carry (R88, R116). -/
theorem arithResult_cvOfSub_next (s : State) (rd : LowReg) {g : Flags} {a b : Word} (hcv : CVofSub g a b) (v : Word) :
    ∃ t, arithResult s rd (v, g.setNZ v) = .next t ∧ t.readReg (low rd) = v ∧ CVofSub t.flags a b ∧
      NZof t.flags (t.readReg (low rd)) ∧ OnlyRegs s t [low rd] := by
  obtain ⟨t, hnext, hres, hc, hv, hframe⟩ := arithResult_setNZ_next s rd g v
  exact ⟨t, hnext, hres, (cvOfSub_congr a b hc hv).2 hcv, hframe⟩

theorem zext_eq_ofNat {n : Nat} (v : BitVec n) : zext v = BitVec.ofNat 32 v.toNat :=
  (BitVec.ofNat_toNat 32 v).symm

/-- Settles O27: each row is the sum or the difference of its operands, with N and Z of it set last. -/
theorem addSubResults : Obligations.AddSubResults := by
  intro s rn rs rd imm3 imm8
  simp only [← zext_eq_ofNat]
  refine ⟨?_, ?_, ?_, ?_, ?_, ?_⟩
  · exact arithResult_cvOfAdd_next s rd (cvOfAdd_addFlags s.flags _ _) (s.readReg (low rs) + s.readReg (low rn))
  · exact arithResult_cvOfSub_next s rd (cvOfSub_subFlags s.flags _ _) (s.readReg (low rs) - s.readReg (low rn))
  · exact arithResult_cvOfAdd_next s rd (cvOfAdd_addFlags s.flags _ _) (s.readReg (low rs) + zext imm3)
  · exact arithResult_cvOfSub_next s rd (cvOfSub_subFlags s.flags _ _) (s.readReg (low rs) - zext imm3)
  · exact arithResult_cvOfAdd_next s rd (cvOfAdd_addFlags s.flags _ _) (s.readReg (low rd) + zext imm8)
  · exact arithResult_cvOfSub_next s rd (cvOfSub_subFlags s.flags _ _) (s.readReg (low rd) - zext imm8)

/-! ### The compares (R105, R118, R120, R121, R129) -/

theorem compareResult_addFlags_next (s : State) (a b : Word) :
    ∃ t, compareResult s (addFlags s.flags a b) = .next t ∧ CVofAdd t.flags a b ∧ NZof t.flags (a + b) ∧
      OnlyRegs s t [] := by
  obtain ⟨t, hnext, hflags, hframe⟩ := compareResult_next s (addFlags s.flags a b)
  exact ⟨t, hnext, hflags ▸ cvOfAdd_addFlags s.flags a b, hflags ▸ nzOf_addFlags s.flags a b, hframe⟩

theorem compareResult_subFlags_next (s : State) (a b : Word) :
    ∃ t, compareResult s (subFlags s.flags a b) = .next t ∧ CVofSub t.flags a b ∧ NZof t.flags (a - b) ∧
      OnlyRegs s t [] := by
  obtain ⟨t, hnext, hflags, hframe⟩ := compareResult_next s (subFlags s.flags a b)
  exact ⟨t, hnext, hflags ▸ cvOfSub_subFlags s.flags a b, hflags ▸ nzOf_subFlags s.flags a b, hframe⟩

/-- N and Z of a discarded value; C and V stay. -/
theorem compareResult_setNZ_next (s : State) (v : Word) :
    ∃ t, compareResult s (v, s.flags.setNZ v) = .next t ∧ NZof t.flags v ∧ t.flags.c = s.flags.c ∧
      t.flags.v = s.flags.v ∧ OnlyRegs s t [] := by
  obtain ⟨t, hnext, hflags, hframe⟩ := compareResult_next s (v, s.flags.setNZ v)
  rw [Prod.snd] at hflags
  exact ⟨t, hnext, hflags ▸ nzOf_setNZ s.flags v, hflags ▸ rfl, hflags ▸ rfl, hframe⟩

/-- Settles O29: the flag set of the difference or, for CMN, of the sum; TST describes the conjunction by N and Z. -/
theorem comparesWriteOnlyFlags : Obligations.ComparesWriteOnlyFlags := by
  intro s rs rd hs hd imm8
  simp only [← zext_eq_ofNat]
  refine ⟨?_, ?_, ?_, ?_, ?_⟩
  · exact compareResult_subFlags_next s (s.readReg (low rd)) (zext imm8)
  · exact compareResult_subFlags_next s (s.readReg (low rd)) (s.readReg (low rs))
  · exact compareResult_subFlags_next s (s.readReg hd) (s.readReg hs)
  · exact compareResult_addFlags_next s (s.readReg (low rd)) (s.readReg (low rs))
  · exact compareResult_setNZ_next s (s.readReg (low rd) &&& s.readReg (low rs))

/-! ### The logical operations and MUL (R110, R111, R122 to R125) -/

/-- Settles O30: each row is a logical result, whose bits or number the library gives. -/
theorem logicAndMultiply : Obligations.LogicAndMultiply := by
  intro s rs rd op i hi
  have hresult : ∃ res, exec i s = logicResult s rd res ∧
      (i ≠ .mul rs rd → ∀ k < 32, res.getLsbD k =
        op ((s.readReg (low rd)).getLsbD k) ((s.readReg (low rs)).getLsbD k)) ∧
      (i = .mul rs rd → res.toNat = (s.readReg (low rd)).toNat * (s.readReg (low rs)).toNat % 2 ^ 32) := by
    obtain ⟨rfl, rfl⟩ | ⟨rfl, rfl⟩ | ⟨rfl, rfl⟩ | ⟨rfl, rfl⟩ | ⟨rfl, rfl⟩ | rfl := hi
    · exact ⟨_, rfl, fun _ k _ => BitVec.getLsbD_and, nofun⟩
    · exact ⟨_, rfl, fun _ k _ => BitVec.getLsbD_xor, nofun⟩
    · exact ⟨_, rfl, fun _ k _ => BitVec.getLsbD_or, nofun⟩
    · exact ⟨_, rfl, fun _ k hk => by simp [hk], nofun⟩
    · exact ⟨_, rfl, fun _ k hk => by simp [hk], nofun⟩
    · exact ⟨_, rfl, fun hne => absurd rfl hne, fun _ => BitVec.toNat_mul _ _⟩
  obtain ⟨res, hexec, hbits, hmul⟩ := hresult
  obtain ⟨t, hnext, rfl, hnz, hc, hv, hframe⟩ := logicResult_next s rd res
  exact ⟨t, hexec.trans hnext, hbits, hmul, hnz, hc, hv, hframe⟩

/-! ### ADC, SBC and NEG (R115, R116, R119) -/

theorem Flags.carry_eq_ofNat (f : Flags) : f.carry = BitVec.ofNat 32 f.c.toNat := by
  cases h : f.c <;> simp [Flags.carry, h]

/-- The only value whose negation overflows is the least one (R119). -/
theorem Flags.setVSub_v_neg_iff (f : Flags) (b : Word) : (f.setVSub 0 b (0 - b)).v = true ↔ b = 0x80000000 := by
  have hle := b.le_toInt
  have hlt := b.toInt_lt
  rw [Flags.setVSub_v_sub_iff, ← BitVec.toInt_inj]
  show 0 - b.toInt < _ ∨ _ ≤ 0 - b.toInt ↔ b.toInt = -2147483648
  omega

/-- Settles O32: C and V are those of the carry-less flag set, N and Z those of the result, and NEG's V is that of the
subtraction from 0. -/
theorem carryArithmetic : Obligations.CarryArithmetic := by
  intro s rs rd
  rw [← Flags.carry_eq_ofNat]
  refine ⟨?_, ?_, ?_⟩
  · exact arithResult_cvOfAdd_next s rd (cvOfAdd_addFlags s.flags _ _) _
  · exact arithResult_cvOfSub_next s rd (cvOfSub_subFlags s.flags _ _) _
  · obtain ⟨t, hnext, hres, hc, hv, hframe⟩ := arithResult_setNZ_next s rd
      ((s.flags.setC true).setVSub 0 (s.readReg (low rs)) (0 - s.readReg (low rs))) (0 - s.readReg (low rs))
    refine ⟨t, hnext, ?_, hc, ?_, hframe⟩
    · rw [hres, BitVec.sub_add_cancel]
    · rw [hv, Flags.setVSub_v_neg_iff]

end Sys2Proof.Machine
end

section
/-!
R24's table of flag writers (10_state.md, section 3). The flags that an instruction leaves are a function of the flags it
finds, the rest of the state fixed; what the table says of each row is then said of that function: the flag set of a sum,
a difference or a negation overwrites all four flags, a shift N, Z and perhaps C, a logical result N and Z, the other
rows none.
-/

namespace Sys2Proof.Machine

variable {s t : State}

/-! ### The table, said of a function of the flags -/

/-- The function `after` of the flags before keeps and writes flags as the three entries of R24's table say: a kept flag
has its old value, a written one does not depend on it. -/
structure FlagsUsed (nz c v : FlagUse) (after : Flags → Flags) : Prop where
  keepsNZ : nz = .kept → ∀ f, (after f).n = f.n ∧ (after f).z = f.z
  keepsC : c = .kept → ∀ f, (after f).c = f.c
  keepsV : v = .kept → ∀ f, (after f).v = f.v
  writesNZ : nz = .written → ∀ (f : Flags) (n z : Bool),
    (after { f with n := n, z := z }).n = (after f).n ∧ (after { f with n := n, z := z }).z = (after f).z
  writesC : c = .written → ∀ (f : Flags) (c : Bool), (after { f with c := c }).c = (after f).c
  writesV : v = .written → ∀ (f : Flags) (v : Bool), (after { f with v := v }).v = (after f).v

theorem flagsUsed_id : FlagsUsed .kept .kept .kept id :=
  ⟨fun _ _ => ⟨rfl, rfl⟩, fun _ _ => rfl, fun _ _ => rfl, nofun, nofun, nofun⟩

/-- The flag set of a sum overwrites all four flags (R87). -/
theorem flagsUsed_addFlags (a b : Word) : FlagsUsed .written .written .written fun f => (addFlags f a b).2 :=
  ⟨nofun, nofun, nofun, fun _ _ _ _ => ⟨rfl, rfl⟩, fun _ _ _ => rfl, fun _ _ _ => rfl⟩

/-- The flag set of a difference overwrites all four flags (R88). -/
theorem flagsUsed_subFlags (a b : Word) : FlagsUsed .written .written .written fun f => (subFlags f a b).2 :=
  ⟨nofun, nofun, nofun, fun _ _ _ _ => ⟨rfl, rfl⟩, fun _ _ _ => rfl, fun _ _ _ => rfl⟩

/-- N and Z are overwritten by those of a value that only C may enter (R81, R115, R116). -/
theorem flagsUsed_setNZ {nz c v : FlagUse} {after : Flags → Flags} (h : FlagsUsed nz c v after) {res : Flags → Word}
    (hres : ∀ f g : Flags, f.c = g.c → res f = res g) :
    FlagsUsed .written c v fun f => (after f).setNZ (res f) where
  keepsNZ := nofun
  keepsC := h.keepsC
  keepsV := h.keepsV
  writesNZ _ f n z := by
    have hsame := hres { f with n := n, z := z } f rfl
    simp [hsame]
  writesC := h.writesC
  writesV := h.writesV

/-- A logical result sets N and Z alone (R108). -/
theorem flagsUsed_logic (res : Word) : FlagsUsed .written .kept .kept fun f => f.setNZ res :=
  flagsUsed_setNZ flagsUsed_id fun _ _ _ => rfl

/-- NEG forces C and overwrites V (R119). -/
theorem flagsUsed_neg (b res : Word) :
    FlagsUsed .written .written .written fun f => ((f.setC true).setVSub 0 b res).setNZ res :=
  ⟨nofun, nofun, nofun, fun _ _ _ _ => ⟨rfl, rfl⟩, fun _ _ _ => rfl, fun _ _ _ => rfl⟩

/-- A shift sets N, Z and its carry-out (R97), which is C itself exactly when the amount is 0. -/
theorem flagsUsed_shift {amountIsZero : Prop} [Decidable amountIsZero] (res : Word) {carry : Bool → Bool}
    (hkept : amountIsZero → ∀ c, carry c = c) (hwritten : ¬ amountIsZero → ∀ c, carry c = carry false) :
    FlagsUsed .written (if amountIsZero then .kept else .written) .kept fun f => (f.setC (carry f.c)).setNZ res where
  keepsNZ := nofun
  keepsC h f := by
    by_cases h0 : amountIsZero
    · exact hkept h0 f.c
    · rw [if_neg h0] at h; cases h
  keepsV _ _ := rfl
  writesNZ _ _ _ _ := ⟨rfl, rfl⟩
  writesC h f c := by
    by_cases h0 : amountIsZero
    · rw [if_pos h0] at h; cases h
    · exact (hwritten h0 c).trans (hwritten h0 f.c).symm
  writesV := nofun

/-- A right shift always writes its carry-out (R98, R99, R113, R114). -/
theorem flagsUsed_rightShift (p : Word × Bool) :
    FlagsUsed .written .written .kept fun f => (f.setC p.2).setNZ p.1 :=
  flagsUsed_shift (amountIsZero := False) p.1 (carry := fun _ => p.2) nofun fun _ _ => rfl

theorem flagsUsed_lslC {amountIsZero : Prop} [Decidable amountIsZero] (v : Word) {n : Nat} (hn : amountIsZero ↔ n = 0) :
    FlagsUsed .written (if amountIsZero then .kept else .written) .kept fun f =>
      (f.setC (lslC v n f.c).2).setNZ (lslC v n f.c).1 := by
  simp only [lslC_fst, lslC_snd]
  exact flagsUsed_shift _ (fun h c => if_pos (hn.1 h)) fun h c => by simp [lslCarry, mt hn.2 h]

theorem flagsUsed_rorC (v : Word) (n : Nat) :
    FlagsUsed .written (if n = 0 then .kept else .written) .kept fun f =>
      (f.setC (rorC v n f.c).2).setNZ (rorC v n f.c).1 := by
  simp only [rorC_fst, rorC_snd]
  exact flagsUsed_shift _ (fun h c => if_pos h) fun h c => by simp [rorCarry, h]

/-! ### The flags an instruction leaves -/

/-- From `s` with any flags the instruction completes and leaves the flags that `after` makes of them. -/
def LeavesFlags (i : Instr) (s : State) (after : Flags → Flags) : Prop :=
  ∀ f, ∃ u, exec i (s.setFlags f) = .next u ∧ u.flags = after f

theorem flags_arithResult (s : State) (rd : LowReg) (p : Word × Flags) :
    ∃ u, arithResult s rd p = .next u ∧ u.flags = p.2 :=
  ⟨_, rfl, State.writeReg_flags _ (low rd) p.1⟩

theorem flags_compareResult (s : State) (p : Word × Flags) : ∃ u, compareResult s p = .next u ∧ u.flags = p.2 :=
  ⟨_, rfl, rfl⟩

theorem flags_shiftResult (s : State) (rd : LowReg) (p : Word × Bool) :
    ∃ u, shiftResult s rd p = .next u ∧ u.flags = (s.flags.setC p.2).setNZ p.1 :=
  ⟨_, rfl, State.writeReg_flags _ (low rd) p.1⟩

theorem flags_of_loadsAs {rd : LowReg} {op : BusOp} {v : Word} (h : LoadsAs s t rd op v) : t.flags = s.flags := by
  obtain ⟨-, -, -, hflags, -⟩ := h
  exact hflags

theorem flags_of_storesAs {ea : Word} {n : Nat} {op : BusOp} (h : StoresAs s t ea n op) : t.flags = s.flags := by
  obtain ⟨-, -, hflags, -⟩ := h
  exact hflags

theorem flags_of_branchIf {cond : Cond} {imm8 : BitVec 8} (h : branchIf cond imm8 s = .next t) : t.flags = s.flags := by
  rw [branchIf_next] at h
  cases h
  split <;> rfl

theorem flags_of_branchExchange {v : Word} (h : branchExchange s v = .next t) : t.flags = s.flags := by
  rw [branchExchange_next] at h
  cases h
  split <;> rfl

theorem flags_of_execPush {r : Bool} {rlist : BitVec 8} (h : execPush r rlist s = .next t) : t.flags = s.flags := by
  obtain ⟨-, hpush⟩ := pushStores s r rlist _ _ rfl rfl
  obtain ⟨-, -, hflags, -⟩ := of_eq_next hpush h
  exact hflags

theorem flags_of_execPop {r : Bool} {rlist : BitVec 8} (h : execPop r rlist s = .next t) : t.flags = s.flags := by
  obtain ⟨-, hpop⟩ := popLoads s r rlist _ _ rfl rfl
  obtain ⟨-, -, -, -, hflags, -⟩ := of_eq_next hpop h
  exact hflags

/-- The rows of the table with no entry `w` keep all four flags. -/
theorem flags_of_exec {i : Instr} (h : exec i s = .next t) (hi : flagUseNZ i = .kept) : t.flags = s.flags := by
  cases i with
  | addHi | movHi | blHi => cases h; exact State.writeReg_flags s _ _
  | blLo | blxLo => cases h; exact State.writeReg_flags s LR (longBranchReturn s)
  | bx => exact flags_of_branchExchange h
  | blxReg => exact (flags_of_branchExchange h).trans (State.writeReg_flags s LR _)
  | ldrPc | ldrReg | ldrImm => exact flags_of_loadsAs (of_eq_next (loadWord_next s _ _) h).1
  | ldrhReg | ldshReg | ldrhImm => exact flags_of_loadsAs (of_eq_next (loadHalf_next _ s _ _) h).1
  | ldrbReg | ldsbReg | ldrbImm => exact flags_of_loadsAs (of_eq_next (loadByte_next _ s _ _) h).1
  | strReg | strImm => exact flags_of_storesAs (of_eq_next (storeWord_next s _ _) h).1
  | strhReg | strhImm => exact flags_of_storesAs (of_eq_next (storeHalf_next s _ _) h).1
  | strbReg | strbImm => exact flags_of_storesAs (of_eq_next (storeByte_next s _ _) h).1
  | push => exact flags_of_execPush h
  | pop => exact flags_of_execPop h
  | beq | bne | bcs | bcc | bmi | bpl | bvs | bvc | bhi | bls | bge | blt | bgt | ble => exact flags_of_branchIf h
  | invalid9000 | invalidA000 | invalidB000 | invalidB200 | invalidB600 | invalidC000 | invalidE000
  | invalidCond14 | invalidSwi => cases h
  | _ => cases hi

/-- An instruction that keeps all four flags leaves the flags it finds. -/
theorem leavesFlags_id {i : Instr} (h : i.isInvalidRow = false) (hi : flagUseNZ i = .kept) : LeavesFlags i s id := by
  intro f
  obtain ⟨u, hu⟩ := exec_next_of_not_isInvalidRow h (s.setFlags f)
  exact ⟨u, hu, flags_of_exec hu hi⟩

/-- Every row of R24's table. -/
theorem exists_flagsUsed {i : Instr} (s : State) (h : i.isInvalidRow = false) :
    ∃ after, FlagsUsed (flagUseNZ i) (flagUseC s i) (flagUseV i) after ∧ LeavesFlags i s after := by
  cases i with
  | lslImm imm5 rs rd =>
    exact ⟨_, flagsUsed_lslC (s.readReg (low rs)) (BitVec.toNat_eq (y := 0)),
      fun f => flags_shiftResult (s.setFlags f) rd _⟩
  | lsrImm imm5 rs rd =>
    exact ⟨_, flagsUsed_rightShift (lsrC (s.readReg (low rs)) (rightAmount imm5.toNat)),
      fun f => flags_shiftResult (s.setFlags f) rd _⟩
  | asrImm imm5 rs rd =>
    exact ⟨_, flagsUsed_rightShift (asrC (s.readReg (low rs)) (rightAmount imm5.toNat)),
      fun f => flags_shiftResult (s.setFlags f) rd _⟩
  | lslReg rs rd =>
    exact ⟨_, flagsUsed_lslC (s.readReg (low rd)) (Iff.refl (shiftCount s rs = 0)),
      fun f => flags_shiftResult (s.setFlags f) rd _⟩
  | lsrReg rs rd =>
    exact ⟨_, flagsUsed_rightShift (lsrC (s.readReg (low rd)) (rightAmount (shiftCount s rs))),
      fun f => flags_shiftResult (s.setFlags f) rd _⟩
  | asrReg rs rd =>
    exact ⟨_, flagsUsed_rightShift (asrC (s.readReg (low rd)) (rightAmount (shiftCount s rs))),
      fun f => flags_shiftResult (s.setFlags f) rd _⟩
  | ror rs rd =>
    exact ⟨_, flagsUsed_rorC (s.readReg (low rd)) (shiftCount s rs), fun f => flags_shiftResult (s.setFlags f) rd _⟩
  | addReg rn rs rd =>
    exact ⟨_, flagsUsed_addFlags (s.readReg (low rs)) (s.readReg (low rn)),
      fun f => flags_arithResult (s.setFlags f) rd _⟩
  | subReg rn rs rd =>
    exact ⟨_, flagsUsed_subFlags (s.readReg (low rs)) (s.readReg (low rn)),
      fun f => flags_arithResult (s.setFlags f) rd _⟩
  | addImm3 imm3 rs rd =>
    exact ⟨_, flagsUsed_addFlags (s.readReg (low rs)) (zext imm3), fun f => flags_arithResult (s.setFlags f) rd _⟩
  | subImm3 imm3 rs rd =>
    exact ⟨_, flagsUsed_subFlags (s.readReg (low rs)) (zext imm3), fun f => flags_arithResult (s.setFlags f) rd _⟩
  | addImm8 rd imm8 =>
    exact ⟨_, flagsUsed_addFlags (s.readReg (low rd)) (zext imm8), fun f => flags_arithResult (s.setFlags f) rd _⟩
  | subImm8 rd imm8 =>
    exact ⟨_, flagsUsed_subFlags (s.readReg (low rd)) (zext imm8), fun f => flags_arithResult (s.setFlags f) rd _⟩
  | movImm8 rd imm8 => exact ⟨_, flagsUsed_logic (zext imm8), fun f => flags_arithResult (s.setFlags f) rd _⟩
  | cmpImm8 rd imm8 =>
    exact ⟨_, flagsUsed_subFlags (s.readReg (low rd)) (zext imm8), fun f => flags_compareResult (s.setFlags f) _⟩
  | cmpReg rs rd =>
    exact ⟨_, flagsUsed_subFlags (s.readReg (low rd)) (s.readReg (low rs)),
      fun f => flags_compareResult (s.setFlags f) _⟩
  | cmpHi rs rd =>
    exact ⟨_, flagsUsed_subFlags (s.readReg rd) (s.readReg rs), fun f => flags_compareResult (s.setFlags f) _⟩
  | cmn rs rd =>
    exact ⟨_, flagsUsed_addFlags (s.readReg (low rd)) (s.readReg (low rs)),
      fun f => flags_compareResult (s.setFlags f) _⟩
  | tst rs rd =>
    exact ⟨_, flagsUsed_logic (s.readReg (low rd) &&& s.readReg (low rs)),
      fun f => flags_compareResult (s.setFlags f) _⟩
  | and rs rd =>
    exact ⟨_, flagsUsed_logic (s.readReg (low rd) &&& s.readReg (low rs)),
      fun f => flags_arithResult (s.setFlags f) rd _⟩
  | eor rs rd =>
    exact ⟨_, flagsUsed_logic (s.readReg (low rd) ^^^ s.readReg (low rs)),
      fun f => flags_arithResult (s.setFlags f) rd _⟩
  | orr rs rd =>
    exact ⟨_, flagsUsed_logic (s.readReg (low rd) ||| s.readReg (low rs)),
      fun f => flags_arithResult (s.setFlags f) rd _⟩
  | mul rs rd =>
    exact ⟨_, flagsUsed_logic (s.readReg (low rd) * s.readReg (low rs)), fun f => flags_arithResult (s.setFlags f) rd _⟩
  | bic rs rd =>
    exact ⟨_, flagsUsed_logic (s.readReg (low rd) &&& ~~~ s.readReg (low rs)),
      fun f => flags_arithResult (s.setFlags f) rd _⟩
  | mvn rs rd => exact ⟨_, flagsUsed_logic (~~~ s.readReg (low rs)), fun f => flags_arithResult (s.setFlags f) rd _⟩
  | adc rs rd =>
    exact ⟨_, flagsUsed_setNZ (flagsUsed_addFlags (s.readReg (low rd)) (s.readReg (low rs)))
      (res := fun f => s.readReg (low rd) + s.readReg (low rs) + f.carry) fun f g h => by simp [Flags.carry, h],
      fun f => flags_arithResult (s.setFlags f) rd _⟩
  | sbc rs rd =>
    exact ⟨_, flagsUsed_setNZ (flagsUsed_subFlags (s.readReg (low rd)) (s.readReg (low rs)))
      (res := fun f => s.readReg (low rd) - s.readReg (low rs) - f.carry) fun f g h => by simp [Flags.carry, h],
      fun f => flags_arithResult (s.setFlags f) rd _⟩
  | neg rs rd =>
    exact ⟨_, flagsUsed_neg (s.readReg (low rs)) (0 - s.readReg (low rs)),
      fun f => flags_arithResult (s.setFlags f) rd _⟩
  | invalid9000 | invalidA000 | invalidB000 | invalidB200 | invalidB600 | invalidC000 | invalidE000
  | invalidCond14 | invalidSwi => cases h
  | _ => exact ⟨id, flagsUsed_id, leavesFlags_id rfl rfl⟩

/-- Settles O47: the row's function of the flags, applied to the flags of `s` and to those with one of them changed; MOV's
value is below 2^31. -/
theorem flagWritersTable : Obligations.FlagWritersTable := by
  intro i s t h
  have hi : i.isInvalidRow = false := by
    rw [Bool.eq_false_iff]
    intro hinvalid
    obtain ⟨reason, hfault⟩ := exec_fault_of_isInvalidRow hinvalid s
    rw [h] at hfault
    cases hfault
  obtain ⟨after, hused, hleaves⟩ := exists_flagsUsed s hi
  have ht : t.flags = after s.flags := of_eq_next (hleaves s.flags) h
  rw [ht]
  refine ⟨fun hnz => hused.keepsNZ hnz _, fun hc => hused.keepsC hc _, fun hv => hused.keepsV hv _, ?_, ?_, ?_, ?_⟩
  · intro hnz n z
    obtain ⟨u, hu, hflags⟩ := hleaves { s.flags with n := n, z := z }
    exact ⟨u, hu, hflags ▸ hused.writesNZ hnz s.flags n z⟩
  · intro hc c
    obtain ⟨u, hu, hflags⟩ := hleaves { s.flags with c := c }
    exact ⟨u, hu, hflags ▸ hused.writesC hc s.flags c⟩
  · intro hv v
    obtain ⟨u, hu, hflags⟩ := hleaves { s.flags with v := v }
    exact ⟨u, hu, hflags ▸ hused.writesV hv s.flags v⟩
  · rintro ⟨rd, imm8, rfl⟩
    obtain ⟨-, hn, -⟩ := of_eq_next (moveImmediate s rd imm8) h
    rw [← ht, hn]

end Sys2Proof.Machine
end

section
/-!
Hi-register ADD and MOV and branch-exchange (43_hi_register_bx.md R128, R130 to R132), the conditional branches on several
flags (46_branches.md R164 to R169) and the long branch (R173 to R177).
-/

namespace Sys2Proof.Machine

variable {s t : State}

/-! ### Hi-register ADD and MOV (R128, R130) -/

theorem State.readReg_eq_ite_PC (s : State) (r : Reg) : (if r = PC then s.pcRead else s.readReg r) = s.readReg r := by
  split_ifs with h
  · rw [h, State.readReg_PC]
  · rfl

/-- What a write of any of the 16 registers does: for register 15 it is a write of `pc_pending` (R18). -/
theorem writeReg_effect (s : State) (rd : Reg) (v : Word) :
    (rd ≠ PC → (s.writeReg rd v).readReg rd = v ∧ (s.writeReg rd v).pcPending = s.pcPending ∧
      RegsKept s (s.writeReg rd v) [rd]) ∧
    (rd = PC → (s.writeReg rd v).pcPending = v ∧ RegsKept s (s.writeReg rd v) []) := by
  refine ⟨fun h => ⟨?_, ?_, regsKept_writeReg s rd v⟩, fun h => ?_⟩
  · exact State.readReg_writeReg_same s rd v h
  · exact State.writeReg_pcPending_stored s rd v h
  · subst h
    exact ⟨State.writeReg_pcPending_PC s v, regsKept_writeReg_PC s v⟩

/-- Settles O33: both rows are one register write, of the sum or of the source. -/
theorem hiRegisterAddMove : Obligations.HiRegisterAddMove := by
  intro s rs rd v i hi
  rw [State.readReg_eq_ite_PC, State.readReg_eq_ite_PC] at hi
  have hexec : exec i s = .next (s.writeReg rd v) := by
    obtain ⟨rfl, rfl⟩ | ⟨rfl, rfl⟩ := hi
    · rfl
    · rfl
  obtain ⟨hstored, hpending⟩ := writeReg_effect s rd v
  exact ⟨_, hexec, hstored, hpending, by simp, by simp, by simp, noBus_writeReg s rd v⟩

/-! ### Branch-exchange (R131, R132) -/

theorem getLsbD_zero_eq_decide (v : Word) : v.getLsbD 0 = decide (v.toNat % 2 = 1) :=
  Nat.testBit_zero v.toNat

/-- Clearing bits 1 and 0 rounds down to a multiple of 4. -/
theorem toNat_clearLow2 (v : Word) : (v &&& 0xFFFFFFFC).toNat = v.toNat / 4 * 4 := by
  have hshift : v &&& (0xFFFFFFFC : Word) = v >>> 2 <<< 2 := by
    have hmask : ∀ i < 32, (0xFFFFFFFC : Word).getLsbD i = !decide (i < 2) := by decide
    apply BitVec.eq_of_getLsbD_eq
    intro i hi
    rw [BitVec.getLsbD_and, hmask i hi]
    by_cases h2 : i < 2
    · simp [h2]
    · simp [h2, hi, Nat.add_sub_cancel' (Nat.not_lt.1 h2)]
  have := v.isLt
  rw [hshift, BitVec.toNat_shiftLeft, BitVec.toNat_ushiftRight, Nat.shiftRight_eq_div_pow, Nat.shiftLeft_eq]
  omega

/-- Branch-exchange to an odd and to an even value (R131). -/
theorem branchExchange_effect (s : State) (v : Word) :
    ∃ t, branchExchange s v = .next t ∧ (v.toNat % 2 = 1 → t.pcPending = v ∧ t.t = s.t) ∧
      (v.toNat % 2 = 0 → t.pcPending.toNat = v.toNat / 4 * 4 ∧ t.t = false) ∧
      t.flags = s.flags ∧ RegsKept s t [] ∧ NoBus s t := by
  rw [branchExchange_next, getLsbD_zero_eq_decide]
  refine ⟨_, rfl, ?_⟩
  by_cases hodd : v.toNat % 2 = 1
  · rw [if_pos (decide_eq_true hodd)]
    exact ⟨fun _ => ⟨rfl, rfl⟩, fun heven => by omega, rfl, regsKept_of_regs rfl rfl, noBus_refl s⟩
  · rw [if_neg (by simpa using hodd)]
    exact ⟨fun h => absurd h hodd, fun _ => ⟨toNat_clearLow2 v, rfl⟩, rfl, regsKept_of_regs rfl rfl, noBus_refl s⟩

end Sys2Proof.Machine

namespace Sys2Proof

open Sys2Proof.Machine

/-- Settles O34: BLX is branch-exchange, to the target read first, from the state with LR written. -/
theorem branchExchange : Obligations.BranchExchange := by
  intro s rs ignored
  refine ⟨branchExchange_effect s (s.readReg rs), ?_⟩
  obtain ⟨t, hnext, hodd, heven, hflags, hregs, hbus⟩ :=
    branchExchange_effect (s.writeReg LR (s.pcRead - 2)) (s.readReg rs)
  refine ⟨t, hnext, ?_, ?_, heven, ?_, regsKept_execBlxReg hnext, noBus_trans (noBus_writeReg s LR _) hbus⟩
  · rw [hregs LR List.not_mem_nil, State.readReg_writeReg_same s LR _ LR_ne_PC]
  · simpa using hodd
  · simpa using hflags

end Sys2Proof

namespace Sys2Proof.Machine

variable {s t : State}

/-! ### The conditional branches on several flags (R164 to R169) -/

/-- Settles O44: each condition is the formula that the row writes. -/
theorem branchesOnSeveralFlags : Obligations.BranchesOnSeveralFlags := by
  intro s imm8
  refine ⟨?_, ?_, ?_, ?_, ?_, ?_⟩
  · exact branchIf_of_condPassed_iff (by simp [condPassed]) imm8
  · exact branchIf_of_condPassed_iff (by simp [condPassed]) imm8
  · exact branchIf_of_condPassed_iff (by simp [condPassed]) imm8
  · exact branchIf_of_condPassed_iff (by simp [condPassed]) imm8
  · exact branchIf_of_condPassed_iff (by simp [condPassed]) imm8
  · exact branchIf_of_condPassed_iff (by simp [condPassed]) imm8

/-! ### The halves of the long branch (R173 to R175) -/

theorem sext_shiftLeft_twelve (imm11 : BitVec 11) : sext imm11 <<< 12 = BitVec.ofInt 32 (4096 * imm11.toInt) := by
  rw [BitVec.shiftLeft_eq_mul_twoPow, BitVec.mul_comm, BitVec.ofInt_mul]
  rfl

theorem zext_shiftLeft_one (imm11 : BitVec 11) : zext imm11 <<< 1 = BitVec.ofNat 32 (2 * imm11.toNat) := by
  rw [BitVec.shiftLeft_eq_mul_twoPow]
  exact zext_mul_ofNat imm11 2

/-- Step 1 writes LR alone (R173). -/
theorem execBlHi_next (imm11 : BitVec 11) (s : State) :
    ∃ t, execBlHi imm11 s = .next t ∧ t.readReg LR = s.pcRead + BitVec.ofInt 32 (4096 * imm11.toInt) ∧
      t.flags = s.flags ∧ OnlyRegs s t [LR] := by
  refine ⟨_, rfl, ?_, State.writeReg_flags s LR _, onlyRegs_writeReg s LR _ LR_ne_PC⟩
  rw [State.readReg_writeReg_same s LR _ LR_ne_PC, longBranchBase, sext_shiftLeft_twelve]

/-- The common part of step 2: the target from the old LR, the return address in LR (R174). -/
theorem longBranchStep2_effect (imm11 : BitVec 11) (s : State) :
    (longBranchStep2 imm11 s).pcPending = s.readReg LR + BitVec.ofNat 32 (2 * imm11.toNat) ∧
    (longBranchStep2 imm11 s).readReg LR = (s.pcRead - 2) ||| 1 ∧ (longBranchStep2 imm11 s).t = s.t ∧
    (longBranchStep2 imm11 s).flags = s.flags ∧ NoBus s (longBranchStep2 imm11 s) := by
  refine ⟨?_, ?_, State.writeReg_t s LR (longBranchReturn s),
    State.writeReg_flags s LR (longBranchReturn s), noBus_writeReg s LR (longBranchReturn s)⟩
  · rw [← zext_shiftLeft_one]
    rfl
  · exact State.readReg_writeReg_same s LR (longBranchReturn s) LR_ne_PC

/-- Settles O45: the exchange variant is the common part of step 2 with T cleared. -/
theorem longBranchHalves : Obligations.LongBranchHalves := by
  intro s imm11
  obtain ⟨htarget, hlink, ht, hflags, hbus⟩ := longBranchStep2_effect imm11 s
  have hregs := regsKept_longBranchStep2 imm11 s
  refine ⟨execBlHi_next imm11 s, ?_, ?_⟩
  · exact ⟨_, rfl, htarget, hlink, ht, hflags, hregs, hbus⟩
  · exact ⟨_, rfl, htarget, hlink, rfl, hflags, hregs, hbus⟩

/-! ### The pair (R176, R177) -/

/-- Clearing bit 0 leaves an even word as it is. -/
theorem and_clearBit0_of_even {v : Word} (h : v.getLsbD 0 = false) : v &&& (0xFFFFFFFE : Word) = v := by
  have hmask : ∀ i < 32, (0xFFFFFFFE : Word).getLsbD i = !decide (i = 0) := by decide
  apply BitVec.eq_of_getLsbD_eq
  intro i hi
  rw [BitVec.getLsbD_and, hmask i hi]
  by_cases h0 : i = 0
  · rw [h0, h, Bool.false_and]
  · simp [h0]

/-- A step over the word of a well-formed instruction runs it. -/
theorem step_eq_exec_of_fetchWord_encode {i : Instr} (ht : s.t = true) (hw : s.fetchWord = encode i)
    (hi : i.wellFormed = true) : step s = exec i s.beginStep := by
  rw [step_eq_exec_of_t ht, hw, decodeWord_encode hi]

/-- The state after step 1: the machine goes on to the next halfword, with the partial target in LR. -/
theorem step_blHi {s1 : State} {hi : BitVec 11} (ht : s.t = true) (hw : s.fetchWord = encode (.blHi hi))
    (h : step s = .next s1) :
    s1.t = true ∧ s1.fetchAddr = s.fetchAddr + 2 ∧
      s1.readReg LR = s.fetchAddr + 4 + BitVec.ofInt 32 (4096 * hi.toInt) := by
  rw [step_eq_exec_of_fetchWord_encode ht hw rfl] at h
  obtain ⟨hlink, -, -, ⟨-, hpending, ht1⟩, -⟩ := of_eq_next (execBlHi_next hi s.beginStep) h
  refine ⟨ht1.trans ht, ?_, hlink⟩
  rw [State.fetchAddr, hpending]
  exact and_clearBit0_of_even (getLsbD_zero_add s.fetchAddr_getLsbD_zero rfl)

theorem pairTarget_eq (a : Word) (hi lo : BitVec 11) :
    a + BitVec.ofInt 32 (4096 * hi.toInt) + BitVec.ofNat 32 (2 * lo.toNat) =
      a + BitVec.ofInt 32 (hi.toInt * 4096 + lo.toNat * 2) := by
  rw [BitVec.add_assoc, ← BitVec.ofInt_natCast, ← BitVec.ofInt_add]
  congr 2
  omega

/-- The two halves of a 22-bit offset: the upper one signed, the lower one not. -/
theorem halves_of_offset (off : BitVec 22) :
    (off.extractLsb' 11 11).toInt * 4096 + (off.extractLsb' 0 11).toNat * 2 = 2 * off.toInt := by
  have hoff := off.isLt
  have hhigh : (off.extractLsb' 11 11).toNat = off.toNat / 2 ^ 11 := by
    rw [BitVec.extractLsb'_toNat, Nat.shiftRight_eq_div_pow]
    omega
  have hlow : (off.extractLsb' 0 11).toNat = off.toNat % 2 ^ 11 := by
    rw [BitVec.extractLsb'_toNat, Nat.shiftRight_zero]
  rw [BitVec.toInt_eq_toNat_cond, BitVec.toInt_eq_toNat_cond, hhigh, hlow]
  split_ifs <;> omega

/-- Settles O46: step 2 runs at `A + 2`, so its `pc_read - 2` is `A + 4`, and it adds its half to the partial target that
step 1 left in LR. -/
theorem longBranchPairTarget : Obligations.LongBranchPairTarget := by
  refine ⟨fun s s1 hi lo ht hw h => ?_, halves_of_offset⟩
  obtain ⟨ht1, haddr, hlink⟩ := step_blHi ht hw h
  have hpc : s1.beginStep.pcRead - 2 = s.fetchAddr + 4 := by
    rw [State.beginStep_pcRead, haddr]
    bv_omega
  obtain ⟨htarget, hreturn, ht2, -⟩ := longBranchStep2_effect lo s1.beginStep
  have hpending : (longBranchStep2 lo s1.beginStep).pcPending =
      s.fetchAddr + 4 + BitVec.ofInt 32 (hi.toInt * 4096 + lo.toNat * 2) := by
    rw [htarget, ← pairTarget_eq, ← hlink]
    rfl
  rw [hpc] at hreturn
  refine ⟨fun hlo => ?_, fun hlo => ?_⟩
  · exact ⟨_, step_eq_exec_of_fetchWord_encode ht1 hlo rfl, hpending, hreturn, ht2.trans ht1⟩
  · exact ⟨_, step_eq_exec_of_fetchWord_encode ht1 hlo rfl, hpending, hreturn, rfl⟩

end Sys2Proof.Machine
end

section
/-!
The stores of 44_load_store.md (R135, R136, R139, R143, R145, R147), little-endian bytes (20_memory.md R43) and the fetch
after a store (R56). A store writes the low bits of its register and the shared store operations say what it keeps; what
was stored is read back byte by byte, by a read or by the fetch, which sees the same memory.
-/

namespace Sys2Proof.Machine

variable {s t : State}

/-! ### The stores (R48) -/

theorem storeWord_stored (s : State) (rd : LowReg) (ea : Word) :
    ∃ t, storeWord s rd ea = .next t ∧ StoresAs s t ea 4 (.writeWord ea (s.readReg (low rd))) ∧
      (s.mem.wf = true → WritableSpan s ea 4 → t.wordAt ea = s.readReg (low rd)) := by
  obtain ⟨_, hnext, hstores, rfl⟩ := storeWord_next s rd ea
  exact ⟨_, hnext, hstores, wordAt_memWriteWord s ea _⟩

theorem storeHalf_stored (s : State) (rd : LowReg) (ea : Word) :
    ∃ t, storeHalf s rd ea = .next t ∧ StoresAs s t ea 2 (.writeHalf ea ((s.readReg (low rd)).setWidth 16)) ∧
      (s.mem.wf = true → WritableSpan s ea 2 → t.halfAt ea = (s.readReg (low rd)).setWidth 16) := by
  rw [BitVec.setWidth_eq_extractLsb' (by decide)]
  obtain ⟨_, hnext, hstores, rfl⟩ := storeHalf_next s rd ea
  exact ⟨_, hnext, hstores, halfAt_memWriteHalf s ea _⟩

theorem writable_of_writableSpan_one {ea : Word} (h : WritableSpan s ea 1) : Writable s ea :=
  h.1 ea (by simp [span_one])

theorem storeByte_stored (s : State) (rd : LowReg) (ea : Word) :
    ∃ t, storeByte s rd ea = .next t ∧ StoresAs s t ea 1 (.writeByte ea ((s.readReg (low rd)).setWidth 8)) ∧
      (s.mem.wf = true → WritableSpan s ea 1 → t.byteAt ea = (s.readReg (low rd)).setWidth 8) := by
  rw [BitVec.setWidth_eq_extractLsb' (by decide)]
  obtain ⟨_, hnext, hstores, rfl⟩ := storeByte_next s rd ea
  exact ⟨_, hnext, hstores, fun hwf hw => byteAt_memWriteByte s ea _ hwf (writable_of_writableSpan_one hw)⟩

/-- Settles O38: each row is its store at `regAddr`. -/
theorem registerOffsetStores : Obligations.RegisterOffsetStores := by
  rintro s ro rb rd _ _ rfl rfl
  exact ⟨rfl, storeWord_stored s rd (regAddr s ro rb), storeHalf_stored s rd (regAddr s ro rb),
    storeByte_stored s rd (regAddr s ro rb)⟩

/-- Settles O39: each row is its store at `immAddr` with its scale. -/
theorem immediateOffsetStores : Obligations.ImmediateOffsetStores := by
  rintro s imm5 rb rd _ rfl
  exact ⟨fun k => immAddr_ofNat s imm5 k rb, storeWord_stored s rd (immAddr s imm5 4 rb),
    storeHalf_stored s rd (immAddr s imm5 2 rb), storeByte_stored s rd (immAddr s imm5 1 rb)⟩

/-! ### Little-endian bytes (R43) -/

/-- The number of bits above a byte. -/
theorem toNat_append_byte {n : Nat} (v : BitVec n) (b : Byte) : (v ++ b).toNat = b.toNat + 256 * v.toNat := by
  rw [BitVec.toNat_append, ← Nat.shiftLeft_add_eq_or_of_lt b.isLt, Nat.shiftLeft_eq, Nat.add_comm, Nat.mul_comm]

theorem toNat_halfAt_mem {a : Word} (h : s.external a 2 = false) :
    (s.halfAt a).toNat = (s.byteAt a).toNat + 256 * (s.byteAt (a + 1)).toNat := by
  rw [State.halfAt_mem h, toNat_append_byte]

theorem toNat_wordAt_mem {a : Word} (h : s.external a 4 = false) :
    (s.wordAt a).toNat = (s.byteAt a).toNat + 256 * (s.byteAt (a + 1)).toNat + 65536 * (s.byteAt (a + 2)).toNat +
      16777216 * (s.byteAt (a + 3)).toNat := by
  rw [State.wordAt_mem h, toNat_append_byte, toNat_append_byte, toNat_append_byte]
  omega

/-- Settles O56: a read of plain memory is its bytes put together, the fetch is such a read, and every stored byte is read
back. -/
theorem littleEndianBytes : Obligations.LittleEndianBytes := by
  intro s a
  refine ⟨toNat_halfAt_mem, fun h => ?_, toNat_wordAt_mem, fun v => byteAt_memWriteHalf s a v,
    fun v => byteAt_memWriteWord s a v⟩
  exact toNat_halfAt_mem (s := s.nextDraw) h

/-! ### The fetch after a store (R56) -/

/-- The bytes of a halfword of plain memory. -/
theorem extractLsb'_halfAt_mem {a : Word} (h : s.external a 2 = false) {p : Nat} (hp : p < 2) :
    (s.halfAt a).extractLsb' (8 * p) 8 = s.byteAt (a + BitVec.ofNat 32 p) := by
  rw [State.halfAt_mem h]
  obtain rfl | rfl : p = 0 ∨ p = 1 := by omega
  · rw [BitVec.extractLsb'_append_eq_of_add_le (by decide), show a + BitVec.ofNat 32 0 = a from BitVec.add_zero a]
    exact BitVec.extractLsb'_eq_self
  · rw [BitVec.extractLsb'_append_eq_of_le (by decide)]
    exact BitVec.extractLsb'_eq_self

/-- Stored bytes that a read sees, each with a cell of its own, the next fetch sees as well: the draw of unmapped
addresses is no part of them. -/
theorem fetchSees_of_byteAt {ea : Word} {n : Nat} {bytes : Nat → Byte} (hmap : t.memMap = s.memMap)
    (hpending : t.pcPending = s.pcPending) (hw : WritableSpan s ea n)
    (hbytes : ∀ k < n, t.byteAt (ea + BitVec.ofNat 32 k) = bytes k) : FetchSees s t ea n bytes := by
  intro hplain p hp k hk haddr
  have hfetch : t.fetchAddr = s.fetchAddr := congrArg (· &&& 0xFFFFFFFE) hpending
  obtain ⟨cell, hcell⟩ := cellAt_of_writable (hw.1 _ (mem_span hk))
  have hplain' : t.nextDraw.external s.fetchAddr 2 = false := (State.external_congr hmap _ 2).trans hplain
  rw [State.fetchWord, hfetch, extractLsb'_halfAt_mem hplain' hp, haddr, ← hbytes k hk]
  exact State.byteAt_cell (s := t) (t := t.nextDraw) rfl rfl ((State.cellAt_congr hmap _).trans hcell)

theorem fetchSees_storeWord (s : State) (rd : LowReg) (ea : Word) (hwf : s.mem.wf = true) (hw : WritableSpan s ea 4) :
    ∃ t, storeWord s rd ea = .next t ∧ FetchSees s t ea 4 fun k => (s.readReg (low rd)).extractLsb' (8 * k) 8 := by
  obtain ⟨_, hnext, ⟨-, -, -, ⟨-, hpending, -⟩, -, hmap, -⟩, rfl⟩ := storeWord_next s rd ea
  exact ⟨_, hnext, fetchSees_of_byteAt hmap hpending hw (byteAt_memWriteWord s ea _ hwf hw)⟩

/-- The bytes of the low halfword are bytes of the word. -/
theorem extractLsb'_lowHalf (v : Word) {k : Nat} (h : k < 2) :
    (v.extractLsb' 0 16).extractLsb' (8 * k) 8 = v.extractLsb' (8 * k) 8 := by
  apply BitVec.eq_of_getLsbD_eq
  intro i hi
  simp [show 8 * k + i < 16 by omega]

theorem fetchSees_storeHalf (s : State) (rd : LowReg) (ea : Word) (hwf : s.mem.wf = true) (hw : WritableSpan s ea 2) :
    ∃ t, storeHalf s rd ea = .next t ∧ FetchSees s t ea 2 fun k => (s.readReg (low rd)).extractLsb' (8 * k) 8 := by
  obtain ⟨_, hnext, ⟨-, -, -, ⟨-, hpending, -⟩, -, hmap, -⟩, rfl⟩ := storeHalf_next s rd ea
  refine ⟨_, hnext, fetchSees_of_byteAt hmap hpending hw fun k hk => ?_⟩
  rw [byteAt_memWriteHalf s ea _ hwf hw k hk, extractLsb'_lowHalf _ hk]

theorem fetchSees_storeByte (s : State) (rd : LowReg) (ea : Word) (hwf : s.mem.wf = true) (hw : WritableSpan s ea 1) :
    ∃ t, storeByte s rd ea = .next t ∧ FetchSees s t ea 1 fun k => (s.readReg (low rd)).extractLsb' (8 * k) 8 := by
  obtain ⟨_, hnext, ⟨-, -, -, ⟨-, hpending, -⟩, -, hmap, -⟩, rfl⟩ := storeByte_next s rd ea
  refine ⟨_, hnext, fetchSees_of_byteAt hmap hpending hw fun k hk => ?_⟩
  obtain rfl : k = 0 := by omega
  rw [show ea + BitVec.ofNat 32 0 = ea from BitVec.add_zero ea]
  exact byteAt_memWriteByte s ea _ hwf (writable_of_writableSpan_one hw)

/-- Each word that a push stores, in the order of the list. -/
theorem fetchSees_execPush (s : State) (r : Bool) (rlist : BitVec 8) (hwf : s.mem.wf = true)
    (hw : WritableSpan s (pushBase s r rlist) (4 * (pushRegs r rlist).length)) :
    ∃ t, execPush r rlist s = .next t ∧ ∀ j q, (pushRegs r rlist)[j]? = some q →
      FetchSees s t (wordAddr (pushBase s r rlist) j) 4 fun k => (s.readReg q).extractLsb' (8 * k) 8 := by
  refine ⟨_, rfl, fun j q hj => ?_⟩
  obtain ⟨-, -, hpending, -, -, hmap, -⟩ :=
    storeRegs_fields (pushRegs r rlist) (pushBase s r rlist) (s.writeReg SP (pushBase s r rlist))
  have hlt : j < (pushRegs r rlist).length := (List.getElem?_eq_some_iff.1 hj).1
  refine fetchSees_of_byteAt (hmap.trans (by simp)) ?_ (writableSpan_wordAddr _ _ hw j hlt) fun k hk => ?_
  · rw [hpending, State.writeReg_pcPending_stored _ _ _ SP_ne_PC]
  · rw [storeRegs_byteAt _ _ _ (by simpa using hwf) ((writableSpan_congr (by simp) _ _).2 hw) j q hj k hk,
      readReg_writeReg_SP_of_mem_pushRegs (List.mem_of_getElem? hj)]

/-- Settles O57: each row is its store, whose bytes the fetch sees. -/
theorem storeSeenByNextFetch : Obligations.StoreSeenByNextFetch := by
  rintro s ro rb rd imm5 _ hwf rfl
  refine ⟨?_, ?_, ?_, ?_, ?_, ?_, ?_⟩
  · exact fetchSees_storeWord s rd (regAddr s ro rb) hwf
  · exact fetchSees_storeHalf s rd (regAddr s ro rb) hwf
  · exact fetchSees_storeByte s rd (regAddr s ro rb) hwf
  · exact fetchSees_storeWord s rd (immAddr s imm5 4 rb) hwf
  · exact fetchSees_storeHalf s rd (immAddr s imm5 2 rb) hwf
  · exact fetchSees_storeByte s rd (immAddr s imm5 1 rb) hwf
  · rintro r rlist _ rfl
    rw [movedRegs_eq_pushRegs]
    exact fetchSees_execPush s r rlist hwf

end Sys2Proof.Machine
end

section
/-!
Memory as a whole: the canonical form has one list for each contents (20_memory.md, sections 1 and 8), the reference bus is
a total byte map (R57), a store where nothing is writable leaves no trace (R42, log entry 8), and an access that touches an
external region is one call of `Bus` (R41, R42, D18).
-/

namespace Sys2Proof.Machine

variable {s : State} {a : Word}

/-! ### The canonical form -/

theorem Memory.wf_cons {k : Nat} {b : Byte} {m : Memory} :
    Memory.wf ((k, b) :: m) = true ↔ b ≠ Config.unwrittenByte ∧ Memory.above k m = true ∧ Memory.wf m = true := by
  simp [Memory.wf, and_assoc]

theorem Memory.get_cons (k : Nat) (b : Byte) (m : Memory) (i : Nat) :
    Memory.get ((k, b) :: m) i = if k = i then b else Memory.get m i := rfl

/-- The first cell listed holds a written byte. -/
theorem Memory.get_first_ne {k : Nat} {b : Byte} {m : Memory} (h : Memory.wf ((k, b) :: m) = true) :
    Memory.get ((k, b) :: m) k ≠ Config.unwrittenByte := by
  rw [Memory.get_cons, if_pos rfl]
  exact (Memory.wf_cons.1 h).1

/-- No written cell lies below the first one listed. -/
theorem Memory.first_le_of_get_ne {k i : Nat} {b : Byte} {m : Memory} (h : Memory.wf ((k, b) :: m) = true)
    (hi : Memory.get ((k, b) :: m) i ≠ Config.unwrittenByte) : k ≤ i := by
  by_contra hlt
  exact hi (Memory.get_above _ i h (decide_eq_true (Nat.not_le.1 hlt)))

/-- Settles O55: by induction on the first list; both lists begin with the least written cell, and without it they hold the
same bytes again. -/
theorem canonicalMemoryUnique : Obligations.CanonicalMemoryUnique := by
  intro m1
  induction m1 with
  | nil =>
    rintro (- | ⟨⟨k, b⟩, m2⟩) - hwf2 hget
    · rfl
    · exact absurd (hget k).symm (Memory.get_first_ne hwf2)
  | cons c1 m1 ih =>
    obtain ⟨k1, b1⟩ := c1
    rintro (- | ⟨⟨k2, b2⟩, m2⟩) hwf1 hwf2 hget
    · exact absurd (hget k1) (Memory.get_first_ne hwf1)
    · have hle : k2 ≤ k1 := Memory.first_le_of_get_ne hwf2 (hget k1 ▸ Memory.get_first_ne hwf1)
      have hge : k1 ≤ k2 := Memory.first_le_of_get_ne hwf1 (hget k2 ▸ Memory.get_first_ne hwf2)
      obtain rfl : k1 = k2 := Nat.le_antisymm hge hle
      obtain rfl : b1 = b2 := by simpa [Memory.get_cons] using hget k1
      obtain ⟨-, habove1, htail1⟩ := Memory.wf_cons.1 hwf1
      obtain ⟨-, habove2, htail2⟩ := Memory.wf_cons.1 hwf2
      rw [ih m2 htail1 htail2 fun i => ?_]
      by_cases hi : k1 = i
      · rw [← hi, Memory.get_above m1 k1 htail1 habove1, Memory.get_above m2 k1 htail2 habove2]
      · simpa [Memory.get_cons, hi] using hget i

/-! ### The reference bus (R57) -/

/-- As long as they do not go round, consecutive addresses are distinct. -/
theorem span_nodup (a : Word) {n : Nat} (h : n ≤ 2 ^ 32) : (span a n).Nodup := by
  refine List.Nodup.map_on (fun j hj k hk e => ?_) List.nodup_range
  have hj := List.mem_range.1 hj
  have hk := List.mem_range.1 hk
  have e := congrArg BitVec.toNat (BitVec.add_right_inj a |>.1 e)
  rw [BitVec.toNat_ofNat, BitVec.toNat_ofNat] at e
  omega

theorem writableSpan_reference (h : s.memMap = referenceMap) (a : Word) {n : Nat} (hn : n ≤ 2 ^ 32) :
    WritableSpan s a n :=
  ⟨fun b _ => writable_reference s h b,
    (span_nodup a hn).imp fun hne hsame => hne ((sameCell_reference s h _ _).1 hsame)⟩

/-- The devices see no access that touches no external region. -/
theorem busAfter_reference (h : s.memMap = referenceMap) (op : BusOp) : s.busAfter op = s.busState := by
  cases op <;> simp only [State.busAfter, State.external_reference s h] <;> rfl

/-- Settles O58: each address is its own cell, so all the laws of plain memory apply at every address. -/
theorem referenceBusIsTotal : Obligations.ReferenceBusIsTotal := by
  intro s h
  refine ⟨writable_reference s h, sameCell_reference s h, fun a n => writableSpan_reference h a, busAfter_reference h, ?_⟩
  intro hwf a
  refine ⟨fun v => ?_, fun v => ?_, fun v => ?_⟩
  · exact byteAt_memWriteByte s a v hwf (writable_reference s h a)
  · exact halfAt_memWriteHalf s a v hwf (writableSpan_reference h a (by decide))
  · exact wordAt_memWriteWord s a v hwf (writableSpan_reference h a (by decide))

/-! ### Stores that leave no trace (R42, log entry 8) -/

theorem State.putByte_of_not_writable (h : ¬ Writable s a) (v : Byte) : s.putByte a v = s := by
  obtain hsame | ⟨-, -, hw, -⟩ := s.putByte_cases a v
  · exact hsame
  · exact absurd hw h

theorem State.putHalf_of_not_writable (h : ∀ b ∈ span a 2, ¬ Writable s b) (v : Half) : s.putHalf a v = s := by
  rw [span_two] at h
  rw [State.putHalf, State.putByte_of_not_writable (h a (by simp)), State.putByte_of_not_writable (h (a + 1) (by simp)),
    ite_self]

theorem State.putWord_of_not_writable (h : ∀ b ∈ span a 4, ¬ Writable s b) (v : Word) : s.putWord a v = s := by
  rw [span_four] at h
  rw [State.putWord, State.putByte_of_not_writable (h a (by simp)), State.putByte_of_not_writable (h (a + 1) (by simp)),
    State.putByte_of_not_writable (h (a + 2) (by simp)), State.putByte_of_not_writable (h (a + 3) (by simp)), ite_self]

/-- A request that the devices do not see leaves every byte. -/
theorem byteAt_request_of_busAfter {op : BusOp} (h : s.busAfter op = s.busState) (b : Word) :
    (s.request op).byteAt b = s.byteAt b :=
  State.byteAt_congr (s := s) (t := s.request op) rfl rfl rfl b fun _ => h

theorem byteAt_of_regionAt_none (h : s.regionAt a = none) : s.byteAt a = Config.openBusByte s.draw a.toNat := by
  have hplain : s.externalAt a = false := by rw [State.externalAt, h]; rfl
  have hcell : s.cellAt a = none := by rw [State.cellAt, h]; rfl
  rw [State.byteAt_mem hplain, State.memByteAt, hcell]

/-- Settles O59: such a store is its request alone, and in plain memory the devices do not see it. -/
theorem accessesOutsideWritableMemory : Obligations.AccessesOutsideWritableMemory := by
  intro s a
  refine ⟨fun hw hplain v b => ?_, fun hw hplain v b => ?_, fun hw hplain v b => ?_, byteAt_of_regionAt_none⟩
  · rw [State.memWriteByte_eq, State.putByte_of_not_writable hw]
    exact byteAt_request_of_busAfter (by simp [State.busAfter, hplain]) b
  · rw [State.memWriteHalf_eq, State.putHalf_of_not_writable hw]
    exact byteAt_request_of_busAfter (by simp [State.busAfter, hplain]) b
  · rw [State.memWriteWord_eq, State.putWord_of_not_writable hw]
    exact byteAt_request_of_busAfter (by simp [State.busAfter, hplain]) b

/-! ### The parameter `Bus` (R41, R42, D18) -/

/-- A byte of an external region is no byte of plain memory. -/
theorem State.putByte_of_externalAt (h : s.externalAt a = true) (v : Byte) : s.putByte a v = s :=
  State.putByte_of_not_writable (fun hw => by rw [externalAt_of_writable hw] at h; cases h) v

/-- Settles O60: in an external region the answer and the devices' step are `Bus`'s and the store is none; elsewhere the
devices take no step. -/
theorem externalAccessIsOneBusCall : Obligations.ExternalAccessIsOneBusCall := by
  intro s a
  refine ⟨fun h => ⟨?_, fun v => ?_⟩, fun h => ⟨?_, fun v => ?_⟩, fun h => ⟨?_, fun v => ?_⟩, fun h => ⟨?_, fun v => ?_⟩,
    fun h => ⟨?_, fun v => ?_⟩, fun h => ⟨?_, fun v => ?_⟩⟩
  · simp [State.memReadByte, State.request, State.busAfter, State.byteAt, h]
  · simp [State.memWriteByte, State.putByte_of_externalAt h, State.request, State.busAfter, h]
  · simp [State.memReadHalf, State.request, State.busAfter, State.halfAt, h]
  · simp [State.memWriteHalf, State.putHalf, State.request, State.busAfter, h]
  · simp [State.memReadWord, State.request, State.busAfter, State.wordAt, h]
  · simp [State.memWriteWord, State.putWord, State.request, State.busAfter, h]
  · simp [State.busAfter, h]
  · rw [State.memWriteByte_eq, State.request_busState, State.busAfter_putByte]
    simp [State.busAfter, h]
  · simp [State.busAfter, h]
  · rw [State.memWriteHalf_eq, State.request_busState, State.busAfter_putHalf]
    simp [State.busAfter, h]
  · simp [State.busAfter, h]
  · rw [State.memWriteWord_eq, State.request_busState, State.busAfter_putWord]
    simp [State.busAfter, h]

end Sys2Proof.Machine
end

section
/-!
The step and the fetch loop (10_state.md R31 to R36; 60_exceptions.md R180). At T = 1 a step is the decoded instruction run
from the state the loop hands over, so the loop's turn and the host's run of steps follow one another turn by turn.
-/

namespace Sys2Proof.Machine

variable {s t : State}

/-! ### The step (R31, R32, R35) -/

/-- Settles O13: at T = 1 the step is an instruction, which completes or raises the signal. -/
theorem stepStopsOutsideCompactMode : Obligations.StepStopsOutsideCompactMode := by
  refine fun s => ⟨step_eq_refused_of_not_t, fun ht r hr => ?_⟩
  rw [step_eq_exec_of_t ht] at hr
  obtain ⟨t, hnext⟩ | ⟨reason, hfault⟩ := exec_decodeWord_next_or_fault s.fetchWord s.beginStep
  · rw [hnext] at hr; cases hr
  · rw [hfault] at hr; cases hr

theorem State.stepReady_iff :
    s.stepReady = true ↔ s.t = true ∧ s.pcRead.toNat % 2 = 0 ∧ s.pcPending = s.pcRead - 2 := by
  rw [State.stepReady, getLsbD_zero_eq_decide]
  simp [and_assoc]

/-- Settles O14: R32's preconditions are what the entry point tests, and the loop meets them. -/
theorem blockStepPreconditions : Obligations.BlockStepPreconditions := by
  refine ⟨fun w s h => ?_, fun w s h => ?_, fun s ht => ?_⟩
  · exact blockStep_of_stepReady (State.stepReady_iff.2 h) w
  · exact if_neg (mt State.stepReady_iff.1 h)
  · exact State.stepReady_iff.1 (State.stepReady_beginStep ht)

/-- Settles O12: the halfword's bytes decode as the halfword, and `beginStep` is the state that the statement writes out. -/
theorem stepRunsDecodedInstruction : Obligations.StepRunsDecodedInstruction := by
  have hstep : ∀ (s : State) (i : Instr), s.t = true → decodeWord s.fetchWord = i → step s = exec i s.beginStep :=
    fun s i ht hi => by rw [step_eq_exec_of_t ht, hi]
  refine ⟨fun s i ht hdecode => ?_, fun s i ht hplain hdecode => ?_⟩
  · have hi : decodeWord s.fetchWord = i := by
      rw [← List.append_nil (bytesOfHalf _), decode_bytesOfHalf] at hdecode
      cases hdecode
      rfl
    exact hstep s i ht hi
  · have hword : s.fetchWord = halfOfBytes (s.nextDraw.byteAt s.fetchAddr) (s.nextDraw.byteAt (s.fetchAddr + 1)) :=
      (State.halfAt_mem (s := s.nextDraw) hplain).trans (halfOfBytes_eq_append _ _).symm
    have hi : decodeWord s.fetchWord = i := by
      rw [hword]
      cases hdecode
      rfl
    have hbus : s.busAfter (.readHalf s.fetchAddr s.fetchWord) = s.busState := by simp [State.busAfter, hplain]
    rw [hstep s i ht hi, State.beginStep, hbus]
    rfl

/-- Settles O19: an even `ENTRY` is its own fetch address. -/
theorem bootStepFetchesEntry : Obligations.BootStepFetchesEntry := by
  rintro regs flags entry memMap mem bus s rfl heven
  have haddr : (State.boot regs flags entry memMap mem bus).fetchAddr = entry := and_clearBit0_of_even heven
  refine ⟨(State.boot regs flags entry memMap mem bus).beginStep, (step_eq_exec_of_t rfl).trans ?_, ?_, ?_, rfl, rfl, rfl, rfl, rfl, rfl, ?_⟩
  · rw [State.fetchWord, haddr]
  · rw [State.beginStep_pcRead, haddr]
  · rw [State.beginStep_pcPending, haddr]
  · rw [State.beginStep_busState, State.fetchWord, haddr]

/-! ### One turn of REF-FETCH (R35) -/

theorem blockStep_fetch_eq_step (h : s.t = true) : blockStep s.fetchWord s.beginStep = step s :=
  (if_pos h).symm

theorem refFetch_of_not_t (stopAt : Option Word) (n : Nat) (h : s.t = false) :
    refFetch stopAt (n + 1) s = .stopped .leftCompactMode s := by
  simp [refFetch, h]

theorem refFetch_of_ended {stopAt : Option Word} (n : Nat) (h : s.t = true) (hend : stopAt = some s.fetchAddr) :
    refFetch stopAt (n + 1) s = .stopped .ended s := by
  simp [refFetch, h, hend]

theorem refFetch_of_next {stopAt : Option Word} (n : Nat) (h : s.t = true) (hend : stopAt ≠ some s.fetchAddr)
    (hstep : step s = .next t) : refFetch stopAt (n + 1) s = refFetch stopAt n t := by
  simp [refFetch, h, hend, blockStep_fetch_eq_step, hstep]

theorem refFetch_of_fault {stopAt : Option Word} (n : Nat) (h : s.t = true) (hend : stopAt ≠ some s.fetchAddr)
    {f : Fault} (hstep : step s = .fault f) : refFetch stopAt (n + 1) s = .stopped (.fault f) s.beginStep := by
  simp [refFetch, h, hend, blockStep_fetch_eq_step, hstep]

/-- Settles O17: the four ways a turn can go. -/
theorem referenceLoopStops : Obligations.ReferenceLoopStops := by
  refine fun endAt n s => ⟨refFetch_of_not_t _ n, fun ht hend => ?_, fun t ht hne hstep => ?_, fun f ht hne hstep => ?_⟩
  · exact refFetch_of_ended n ht (congrArg some hend.symm)
  · exact refFetch_of_next n ht (fun h => hne (Option.some.inj h).symm) hstep
  · exact refFetch_of_fault n ht (fun h => hne (Option.some.inj h).symm) hstep

/-- Settles O11: the loop stops with the state it handed to the block, in which only the fetch has left its marks. -/
theorem signalChangesNothing : Obligations.SignalChangesNothing := by
  intro s fuel ht hinvalid
  obtain ⟨reason, hfault⟩ := exec_fault_of_isInvalidRow hinvalid s.beginStep
  rw [encode_decodeWord_of_isInvalidRow hinvalid, ← step_eq_exec_of_t ht] at hfault
  exact ⟨reason, s.beginStep, refFetch_of_fault (stopAt := none) fuel ht nofun hfault, rfl, rfl, rfl, rfl, rfl, rfl, rfl, rfl, rfl⟩

/-! ### The loop and the run of steps -/

section
variable {M : Host.Core} {s t : M.State}

theorem run_succ_of_next (n : Nat) (h : M.step s = .next t) : M.run (n + 1) s = M.run n t := by
  simp [Host.Core.run, h]

theorem run_succ_of_fault (n : Nat) {f : M.Fault} (h : M.step s = .fault f) : M.run (n + 1) s = .fault f := by
  simp [Host.Core.run, h]

theorem run_succ_of_refused (n : Nat) {r : M.Refusal} (h : M.step s = .refused r) : M.run (n + 1) s = .refused r := by
  simp [Host.Core.run, h]

end

/-- After `n` turns the run and the loop are both in one state, or both stopped at the same turn: where a step raises the
signal, or where T = 0. -/
inductive LoopAgrees (n : Nat) (s : State) : Prop where
  | running (t : State) (hrun : Host.Core.run core n s = .next t) (hloop : refFetch none n s = .running t)
  | faulted (m : Nat) (u : State) (f : Fault) (hm : m < n) (hu : Host.Core.run core m s = .next u)
      (hstep : step u = .fault f) (hrun : Host.Core.run core n s = .fault f)
      (hloop : refFetch none n s = .stopped (.fault f) u.beginStep)
  | left (m : Nat) (u : State) (hm : m < n) (hu : Host.Core.run core m s = .next u) (ht : u.t = false)
      (hrun : Host.Core.run core n s = .refused .leftCompactMode)
      (hloop : refFetch none n s = .stopped .leftCompactMode u)

theorem loopAgrees (n : Nat) : ∀ s : State, LoopAgrees n s := by
  induction n with
  | zero => exact fun s => .running s rfl rfl
  | succ n ih =>
    intro s
    cases ht : s.t with
    | false =>
      exact .left 0 s n.succ_pos rfl ht (run_succ_of_refused (M := core) n (step_eq_refused_of_not_t ht)) (refFetch_of_not_t none n ht)
    | true =>
      cases hstep : step s with
      | refused r => exact absurd hstep ((stepStopsOutsideCompactMode s).2 ht r)
      | fault f =>
        exact .faulted 0 s f n.succ_pos rfl hstep (run_succ_of_fault (M := core) n hstep) (refFetch_of_fault (stopAt := none) n ht nofun hstep)
      | next t =>
        have hrun := fun k => run_succ_of_next (M := core) k hstep
        have hloop := refFetch_of_next (stopAt := none) n ht nofun hstep
        cases ih t with
        | running u hu hl => exact .running u ((hrun n).trans hu) (hloop.trans hl)
        | faulted m u f hm hu hf hr hl =>
          exact .faulted (m + 1) u f (Nat.succ_lt_succ hm) ((hrun m).trans hu) hf ((hrun n).trans hr) (hloop.trans hl)
        | left m u hm hu hleft hr hl =>
          exact .left (m + 1) u (Nat.succ_lt_succ hm) ((hrun m).trans hu) hleft ((hrun n).trans hr) (hloop.trans hl)

theorem run_eq_next_iff (n : Nat) (s t : State) :
    Host.Core.run core n s = .next t ↔ refFetch none n s = .running t := by
  cases loopAgrees n s with
  | running u hrun hloop =>
    rw [hrun, hloop]
    exact ⟨fun h => by cases h; rfl, fun h => by cases h; rfl⟩
  | faulted _ _ _ _ _ _ hrun hloop | left _ _ _ _ _ hrun hloop =>
    rw [hrun, hloop]
    exact ⟨nofun, nofun⟩

theorem run_eq_fault_iff (n : Nat) (s : State) (f : Fault) :
    Host.Core.run core n s = .fault f ↔ ∃ m u, m < n ∧ Host.Core.run core m s = .next u ∧ step u = .fault f ∧
      refFetch none n s = .stopped (.fault f) u.beginStep := by
  cases loopAgrees n s with
  | faulted m u g hm hu hstep hrun hloop =>
    rw [hrun, hloop]
    refine ⟨fun h => ?_, fun ⟨_, _, _, _, _, h⟩ => ?_⟩
    · cases h
      exact ⟨m, u, hm, hu, hstep, rfl⟩
    · obtain ⟨hf, -⟩ := RefRun.stopped.inj h
      cases hf
      rfl
  | running _ hrun hloop | left _ _ _ _ _ hrun hloop =>
    rw [hrun, hloop]
    exact ⟨nofun, nofun⟩

theorem run_eq_refused_iff (n : Nat) (s : State) :
    Host.Core.run core n s = .refused .leftCompactMode ↔ ∃ m u, m < n ∧ Host.Core.run core m s = .next u ∧
      u.t = false ∧ refFetch none n s = .stopped .leftCompactMode u := by
  cases loopAgrees n s with
  | left m u hm hu ht hrun hloop => exact ⟨fun _ => ⟨m, u, hm, hu, ht, hloop⟩, fun _ => hrun⟩
  | running _ hrun hloop | faulted _ _ _ _ _ _ hrun hloop =>
    rw [hrun, hloop]
    exact ⟨nofun, nofun⟩

/-- Settles O16: the answers of the run and of the loop tell the three ways apart, and the only refusal is at T = 0. -/
theorem referenceLoopAgreesWithRun : Obligations.ReferenceLoopAgreesWithRun := by
  refine fun n s => ⟨run_eq_next_iff n s, run_eq_fault_iff n s, run_eq_refused_iff n s, fun r hr => ?_⟩
  cases loopAgrees n s with
  | left _ _ _ _ _ hrun hloop => rw [hrun] at hr; cases hr; rfl
  | running _ hrun hloop | faulted _ _ _ _ _ _ hrun hloop => rw [hrun] at hr; cases hr

end Sys2Proof.Machine
end

section
/-!
The load of a word where the loop fetches next (70_reset_and_hazards.md, section 2; log entry 15). The load writes the two
bytes into two cells of plain memory, those that the map gives the fetched bytes or else the reference map's, so the fetch
reads the word.
-/

namespace Sys2Proof.Machine

/-- A byte of plain memory is what its cell holds. -/
theorem State.byteAt_of_cellAt {s : State} {a : Word} {k : Nat} (h : s.cellAt a = some k) : s.byteAt a = s.mem.get k := by
  rw [State.byteAt_mem (State.externalAt_of_cellAt h), State.memByteAt, h]

/-- A halfword of plain memory is what its two cells hold. -/
theorem State.halfAt_of_cellAt {s : State} {a : Word} {k0 k1 : Nat} (h0 : s.cellAt a = some k0)
    (h1 : s.cellAt (a + 1) = some k1) : s.halfAt a = s.mem.get k1 ++ s.mem.get k0 := by
  have hplain : s.external a 2 = false := by
    refine State.external_of_externalAt fun b hb => ?_
    rw [span_two, List.mem_pair] at hb
    obtain rfl | rfl := hb
    · exact State.externalAt_of_cellAt h0
    · exact State.externalAt_of_cellAt h1
  rw [State.halfAt_mem hplain, State.byteAt_of_cellAt h0, State.byteAt_of_cellAt h1]

/-- Under the map `memMap` the two bytes that `s` fetches have the cells `k0` and `k1`. -/
structure FetchCells (s : State) (memMap : List Region) (k0 k1 : Nat) : Prop where
  first : { s with memMap := memMap }.cellAt s.fetchAddr = some k0
  second : { s with memMap := memMap }.cellAt (s.fetchAddr + 1) = some k1
  ne : k0 ≠ k1

theorem fetchCells_reference (s : State) :
    FetchCells s referenceMap s.fetchAddr.toNat (s.fetchAddr + 1).toNat where
  first := State.cellAt_reference _ rfl _
  second := State.cellAt_reference _ rfl _
  ne h := by
    have := BitVec.eq_of_toNat_eq h
    bv_omega

/-- `s` with a map and with the two bytes of a word in two cells. -/
def State.withWordIn (s : State) (memMap : List Region) (k0 k1 : Nat) (w : Half) : State :=
  ({ s with memMap := memMap }.loadCell k0 (w.extractLsb' 0 8)).loadCell k1 (w.extractLsb' 8 8)

/-- Whichever map it takes, the load writes the two bytes into the two cells of the fetch. -/
theorem State.loadFetchWord_cases (s : State) (w : Half) :
    ∃ memMap k0 k1, FetchCells s memMap k0 k1 ∧ s.loadFetchWord w = s.withWordIn memMap k0 k1 w := by
  unfold State.loadFetchWord
  split
  · next k0 k1 h0 h1 =>
    split
    · exact ⟨_, _, _, fetchCells_reference s, rfl⟩
    · next hne => exact ⟨s.memMap, k0, k1, ⟨h0, h1, hne⟩, rfl⟩
  · exact ⟨_, _, _, fetchCells_reference s, rfl⟩

/-- Two bytes put into the cells of the fetch are fetched. -/
theorem State.fetchWord_withWordIn {s : State} {memMap : List Region} {k0 k1 : Nat} (h : FetchCells s memMap k0 k1)
    (w : Half) (hwf : s.mem.wf = true) : (s.withWordIn memMap k0 k1 w).fetchWord = w := by
  have hfirst : (s.withWordIn memMap k0 k1 w).mem.get k0 = w.extractLsb' 0 8 :=
    (Memory.get_set_other _ _ _ _ h.ne).trans (Memory.get_set_same _ _ _ hwf)
  have hsecond : (s.withWordIn memMap k0 k1 w).mem.get k1 = w.extractLsb' 8 8 :=
    Memory.get_set_same _ _ _ (Memory.set_wf _ _ _ hwf)
  have hfetch : (s.withWordIn memMap k0 k1 w).fetchWord =
      (s.withWordIn memMap k0 k1 w).mem.get k1 ++ (s.withWordIn memMap k0 k1 w).mem.get k0 :=
    State.halfAt_of_cellAt (s := (s.withWordIn memMap k0 k1 w).nextDraw) h.first h.second
  rw [hfetch, hfirst, hsecond, half_of_bytes]

/-- Settles O18: with T set the next step runs the word that the loop fetches. -/
theorem loadedWordRunsNext : Obligations.LoadedWordRunsNext := by
  intro s w hwf
  have hw : BitVec.ofNat 16 (w.toNat % 2 ^ 16) = w := by
    rw [Nat.mod_eq_of_lt w.isLt, BitVec.ofNat_toNat, BitVec.setWidth_eq]
  rw [State.withFetchWord, hw]
  obtain ⟨memMap, k0, k1, hcells, hload⟩ := (s.setT true).loadFetchWord_cases w
  rw [hload]
  refine ⟨?_, rfl, rfl, rfl⟩
  rw [step_eq_exec_of_t rfl, State.fetchWord_withWordIn hcells w hwf]

end Sys2Proof.Machine
end

section
/-!
The rows of spec/opcode_table.json from the word's side (30_encoding.md R62 to R77). A word that meets a row's mask and match
is the encoding of that row's instruction with the word's own fields, so it decodes to it; and every word meets the row of
the instruction that its upper ten bits decode to.
-/

namespace Sys2Proof

open Sys2Proof.Laws.RowMatch (row)

/-! ### A row's instruction with a word's fields -/

/-- The instruction of the same row with the fields of `w`, at the bit positions of R62 to R77. -/
def Instr.withFieldsOf (w : Half) : Instr → Instr
  | .lslImm _ _ _ => .lslImm (field w 6 5) (regOf3 (field w 3 3)) (regOf3 (field w 0 3))
  | .lsrImm _ _ _ => .lsrImm (field w 6 5) (regOf3 (field w 3 3)) (regOf3 (field w 0 3))
  | .asrImm _ _ _ => .asrImm (field w 6 5) (regOf3 (field w 3 3)) (regOf3 (field w 0 3))
  | .addReg _ _ _ => .addReg (regOf3 (field w 6 3)) (regOf3 (field w 3 3)) (regOf3 (field w 0 3))
  | .subReg _ _ _ => .subReg (regOf3 (field w 6 3)) (regOf3 (field w 3 3)) (regOf3 (field w 0 3))
  | .addImm3 _ _ _ => .addImm3 (field w 6 3) (regOf3 (field w 3 3)) (regOf3 (field w 0 3))
  | .subImm3 _ _ _ => .subImm3 (field w 6 3) (regOf3 (field w 3 3)) (regOf3 (field w 0 3))
  | .movImm8 _ _ => .movImm8 (regOf3 (field w 8 3)) (field w 0 8)
  | .cmpImm8 _ _ => .cmpImm8 (regOf3 (field w 8 3)) (field w 0 8)
  | .addImm8 _ _ => .addImm8 (regOf3 (field w 8 3)) (field w 0 8)
  | .subImm8 _ _ => .subImm8 (regOf3 (field w 8 3)) (field w 0 8)
  | .and _ _ => .and (regOf3 (field w 3 3)) (regOf3 (field w 0 3))
  | .eor _ _ => .eor (regOf3 (field w 3 3)) (regOf3 (field w 0 3))
  | .lslReg _ _ => .lslReg (regOf3 (field w 3 3)) (regOf3 (field w 0 3))
  | .lsrReg _ _ => .lsrReg (regOf3 (field w 3 3)) (regOf3 (field w 0 3))
  | .asrReg _ _ => .asrReg (regOf3 (field w 3 3)) (regOf3 (field w 0 3))
  | .adc _ _ => .adc (regOf3 (field w 3 3)) (regOf3 (field w 0 3))
  | .sbc _ _ => .sbc (regOf3 (field w 3 3)) (regOf3 (field w 0 3))
  | .ror _ _ => .ror (regOf3 (field w 3 3)) (regOf3 (field w 0 3))
  | .tst _ _ => .tst (regOf3 (field w 3 3)) (regOf3 (field w 0 3))
  | .neg _ _ => .neg (regOf3 (field w 3 3)) (regOf3 (field w 0 3))
  | .cmpReg _ _ => .cmpReg (regOf3 (field w 3 3)) (regOf3 (field w 0 3))
  | .cmn _ _ => .cmn (regOf3 (field w 3 3)) (regOf3 (field w 0 3))
  | .orr _ _ => .orr (regOf3 (field w 3 3)) (regOf3 (field w 0 3))
  | .mul _ _ => .mul (regOf3 (field w 3 3)) (regOf3 (field w 0 3))
  | .bic _ _ => .bic (regOf3 (field w 3 3)) (regOf3 (field w 0 3))
  | .mvn _ _ => .mvn (regOf3 (field w 3 3)) (regOf3 (field w 0 3))
  | .addHi _ _ => .addHi (regOf4 (field w 6 1) (field w 3 3)) (regOf4 (field w 7 1) (field w 0 3))
  | .cmpHi _ _ => .cmpHi (regOf4 (field w 6 1) (field w 3 3)) (regOf4 (field w 7 1) (field w 0 3))
  | .movHi _ _ => .movHi (regOf4 (field w 6 1) (field w 3 3)) (regOf4 (field w 7 1) (field w 0 3))
  | .bx _ _ => .bx (regOf4 (field w 6 1) (field w 3 3)) (field w 0 3)
  | .blxReg _ _ => .blxReg (regOf4 (field w 6 1) (field w 3 3)) (field w 0 3)
  | .ldrPc _ _ => .ldrPc (regOf3 (field w 8 3)) (field w 0 8)
  | .strReg _ _ _ => .strReg (regOf3 (field w 6 3)) (regOf3 (field w 3 3)) (regOf3 (field w 0 3))
  | .strhReg _ _ _ => .strhReg (regOf3 (field w 6 3)) (regOf3 (field w 3 3)) (regOf3 (field w 0 3))
  | .strbReg _ _ _ => .strbReg (regOf3 (field w 6 3)) (regOf3 (field w 3 3)) (regOf3 (field w 0 3))
  | .ldsbReg _ _ _ => .ldsbReg (regOf3 (field w 6 3)) (regOf3 (field w 3 3)) (regOf3 (field w 0 3))
  | .ldrReg _ _ _ => .ldrReg (regOf3 (field w 6 3)) (regOf3 (field w 3 3)) (regOf3 (field w 0 3))
  | .ldrhReg _ _ _ => .ldrhReg (regOf3 (field w 6 3)) (regOf3 (field w 3 3)) (regOf3 (field w 0 3))
  | .ldrbReg _ _ _ => .ldrbReg (regOf3 (field w 6 3)) (regOf3 (field w 3 3)) (regOf3 (field w 0 3))
  | .ldshReg _ _ _ => .ldshReg (regOf3 (field w 6 3)) (regOf3 (field w 3 3)) (regOf3 (field w 0 3))
  | .strImm _ _ _ => .strImm (field w 6 5) (regOf3 (field w 3 3)) (regOf3 (field w 0 3))
  | .ldrImm _ _ _ => .ldrImm (field w 6 5) (regOf3 (field w 3 3)) (regOf3 (field w 0 3))
  | .strbImm _ _ _ => .strbImm (field w 6 5) (regOf3 (field w 3 3)) (regOf3 (field w 0 3))
  | .ldrbImm _ _ _ => .ldrbImm (field w 6 5) (regOf3 (field w 3 3)) (regOf3 (field w 0 3))
  | .strhImm _ _ _ => .strhImm (field w 6 5) (regOf3 (field w 3 3)) (regOf3 (field w 0 3))
  | .ldrhImm _ _ _ => .ldrhImm (field w 6 5) (regOf3 (field w 3 3)) (regOf3 (field w 0 3))
  | .push _ _ => .push (field w 8 1 == 1) (field w 0 8)
  | .pop _ _ => .pop (field w 8 1 == 1) (field w 0 8)
  | .beq _ => .beq (field w 0 8)
  | .bne _ => .bne (field w 0 8)
  | .bcs _ => .bcs (field w 0 8)
  | .bcc _ => .bcc (field w 0 8)
  | .bmi _ => .bmi (field w 0 8)
  | .bpl _ => .bpl (field w 0 8)
  | .bvs _ => .bvs (field w 0 8)
  | .bvc _ => .bvc (field w 0 8)
  | .bhi _ => .bhi (field w 0 8)
  | .bls _ => .bls (field w 0 8)
  | .bge _ => .bge (field w 0 8)
  | .blt _ => .blt (field w 0 8)
  | .bgt _ => .bgt (field w 0 8)
  | .ble _ => .ble (field w 0 8)
  | .blHi _ => .blHi (field w 0 11)
  | .blLo _ => .blLo (field w 0 11)
  | .blxLo _ => .blxLo (field w 0 11)
  | .invalid9000 _ => .invalid9000 w
  | .invalidA000 _ => .invalidA000 w
  | .invalidB000 _ => .invalidB000 w
  | .invalidB200 _ => .invalidB200 w
  | .invalidB600 _ => .invalidB600 w
  | .invalidC000 _ => .invalidC000 w
  | .invalidE000 _ => .invalidE000 w
  | .invalidCond14 _ => .invalidCond14 w
  | .invalidSwi _ => .invalidSwi w

variable {w : Half} {i : Instr}

/-- The words of a row are well-formed operands of its constructor. -/
theorem Instr.wellFormed_withFieldsOf (h : w &&& (row i).1 = (row i).2) : (i.withFieldsOf w).wellFormed = true := by
  cases i with
  | invalid9000 | invalidA000 | invalidB000 | invalidB200 | invalidB600 | invalidC000 | invalidE000
  | invalidCond14 | invalidSwi => exact beq_iff_eq.2 h
  | _ => rfl

/-- A part of a word and one of its fields are the word's part under both masks. -/
theorem or_put_field {x m : Half} (lo n : Nat) (h : x = w &&& m) :
    x ||| put lo (field w lo n) = w &&& (m ||| put lo (BitVec.allOnes n)) := by
  rw [h, put_field, BitVec.and_or_distrib_left]

/-- The part under a mask that leaves no bit out is the word. -/
theorem eq_of_and_full {x m : Half} (h : x = w &&& m) (hm : m = BitVec.allOnes 16) : x = w := by
  rw [h, hm, BitVec.and_allOnes]

theorem ofBool_field_beq_one (w : Half) (lo : Nat) : BitVec.ofBool (field w lo 1 == 1) = field w lo 1 := by
  generalize field w lo 1 = b
  revert b
  decide

/-- A word of a row is the encoding of the row's instruction with the word's fields: match value and fields leave no bit
out. -/
theorem encode_withFieldsOf (h : w &&& (row i).1 = (row i).2) : encode (i.withFieldsOf w) = w := by
  cases i with
  | lslImm | lsrImm | asrImm | strImm | ldrImm | strbImm | ldrbImm | strhImm | ldrhImm =>
    exact eq_of_and_full (or_put_field 0 3 (or_put_field 3 3 (or_put_field 6 5 h.symm))) (by simp only [row]; decide)
  | addReg | subReg | addImm3 | subImm3
  | strReg | strhReg | strbReg | ldsbReg | ldrReg | ldrhReg | ldrbReg | ldshReg =>
    exact eq_of_and_full (or_put_field 0 3 (or_put_field 3 3 (or_put_field 6 3 h.symm))) (by simp only [row]; decide)
  | movImm8 | cmpImm8 | addImm8 | subImm8 | ldrPc =>
    exact eq_of_and_full (or_put_field 0 8 (or_put_field 8 3 h.symm)) (by simp only [row]; decide)
  | and | eor | lslReg | lsrReg | asrReg | adc | sbc | ror | tst | neg | cmpReg | cmn | orr | mul | bic | mvn =>
    exact eq_of_and_full (or_put_field 0 3 (or_put_field 3 3 h.symm)) (by simp only [row]; decide)
  | addHi | cmpHi | movHi =>
    simp only [encode, Instr.withFieldsOf, hBit_regOf4, lowBits_regOf4]
    exact eq_of_and_full (or_put_field 0 3 (or_put_field 3 3 (or_put_field 6 1 (or_put_field 7 1 h.symm)))) (by simp only [row]; decide)
  | bx | blxReg =>
    simp only [encode, Instr.withFieldsOf, hBit_regOf4, lowBits_regOf4]
    exact eq_of_and_full (or_put_field 0 3 (or_put_field 3 3 (or_put_field 6 1 h.symm))) (by simp only [row]; decide)
  | push | pop =>
    simp only [encode, Instr.withFieldsOf, ofBool_field_beq_one]
    exact eq_of_and_full (or_put_field 0 8 (or_put_field 8 1 h.symm)) (by simp only [row]; decide)
  | beq | bne | bcs | bcc | bmi | bpl | bvs | bvc | bhi | bls | bge | blt | bgt | ble =>
    exact eq_of_and_full (or_put_field 0 8 h.symm) (by simp only [row]; decide)
  | blHi | blLo | blxLo => exact eq_of_and_full (or_put_field 0 11 h.symm) (by simp only [row]; decide)
  | invalid9000 | invalidA000 | invalidB000 | invalidB200 | invalidB600 | invalidC000 | invalidE000
  | invalidCond14 | invalidSwi => rfl

/-- A word of a row decodes to the row's instruction with the word's fields. -/
theorem decodeWord_of_row (h : w &&& (row i).1 = (row i).2) : decodeWord w = i.withFieldsOf w := by
  rw [← decodeWord_encode (Instr.wellFormed_withFieldsOf h), encode_withFieldsOf h]

/-! ### Every word meets a row -/

/-- No row looks below the upper ten bits. -/
theorem row_mask_and_upperTen (i : Instr) : put 6 (BitVec.allOnes 10) &&& (row i).1 = (row i).1 := by
  cases i <;> (simp only [row]; decide)

/-- The words whose lower six bits are 0 meet the row of what they decode to. -/
theorem row_of_upperTen : ∀ (hb : Byte) (b : BitVec 2),
    (put 8 hb ||| put 6 b) &&& (row (decodeWord (put 8 hb ||| put 6 b))).1 =
      (row (decodeWord (put 8 hb ||| put 6 b))).2 := by decide

theorem put_upperTen (w : Half) :
    put 8 (field w 8 8) ||| put 6 (field w 6 2) = w &&& put 6 (BitVec.allOnes 10) := by
  rw [put_field, put_field, ← BitVec.and_or_distrib_left]
  rfl

/-- Every word meets the mask and match of a row. -/
theorem exists_row (w : Half) : ∃ i, w &&& (row i).1 = (row i).2 := by
  have hupper := row_of_upperTen (field w 8 8) (field w 6 2)
  refine ⟨_, Eq.trans ?_ hupper⟩
  conv_rhs => rw [put_upperTen, BitVec.and_assoc]
  rw [put_upperTen, row_mask_and_upperTen]

/-- Settles O2: every word meets a row, and is the encoding of that row's instruction with its own fields. -/
theorem encodeDecodeAgree : Obligations.EncodeDecodeAgree := by
  intro w
  obtain ⟨i, h⟩ := exists_row w
  rw [decodeWord_of_row h]
  exact ⟨Instr.wellFormed_withFieldsOf h, encode_withFieldsOf h⟩

/-! ### The rows of each format -/

/-- Settles O4: the rows of Formats 1 to 5, in the table's order. -/
theorem rowsOfFormats1To5Decode : Obligations.RowsOfFormats1To5Decode := fun _ =>
  ⟨decodeWord_of_row (i := .lslImm 0 0 0), decodeWord_of_row (i := .lsrImm 0 0 0),
    decodeWord_of_row (i := .asrImm 0 0 0), decodeWord_of_row (i := .addReg 0 0 0),
    decodeWord_of_row (i := .subReg 0 0 0), decodeWord_of_row (i := .addImm3 0 0 0),
    decodeWord_of_row (i := .subImm3 0 0 0), decodeWord_of_row (i := .movImm8 0 0),
    decodeWord_of_row (i := .cmpImm8 0 0), decodeWord_of_row (i := .addImm8 0 0),
    decodeWord_of_row (i := .subImm8 0 0), decodeWord_of_row (i := .and 0 0), decodeWord_of_row (i := .eor 0 0),
    decodeWord_of_row (i := .lslReg 0 0), decodeWord_of_row (i := .lsrReg 0 0), decodeWord_of_row (i := .asrReg 0 0),
    decodeWord_of_row (i := .adc 0 0), decodeWord_of_row (i := .sbc 0 0), decodeWord_of_row (i := .ror 0 0),
    decodeWord_of_row (i := .tst 0 0), decodeWord_of_row (i := .neg 0 0), decodeWord_of_row (i := .cmpReg 0 0),
    decodeWord_of_row (i := .cmn 0 0), decodeWord_of_row (i := .orr 0 0), decodeWord_of_row (i := .mul 0 0),
    decodeWord_of_row (i := .bic 0 0), decodeWord_of_row (i := .mvn 0 0), decodeWord_of_row (i := .addHi 0 0),
    decodeWord_of_row (i := .cmpHi 0 0), decodeWord_of_row (i := .movHi 0 0), decodeWord_of_row (i := .bx 0 0),
    decodeWord_of_row (i := .blxReg 0 0)⟩

/-- Settles O5: the rows of Formats 6 to 10 and 14. -/
theorem rowsOfFormats6To14Decode : Obligations.RowsOfFormats6To14Decode := fun _ =>
  ⟨decodeWord_of_row (i := .ldrPc 0 0), decodeWord_of_row (i := .strReg 0 0 0),
    decodeWord_of_row (i := .strhReg 0 0 0), decodeWord_of_row (i := .strbReg 0 0 0),
    decodeWord_of_row (i := .ldsbReg 0 0 0), decodeWord_of_row (i := .ldrReg 0 0 0),
    decodeWord_of_row (i := .ldrhReg 0 0 0), decodeWord_of_row (i := .ldrbReg 0 0 0),
    decodeWord_of_row (i := .ldshReg 0 0 0), decodeWord_of_row (i := .strImm 0 0 0),
    decodeWord_of_row (i := .ldrImm 0 0 0), decodeWord_of_row (i := .strbImm 0 0 0),
    decodeWord_of_row (i := .ldrbImm 0 0 0), decodeWord_of_row (i := .strhImm 0 0 0),
    decodeWord_of_row (i := .ldrhImm 0 0 0), decodeWord_of_row (i := .push false 0),
    decodeWord_of_row (i := .pop false 0)⟩

/-- Settles O6: the rows of Formats 16 and 19 and the nine invalid rows. -/
theorem rowsOfFormats16And19AndInvalidDecode : Obligations.RowsOfFormats16And19AndInvalidDecode := fun _ =>
  ⟨decodeWord_of_row (i := .beq 0), decodeWord_of_row (i := .bne 0), decodeWord_of_row (i := .bcs 0),
    decodeWord_of_row (i := .bcc 0), decodeWord_of_row (i := .bmi 0), decodeWord_of_row (i := .bpl 0),
    decodeWord_of_row (i := .bvs 0), decodeWord_of_row (i := .bvc 0), decodeWord_of_row (i := .bhi 0),
    decodeWord_of_row (i := .bls 0), decodeWord_of_row (i := .bge 0), decodeWord_of_row (i := .blt 0),
    decodeWord_of_row (i := .bgt 0), decodeWord_of_row (i := .ble 0), decodeWord_of_row (i := .blHi 0),
    decodeWord_of_row (i := .blLo 0), decodeWord_of_row (i := .blxLo 0), decodeWord_of_row (i := .invalid9000 0),
    decodeWord_of_row (i := .invalidA000 0), decodeWord_of_row (i := .invalidB000 0),
    decodeWord_of_row (i := .invalidB200 0), decodeWord_of_row (i := .invalidB600 0),
    decodeWord_of_row (i := .invalidC000 0), decodeWord_of_row (i := .invalidE000 0),
    decodeWord_of_row (i := .invalidCond14 0), decodeWord_of_row (i := .invalidSwi 0)⟩

/-- Settles O3: the words are literals. -/
theorem specWordsDecodeRight : Obligations.SpecWordsDecodeRight := by
  unfold Obligations.SpecWordsDecodeRight
  decide

end Sys2Proof
end

section
/-!
The reason that the signal carries (60_exceptions.md R179; 30_encoding.md R76, R77): R179's table of high bytes and the
classifier's map of R61 agree on which words raise the signal, and each invalid row lies in one range of the table.
-/

namespace Sys2Proof.Machine

/-- R179's table has a row for the high bytes of no format and for those of the conditions 14 and 15. -/
theorem reasonOfHighByte_eq_none_iff : ∀ hb : Byte,
    reasonOfHighByte hb = none ↔ ¬ (formatOfHighByte hb = none ∨ hb &&& 0xFE = 0xDE) := by decide

/-- R181's mask and match of the conditions 14 and 15 are those of the high byte. -/
theorem highByte_and_eq_iff (w : Half) : field w 8 8 &&& 0xFE = 0xDE ↔ w &&& 0xFE00 = 0xDE00 := by
  have hbits : ∀ hb : Byte, hb &&& 0xFE = 0xDE ↔ hb.extractLsb' 1 7 = 0b1101111 := by decide
  rw [hbits, extractLsb'_field w 8 8 1 7 (by decide)]
  exact field_eq_iff_and w (lo := 9) 0b1101111 (by decide)

/-- R179's table has no row for a word if and only if the word decodes to no invalid row. -/
theorem reasonOfHighByte_word_eq_none_iff (w : Half) :
    reasonOfHighByte (field w 8 8) = none ↔ ¬ (decodeWord w).isInvalidRow = true := by
  rw [reasonOfHighByte_eq_none_iff, highByte_and_eq_iff, isInvalidRow_decodeWord_iff, highByteMapAgrees w]
  rfl

theorem wellFormed_of_not_isInvalidRow {i : Instr} (h : i.isInvalidRow = false) : i.wellFormed = true := by
  cases i with
  | invalid9000 | invalidA000 | invalidB000 | invalidB200 | invalidB600 | invalidC000 | invalidE000
  | invalidCond14 | invalidSwi => cases h
  | _ => rfl

/-- A word that meets a mask and match has the reason of all high bytes that meet their upper half. -/
theorem reasonOfHighByte_of_and {w m p : Half} {reason : InvalidReason} (h : w &&& m = p)
    (hreason : ∀ hb : Byte, hb &&& field m 8 8 = field p 8 8 → reasonOfHighByte hb = some reason) :
    reasonOfHighByte (field w 8 8) = some reason :=
  hreason _ (by rw [← field_and, h])

/-- Settles O10: an invalid row's mask and match leave its high byte in one range of R179's table, and the word of any
other row decodes to that row. -/
theorem signalCarriesWordAndReason : Obligations.SignalCarriesWordAndReason := by
  refine ⟨fun i s hi h => ?_, fun i s hi => ⟨?_, exec_next_of_not_isInvalidRow hi s⟩⟩
  · cases i with
    | invalid9000 | invalidA000 | invalidB000 | invalidB200 | invalidB600 | invalidC000 | invalidE000 =>
      exact ⟨.noFormat, reasonOfHighByte_of_and (beq_iff_eq.1 h) (by decide), rfl⟩
    | invalidCond14 => exact ⟨.reservedCondition, reasonOfHighByte_of_and (beq_iff_eq.1 h) (by decide), rfl⟩
    | invalidSwi => exact ⟨.unimplementedSwi, reasonOfHighByte_of_and (beq_iff_eq.1 h) (by decide), rfl⟩
    | _ => cases hi
  · refine (reasonOfHighByte_word_eq_none_iff (encode i)).2 ?_
    rw [decodeWord_encode (wellFormed_of_not_isInvalidRow hi), hi]
    exact Bool.false_ne_true

end Sys2Proof.Machine
end
